-- ==== Sys2Proof/Word.lean ====
section
/-! DEFINITION. The words of GRATIS-EPDSEQ: host registers and commands are 32 bits wide, stream and
image data are bytes (00_scope.md R8, R11). -/

namespace Sys2Proof

/-- A host register or a command word (R8: host registers, 32 bits). -/
abbrev Word := BitVec 32

/-- A byte of the serial stream or of image data. -/
abbrev Byte := BitVec 8

end Sys2Proof
end

