-- ==== Sys2Proof/Syntax.lean ====
section
/-! DEFINITION. The command set of 30_encoding.md as syntax: one constructor of `Instr` per row of
spec/opcode_table.json, and the two operand kinds that have names. -/

namespace Sys2Proof

/-- The four stages of a refresh (R120, R140). -/
inductive Stage where
  | compensate
  | white
  | inverse
  | normal
  deriving DecidableEq, Repr

/-- The pixel sources (R121). -/
inductive Src where
  | fixed
  | res
  | old
  | reader
  deriving DecidableEq, Repr

/-- The EPDSEQ command set, version 1 (R123). -/
inductive Instr where
  /-- `NOP` (R165). -/
  | nop
  /-- `PWR_ON` (R166). -/
  | pwrOn
  /-- `PWR_OFF` (R167). -/
  | pwrOff
  /-- `SET_TEMP` (R168): TEMP, two's complement degrees Celsius. -/
  | setTemp (temp : BitVec 8)
  /-- `SAMPLE_TEMP` (R169). -/
  | sampleTemp
  /-- `REFRESH_ONCE` (R170). -/
  | refreshOnce (stage : Stage) (src : Src) (fill : Byte)
  /-- `REFRESH_REPEAT` (R171). -/
  | refreshRepeat (stage : Stage) (src : Src) (fill : Byte)
  /-- `DRV_CLEAR` (R172). -/
  | drvClear (fill : Byte)
  /-- `SHOW_IMAGE` (R173): NEWSRC, OLDSRC, HAS_OLD and FILL. -/
  | showImage (newSrc oldSrc : Src) (hasOld : Bool) (fill : Byte)
  /-- `SEL_SEG` (R205). -/
  | selSeg (index : BitVec 16)
  /-- `SET_PIXEL` (R206): COLOR (true is black), X and Y in two's complement. -/
  | setPixel (black : Bool) (x y : BitVec 12)
  /-- `DISPLAY` (R207): CLEAR_FIRST, DO_PWR_ON and DO_PWR_OFF. -/
  | display (clearFirst doPwrOn doPwrOff : Bool)
  /-- `FB_CLEAR` (R208). -/
  | fbClear
  deriving DecidableEq, Repr

end Sys2Proof
end

