-- ==== Sys2Proof/WellFormed.lean ====
section
/-! DEFINITION. Which commands are well formed: every field of `Instr` has the width of its bit field,
so one check is left, the reserved `SHOW_IMAGE` form of R115 and R125. -/

namespace Sys2Proof

/-- "When `HAS_OLD = 0`, `OLDSRC` must be `00`" (R115, R125). -/
def showImageFormOk (oldSrc : Src) (hasOld : Bool) : Bool :=
  hasOld || oldSrc == Src.fixed

/-- A command that has a word of its own, not refused by R125. -/
def WellFormed : Instr → Bool
  | .nop => true
  | .pwrOn => true
  | .pwrOff => true
  | .setTemp _ => true
  | .sampleTemp => true
  | .refreshOnce _ _ _ => true
  | .refreshRepeat _ _ _ => true
  | .drvClear _ => true
  | .showImage _ oldSrc hasOld _ => showImageFormOk oldSrc hasOld
  | .selSeg _ => true
  | .setPixel _ _ _ => true
  | .display _ _ _ => true
  | .fbClear => true

end Sys2Proof
end

