-- ==== Sys2Proof/Decode.lean ====
section
/-! DEFINITION. The decoder and, after it, the encoder, both written from 30_encoding.md R110 to R126.
A command is one 32-bit word (R110), so the decoder takes a word; it refuses by name. -/

namespace Sys2Proof

/-- Why a word is illegal (R124, R125). -/
inductive DecodeError where
  /-- OP is `0x0D` to `0x1F` (R124). -/
  | reservedOpcode
  /-- A reserved bit of the format is 1 (R125). -/
  | reservedBits
  /-- `SHOW_IMAGE` with `HAS_OLD = 0` and `OLDSRC != 00` (R125). -/
  | reservedForm
  deriving DecidableEq, Repr

/-- What the decoder answers for a word. -/
inductive Decoded where
  | command (i : Instr)
  | illegal (e : DecodeError)
  deriving DecidableEq, Repr

/-- The command formats (R111). -/
inductive Format where
  | n
  | r
  | c
  | s
  | t
  | g
  | p
  | d
  deriving DecidableEq, Repr

/-- `w[lo+len-1:lo]` (R11). -/
def field (w : Word) (lo len : Nat) : BitVec len := w.extractLsb' lo len

/-- `w[i]` as a truth value (R11). -/
def bit (w : Word) (i : Nat) : Bool := w.getLsbD i

/-- The STAGE codes (R120). -/
def stageOfBits (b : BitVec 2) : Stage :=
  match b.toNat with
  | 0 => .compensate
  | 1 => .white
  | 2 => .inverse
  | _ => .normal

/-- The STAGE codes (R120). -/
def stageBits : Stage → BitVec 2
  | .compensate => 0
  | .white => 1
  | .inverse => 2
  | .normal => 3

/-- The SRC, NEWSRC and OLDSRC codes (R121). -/
def srcOfBits (b : BitVec 2) : Src :=
  match b.toNat with
  | 0 => .fixed
  | 1 => .res
  | 2 => .old
  | _ => .reader

/-- The SRC, NEWSRC and OLDSRC codes (R121). -/
def srcBits : Src → BitVec 2
  | .fixed => 0
  | .res => 1
  | .old => 2
  | .reader => 3

/-- The format is a function of OP alone (R110, R123); none for a reserved OP (R124). -/
def formatOf (op : BitVec 5) : Option Format :=
  match op.toNat with
  | 0x00 => some .n
  | 0x01 => some .n
  | 0x02 => some .n
  | 0x03 => some .t
  | 0x04 => some .n
  | 0x05 => some .r
  | 0x06 => some .r
  | 0x07 => some .c
  | 0x08 => some .s
  | 0x09 => some .g
  | 0x0A => some .p
  | 0x0B => some .d
  | 0x0C => some .n
  | _ => none

/-- The reserved-bit mask of each format (R112 to R119). For format N, R112 gives the mask of all the
bits that are compared, OP among them; its reserved bits are `[31:5]`. -/
def reservedMask : Format → Word
  | .n => 0xFFFFFFE0
  | .r => 0xFF00FE00
  | .c => 0xFF00FFE0
  | .s => 0xFF00F060
  | .t => 0xFF00FFE0
  | .g => 0x0000FFE0
  | .p => 0x000000C0
  | .d => 0xFFFFFF00

/-- The command that a word with clean reserved bits stands for (R111, R122, R123). -/
def readFields (w : Word) : Instr :=
  match (field w 0 5).toNat with
  | 0x00 => .nop
  | 0x01 => .pwrOn
  | 0x02 => .pwrOff
  | 0x03 => .setTemp (field w 16 8)
  | 0x04 => .sampleTemp
  | 0x05 => .refreshOnce (stageOfBits (field w 5 2)) (srcOfBits (field w 7 2)) (field w 16 8)
  | 0x06 => .refreshRepeat (stageOfBits (field w 5 2)) (srcOfBits (field w 7 2)) (field w 16 8)
  | 0x07 => .drvClear (field w 16 8)
  | 0x08 => .showImage (srcOfBits (field w 7 2)) (srcOfBits (field w 9 2)) (bit w 11) (field w 16 8)
  | 0x09 => .selSeg (field w 16 16)
  | 0x0A => .setPixel (bit w 5) (field w 8 12) (field w 20 12)
  | 0x0B => .display (bit w 5) (bit w 6) (bit w 7)
  | _ => .fbClear

/-- Steps 1 and 2 of the common decode (R238): first the opcode, then the reserved bits and the
reserved `SHOW_IMAGE` form. -/
def decode (w : Word) : Decoded :=
  match formatOf (field w 0 5) with
  | none => .illegal .reservedOpcode
  | some f =>
    if w &&& reservedMask f ≠ 0 then .illegal .reservedBits
    else if WellFormed (readFields w) then .command (readFields w)
    else .illegal .reservedForm

/-- The instruction the decoder reads from a table word (bit 0 the least significant bit; every bit
above `nbits` is 0). A command is one word that the host writes whole, so no byte order enters (R89). -/
def decodeTableWord (nbits w : Nat) : Option Instr :=
  match decode (BitVec.ofNat 32 (w % 2 ^ nbits)) with
  | .command i => some i
  | .illegal _ => none

/-! ### The encoder (R111 to R119, R123, R128) -/

/-- Format N: `[4:0] OP` (R112). -/
def wordN (op : BitVec 5) : Word := 0#27 ++ op

/-- Format R: OP, STAGE, SRC, FILL (R113). -/
def wordR (op : BitVec 5) (stage : Stage) (src : Src) (fill : Byte) : Word :=
  0#8 ++ fill ++ 0#7 ++ srcBits src ++ stageBits stage ++ op

/-- Formats C and T: OP and a byte in `[23:16]` (R114, R116). -/
def wordC (op : BitVec 5) (b : Byte) : Word := 0#8 ++ b ++ 0#11 ++ op

/-- Format S: OP, NEWSRC, OLDSRC, HAS_OLD, FILL (R115). -/
def wordS (op : BitVec 5) (newSrc oldSrc : Src) (hasOld : Bool) (fill : Byte) : Word :=
  0#8 ++ fill ++ 0#4 ++ BitVec.ofBool hasOld ++ srcBits oldSrc ++ srcBits newSrc ++ 0#2 ++ op

/-- Format G: OP and INDEX (R117). -/
def wordG (op : BitVec 5) (index : BitVec 16) : Word := index ++ 0#11 ++ op

/-- Format P: OP, COLOR, X, Y (R118). -/
def wordP (op : BitVec 5) (black : Bool) (x y : BitVec 12) : Word :=
  y ++ x ++ 0#2 ++ BitVec.ofBool black ++ op

/-- Format D: OP, CLEAR_FIRST, DO_PWR_ON, DO_PWR_OFF (R119). -/
def wordD (op : BitVec 5) (clearFirst doPwrOn doPwrOff : Bool) : Word :=
  0#24 ++ BitVec.ofBool doPwrOff ++ BitVec.ofBool doPwrOn ++ BitVec.ofBool clearFirst ++ op

/-- The word of a command (R123, R128). An ill-formed `showImage` has the word R125 refuses. -/
def encode : Instr → Word
  | .nop => wordN 0x00
  | .pwrOn => wordN 0x01
  | .pwrOff => wordN 0x02
  | .setTemp temp => wordC 0x03 temp
  | .sampleTemp => wordN 0x04
  | .refreshOnce stage src fill => wordR 0x05 stage src fill
  | .refreshRepeat stage src fill => wordR 0x06 stage src fill
  | .drvClear fill => wordC 0x07 fill
  | .showImage newSrc oldSrc hasOld fill => wordS 0x08 newSrc oldSrc hasOld fill
  | .selSeg index => wordG 0x09 index
  | .setPixel black x y => wordP 0x0A black x y
  | .display clearFirst doPwrOn doPwrOff => wordD 0x0B clearFirst doPwrOn doPwrOff
  | .fbClear => wordN 0x0C

end Sys2Proof
end

