-- ==== Sys2Proof/Config.lean ====
section
/-! DEFINITION. What is fixed when a block is built (00_scope.md R3, R8; 10_state.md R60), as one plain
record, and the model's free values: opaque constants of which nothing can be proved.
The values of the spec's test configurations and of its default tables are in Machine/Params.lean. -/

namespace Sys2Proof

/-- The compensation mode (R3). -/
inductive CompMode where
  | alwaysClear
  | dualBuffer
  deriving DecidableEq, Repr

/-- The temperature source (R3). -/
inductive TempSrc where
  | fixed
  | sensor
  deriving DecidableEq, Repr

/-- The output pins (R32, R33). -/
inductive Pin where
  | panelOn
  | border
  | discharge
  | pwm
  | reset
  | cs
  deriving DecidableEq, Repr

/-- An action of a power sequence (R160). -/
inductive PowerAction where
  /-- `PIN(p, v)`. -/
  | pin (p : Pin) (v : Bool)
  /-- `SLEEP(n)`, in milliseconds. -/
  | sleep (n : Nat)
  /-- `XFER(bs)`. -/
  | xfer (bs : List Byte)
  /-- `WAITBUSY`. -/
  | waitBusy
  deriving DecidableEq, Repr

/-- The two drive codes of one stage, for a black (1) and for a white (0) source bit (R141). -/
structure CodePair where
  black : BitVec 2
  white : BitVec 2
  deriving DecidableEq, Repr

/-- `STAGE_CODE`, the map from a stage and a source bit to a 2-bit drive code (R8, R141). -/
structure StageCode where
  compensate : CodePair
  white : CodePair
  inverse : CodePair
  normal : CodePair
  deriving DecidableEq, Repr

/-- `TEMP_TABLE` (R146): entries (threshold, factor) and the top factor. -/
structure TempTable where
  entries : List (Int × Nat)
  top : Nat
  deriving DecidableEq, Repr

/-- The parameters of R8. They are a part of `State` that nothing writes (R60). Their widths are log
entry 10. -/
structure Params where
  rows : Nat
  columns : Nat
  /-- `BPR`. -/
  bpr : Nat
  /-- `BPS`. -/
  bps : Nat
  gateSource : List Byte
  channelSelect : List Byte
  rowPrefix : List Byte
  /-- `SEG_HEIGHT`, H. -/
  segHeight : Nat
  compMode : CompMode
  tempSrc : TempSrc
  fixedTemp : BitVec 8
  stageTimeMs : Word
  tempTable : TempTable
  stageCode : StageCode
  busyTimeoutMs : Word
  powerOnSeq : List PowerAction
  powerOffSeq : List PowerAction
  clkPerMs : Nat
  deriving DecidableEq, Repr

namespace Config

/-- FREE VALUE: a sample of `busy_in` (R155, U9) once the queue of answers is empty; log entry 3. -/
opaque freeBusyIn : Nat → Bool

/-- FREE VALUE: a sample of `tx_ready` (R251, U12) once the queue of answers is empty; log entry 3. -/
opaque freeTxReady : Nat → Bool

/-- FREE VALUE: a sample of `rd_req_ready` (R253, U11) once the queue of answers is empty; log entry 3. -/
opaque freeRdReqReady : Nat → Bool

/-- FREE VALUE: a sample of `rd_data_valid` and `rd_data` (R253, U10, U11) once the queue of answers is
empty; log entry 3. -/
opaque freeRdData : Nat → Option Byte

/-- FREE VALUE: a sample of `temp_in` (R254, U13) once the queue of answers is empty; log entry 3. -/
opaque freeTempIn : Nat → BitVec 8

/-- FREE VALUE: by how many milliseconds `ms` advanced since it was last read (R245, U14) once the queue
of answers is empty; log entry 3. -/
opaque freeElapsed : Nat → Word

/-- FREE VALUE: `ROWS div H` for `H = 0`, which the spec does not state (R44); log entry 9. -/
opaque freeSegCount : Nat → Nat

end Config

end Sys2Proof
end

