-- ==== Sys2Proof/Machine/Params.lean ====
section
/-! DEFINITION. What the rules compute from the parameters (segment count, temperature factor, stage
duration, `CFG_OK`, drive codes), the default tables the spec offers, and its test configurations. -/

namespace Sys2Proof.Machine

open Sys2Proof

/-- `SEG_COUNT = ROWS div H` (R8, R44). For `H = 0` the spec states no value: a free value (log entry 9). -/
def segCount (p : Params) : Nat :=
  if p.segHeight = 0 then Config.freeSegCount p.rows else p.rows / p.segHeight

/-- The size of `RES` in bytes (R55). -/
def resSize (p : Params) : Nat := p.bpr * p.segHeight

/-- The size of `OLD` in bytes (R56): it exists only in `DUAL_BUFFER`. -/
def oldSize (p : Params) : Nat :=
  match p.compMode with
  | .alwaysClear => 0
  | .dualBuffer => p.bpr * p.rows

/-- The lookup loop of R146: the factor of the first threshold that t does not exceed. -/
def lookupFactor (t : Int) (top : Nat) : List (Int × Nat) → Nat
  | [] => top
  | (thr, f) :: rest => if t ≤ thr then f else lookupFactor t top rest

/-- `Factor(t)` (R146). -/
def tempFactor (p : Params) (t : BitVec 8) : Nat :=
  lookupFactor t.toInt p.tempTable.top p.tempTable.entries

/-- `(STAGE_TIME_MS * factor) div 10`: the exact product, then floor division (R144). -/
def stageDuration (p : Params) (factor : Nat) : Nat := p.stageTimeMs.toNat * factor / 10

/-- Thresholds strictly increasing (R146). -/
def strictlyRising : List (Int × Nat) → Bool
  | [] => true
  | [_] => true
  | a :: b :: rest => decide (a.1 < b.1) && strictlyRising (b :: rest)

/-- `fmax` of R39 (h): the largest factor of the table, its top factor among them (DEDUCED, log entry 11). -/
def largestFactor (t : TempTable) : Nat := t.entries.foldl (fun m e => max m e.2) t.top

/-- R39 (g): the conditions on `TEMP_TABLE`. -/
def tempTableOk (p : Params) : Bool :=
  !p.tempTable.entries.isEmpty && strictlyRising p.tempTable.entries
    && decide (largestFactor p.tempTable ≤ 65535) && tempFactor p 25 == 10

/-- The conditions (a) to (j) of R39, in its order. -/
abbrev ConfigValid (p : Params) : Prop :=
  (8 ≤ p.columns ∧ p.columns ≤ 2047 ∧ p.columns % 8 = 0) ∧
  p.bpr = p.columns / 8 ∧
  (1 ≤ p.rows ∧ p.rows ≤ 2047) ∧
  (1 ≤ p.segHeight ∧ p.rows % p.segHeight = 0) ∧
  (p.rows ≤ 4 * p.bps ∧ p.bps ≤ 65535) ∧
  (p.compMode = .dualBuffer → p.segHeight = p.rows) ∧
  tempTableOk p = true ∧
  stageDuration p (largestFactor p.tempTable) ≤ 2 ^ 32 - 1 ∧
  (1 ≤ p.busyTimeoutMs.toNat ∧ 1 ≤ p.clkPerMs) ∧
  (p.gateSource.length ≤ 255 ∧ p.channelSelect.length ≤ 255 ∧ p.rowPrefix.length ≤ 255)

/-- `CFG_OK` (R39, R273): a constant of the configuration. -/
def cfgOk (p : Params) : Bool := decide (ConfigValid p)

/-- `STAGE_CODE(stage, bit)` (R141). -/
def driveCode (c : StageCode) (stage : Stage) (black : Bool) : BitVec 2 :=
  let pair := match stage with
    | .compensate => c.compensate
    | .white => c.white
    | .inverse => c.inverse
    | .normal => c.normal
  if black then pair.black else pair.white

/-! ### Default tables (the spec marks them as general knowledge: PRESUMED, log entry 18; no rule depends on
them) -/

/-- Drive black, `DB` (R141). -/
def driveBlack : BitVec 2 := 0b11#2

/-- Drive white, `DW` (R141). -/
def driveWhite : BitVec 2 := 0b10#2

/-- No drive, `DN` (R141). -/
def driveNone : BitVec 2 := 0b01#2

/-- The default `STAGE_CODE` (R142). -/
def defaultStageCode : StageCode where
  compensate := ⟨driveWhite, driveBlack⟩
  white := ⟨driveWhite, driveWhite⟩
  inverse := ⟨driveWhite, driveBlack⟩
  normal := ⟨driveBlack, driveWhite⟩

/-- The table remembered from the original repository (O1 of 93_implementation_defined.md): another
value of the parameter, with `DN` in the WHITE and INVERSE rows. -/
def originalStageCode : StageCode where
  compensate := ⟨driveWhite, driveBlack⟩
  white := ⟨driveNone, driveWhite⟩
  inverse := ⟨driveNone, driveBlack⟩
  normal := ⟨driveBlack, driveWhite⟩

/-- The default `TEMP_TABLE` (R146). -/
def defaultTempTable : TempTable where
  entries := [(-10, 170), (-5, 120), (5, 80), (10, 40), (15, 30), (20, 20), (40, 10)]
  top := 7

/-- An `XFER` of a register index and one of its data (R163). -/
def registerWrite (index : Byte) (data : List Byte) : List PowerAction :=
  [.xfer [0x70, index], .xfer data]

/-- The default `POWER_ON_SEQ` (R163), with the parameter tables it sends. -/
def defaultPowerOn (channelSelect gateSource : List Byte) : List PowerAction :=
  [.pin .reset false, .pin .panelOn false, .pin .discharge false, .pin .border false, .pin .cs false]
  ++ [.pin .pwm true, .sleep 5]
  ++ [.pin .panelOn true, .sleep 10]
  ++ [.pin .reset true, .pin .border true, .pin .cs true, .sleep 5]
  ++ [.pin .reset false, .sleep 5]
  ++ [.pin .reset true, .sleep 5]
  ++ [.waitBusy]
  ++ registerWrite 0x01 channelSelect
  ++ registerWrite 0x06 [0x72, 0xFF]
  ++ registerWrite 0x07 [0x72, 0x9D]
  ++ registerWrite 0x08 [0x72, 0x00]
  ++ registerWrite 0x09 [0x72, 0xD0, 0x00]
  ++ registerWrite 0x04 gateSource ++ [.sleep 5]
  ++ registerWrite 0x03 [0x72, 0x01] ++ registerWrite 0x03 [0x72, 0x00] ++ [.sleep 5]
  ++ registerWrite 0x05 [0x72, 0x01] ++ [.sleep 30, .pin .pwm false]
  ++ registerWrite 0x05 [0x72, 0x03] ++ [.sleep 30]
  ++ registerWrite 0x05 [0x72, 0x0F] ++ [.sleep 30]
  ++ registerWrite 0x02 [0x72, 0x24]

/-- The default `POWER_OFF_SEQ` (R163). -/
def defaultPowerOff : List PowerAction :=
  registerWrite 0x03 [0x72, 0x01]
  ++ registerWrite 0x02 [0x72, 0x05]
  ++ registerWrite 0x05 [0x72, 0x0E]
  ++ registerWrite 0x05 [0x72, 0x02]
  ++ registerWrite 0x04 [0x72, 0x0C] ++ [.sleep 120]
  ++ registerWrite 0x05 [0x72, 0x00]
  ++ registerWrite 0x07 [0x72, 0x0D]
  ++ registerWrite 0x04 [0x72, 0x50] ++ [.sleep 40]
  ++ registerWrite 0x04 [0x72, 0xA0] ++ [.sleep 40]
  ++ registerWrite 0x04 [0x72, 0x00]
  ++ [.pin .reset false, .pin .panelOn false, .pin .border false, .pin .cs false]
  ++ [.pin .discharge true, .sleep 150, .pin .discharge false]

/-- What a panel instance of R10 fixes. -/
structure Panel where
  rows : Nat
  columns : Nat
  bpr : Nat
  bps : Nat
  gateSource : List Byte
  channelSelect : List Byte
  stageTimeMs : Word
  deriving DecidableEq, Repr

/-- `EPD_1_44` (R10). -/
def epd144 : Panel where
  rows := 96
  columns := 128
  bpr := 16
  bps := 24
  gateSource := [0x72, 0x03]
  channelSelect := [0x72, 0x00, 0x00, 0x00, 0x00, 0x00, 0x0F, 0xFF, 0x00]
  stageTimeMs := 480

/-- `EPD_2_0` (R10). -/
def epd20 : Panel where
  rows := 96
  columns := 200
  bpr := 25
  bps := 24
  gateSource := [0x72, 0x03]
  channelSelect := [0x72, 0x00, 0x00, 0x00, 0x00, 0x01, 0xFF, 0xE0, 0x00]
  stageTimeMs := 480

/-- `EPD_2_7` (R10). -/
def epd27 : Panel where
  rows := 176
  columns := 264
  bpr := 33
  bps := 44
  gateSource := [0x72, 0x00]
  channelSelect := [0x72, 0x00, 0x00, 0x00, 0x7F, 0xFF, 0xFE, 0x00, 0x00]
  stageTimeMs := 630

/-- The parameters of a block for a panel of R10 with the default tables; the rest has no default. -/
def panelParams (panel : Panel) (segHeight : Nat) (compMode : CompMode) (tempSrc : TempSrc)
    (busyTimeoutMs : Word) (clkPerMs : Nat) : Params where
  rows := panel.rows
  columns := panel.columns
  bpr := panel.bpr
  bps := panel.bps
  gateSource := panel.gateSource
  channelSelect := panel.channelSelect
  rowPrefix := []
  segHeight := segHeight
  compMode := compMode
  tempSrc := tempSrc
  fixedTemp := 25
  stageTimeMs := panel.stageTimeMs
  tempTable := defaultTempTable
  stageCode := defaultStageCode
  busyTimeoutMs := busyTimeoutMs
  powerOnSeq := defaultPowerOn panel.channelSelect panel.gateSource
  powerOffSeq := defaultPowerOff
  clkPerMs := clkPerMs

/-- The test configuration `TC` of 95_test_vectors.md. -/
def paramsTC : Params where
  rows := 8
  columns := 16
  bpr := 2
  bps := 2
  gateSource := [0x72, 0x03]
  channelSelect := [0x72, 0x00, 0x0F]
  rowPrefix := []
  segHeight := 4
  compMode := .alwaysClear
  tempSrc := .fixed
  fixedTemp := 25
  stageTimeMs := 100
  tempTable := defaultTempTable
  stageCode := defaultStageCode
  busyTimeoutMs := 50
  powerOnSeq := [.pin .panelOn true, .sleep 10, .pin .cs true, .waitBusy]
  powerOffSeq := [.pin .panelOn false, .pin .cs false]
  clkPerMs := 1000

/-- The test configuration `TC2` of 95_test_vectors.md: `TC` unsegmented, with the old-image buffer. -/
def paramsTC2 : Params := { paramsTC with segHeight := 8, compMode := .dualBuffer }

/-- The block whose reset state is `State.reset`. The spec leaves every parameter to the builder of a
block; DESIGN CHOICE, log entry 1: the one complete configuration the spec writes out. No statement
rests on it except those that name `State.reset`. -/
def builtParams : Params := paramsTC

end Sys2Proof.Machine
end

