-- ==== Sys2Proof/Machine/State.lean ====
section
/-! DEFINITION. The state of the block: everything 10_state.md gives the machine, as plain data, its
reset, and the reasons a step can stop. The inputs of the world outside (the host's coming accesses and
the collaborators' coming answers) are the field `inputs`; it is the model's own (log entries 2, 3, 17). -/

namespace Sys2Proof.Machine

open Sys2Proof

/-- The error codes (R230). Codes 6 to 15 are never produced (U5). -/
inductive Code where
  | ok
  | invalidConfig
  | deviceTimeout
  | outOfBoundsPixel
  | illegalCmd
  | illegalState
  deriving DecidableEq, Repr

/-- The power state `pwr` (R50). -/
inductive Pwr where
  | off
  | on
  | fault
  deriving DecidableEq, Repr

/-- The outcome of a busy poll (R155). -/
inductive PollResult where
  | ok
  | timeout
  deriving DecidableEq, Repr

/-- The events of the trace (R59). A reader request is recorded when the reader takes it (log entry 21). -/
inductive Event where
  | cmd (w : Word)
  | done (code : Code)
  | tx (b : Byte)
  | pin (p : Pin) (v : Bool)
  | sleep (n : Nat)
  | busy (r : PollResult)
  | rdReq (addr : Word) (len : Nat)
  | rdData (bytes : List Byte)
  | tempSample (t : BitVec 8)
  deriving DecidableEq, Repr

/-- The levels of the output pins (R33); true is 1. -/
structure Pins where
  panelOn : Bool
  border : Bool
  discharge : Bool
  pwm : Bool
  reset : Bool
  cs : Bool
  deriving DecidableEq, Repr

/-- A source descriptor `(src, fill, base)` (R147). -/
structure SrcDesc where
  src : Src
  fill : Byte
  base : Word
  deriving DecidableEq, Repr

/-- One micro-operation of the sequencer: a line of the pseudocode of 40_stage_driver.md or
41_framebuffer.md that is still to run (DEDUCED, log entry 5). The stage, the row, the pass count and the
bytes left of a row frame stand in its arguments, so a list of them is the position of R58. -/
inductive Micro where
  /-- `temp_c`, `factor` and `duration` from a given temperature (R168). -/
  | loadTemp (t : BitVec 8)
  /-- Take the temperature from the configured source (R169). -/
  | sampleTemp
  /-- `seg <- i`, then clear `RES` (R205). -/
  | selectSegment (i : BitVec 16)
  /-- Set or clear the bits of `mask` in a byte of `RES` (R206). -/
  | paint (byteIx : Nat) (mask : Byte) (black : Bool)
  /-- `PowerOn()` (R161). -/
  | powerOn
  /-- `PowerOff()` (R162). -/
  | powerOff
  /-- `pwr <- v`, at the end of a power sequence (R161, R162). -/
  | setPwr (v : Pwr)
  /-- `Perform(a)` (R160); `fatal` says that a busy timeout raises `DEVICE_TIMEOUT` (R161), as opposed
  to being ignored (R162). -/
  | perform (a : PowerAction) (fatal : Bool)
  /-- The wait of a `SLEEP(n)` that began at `t0` (R160). -/
  | sleeping (t0 : Word) (n : Nat)
  /-- `SetPin(p, v)` (R13). -/
  | setPin (p : Pin) (v : Bool)
  /-- `Tx` of each byte in turn (R13, R251). -/
  | send (bytes : List Byte)
  /-- The start of a `BusyPoll()` (R155). -/
  | pollStart (fatal : Bool)
  /-- The loop of a `BusyPoll()` that began at `t0` (R155). -/
  | polling (t0 : Word) (fatal : Bool)
  /-- `PASSES <- 1` (R170). -/
  | setPasses
  /-- `RefreshStage` (R157). -/
  | stage (st : Stage) (sd : SrcDesc) (first count : Nat)
  /-- The head of the stage loop, with `D` and `n` (R157). -/
  | passStart (st : Stage) (sd : SrcDesc) (first count : Nat) (dur : Word) (n : Nat)
  /-- The foot of the stage loop, with `D`, `n` and `t0` (R157). -/
  | passEnd (st : Stage) (sd : SrcDesc) (first count : Nat) (dur : Word) (n : Nat) (t0 : Word)
  /-- `RefreshPass` (R156). -/
  | pass (st : Stage) (sd : SrcDesc) (first count : Nat)
  /-- The row loop of a pass: the next row `r`, its source row `k`, and how many rows are left (R156). -/
  | rows (st : Stage) (sd : SrcDesc) (r k left : Nat)
  /-- `RowTx(stage, sd, r, k)` (R152). -/
  | row (st : Stage) (sd : SrcDesc) (r k : Nat)
  /-- A reader request for row `r` that waits for `rd_req_ready` (R253). -/
  | request (st : Stage) (r : Nat) (addr : Word)
  /-- The answer to it: the bytes taken so far, and how many are to come (R253). -/
  | collect (st : Stage) (r : Nat) (got : List Byte) (left : Nat)
  /-- `RES[j] <- 0x00` for every j (R208). -/
  | clearRes
  /-- `OLD[j] <- 0x00` for every j (R208). -/
  | clearOld
  /-- `OLD <- RES` (R209). -/
  | copyOld
  deriving DecidableEq, Repr

/-- The sequencer's position inside a command (R58); empty between commands. -/
structure Seq where
  /-- What is left to run. -/
  todo : List Micro
  /-- The code the command will complete with: that of the error raised, or `OK` (R236, R237). -/
  code : Code
  /-- What runs after a `DEVICE_TIMEOUT`: the `catch` of `DISPLAY` (R207); empty for all others. -/
  onTimeout : List Micro
  deriving DecidableEq, Repr

/-- The copies latched at launch (R57). -/
structure Latched where
  cmd : Word
  first : BitVec 16
  count : BitVec 16
  rdbase : Word
  rdold : Word
  deriving DecidableEq, Repr

/-- One thing that reaches the block from outside between sequencer ticks. A read and a write in one
cycle is no move (R255, U8; log entry 16). -/
inductive Access where
  /-- A host register write (R255). -/
  | write (addr : BitVec 8) (data : Word)
  /-- A host register read (R255). -/
  | read (addr : BitVec 8)
  /-- `rst_n` is driven to a level: false asserts reset, true releases it (R270). -/
  | rstN (level : Bool)
  deriving DecidableEq, Repr

/-- An access and the number of sequencer ticks that pass after it, before the next one. -/
structure Move where
  access : Access
  gap : Nat
  deriving DecidableEq, Repr

/-- A glyph of the host's font: `GW` columns, `GH` rows, its bits row by row (41_framebuffer.md R215). -/
structure Glyph where
  gw : Nat
  gh : Nat
  rows : List (List Bool)
  deriving DecidableEq, Repr

/-- One operation of the host's program (30_encoding.md R130, R131). A command line, `range`, `rdbase`,
`rdold` and `frame_update` expand to these before the program runs; `draw_char` expands when the host comes
to it, since its pixels depend on `SEGMENT` (R215). -/
inductive HostOp where
  /-- `wr <REG>, <value>`. -/
  | wr (addr : BitVec 8) (data : Word)
  /-- `rd <REG>`. -/
  | rd (addr : BitVec 8)
  /-- `wait`: reads `STATUS` repeatedly until `STATUS.BUSY = 0`. -/
  | wait
  /-- `draw_char <x>, <y>, <glyph>, <fg>, <bg>, <scale>`; true is black. -/
  | drawChar (x y : Int) (g : Glyph) (fg bg : Bool) (scale : Nat)
  /-- The host counts a pixel that cannot be encoded as `OUT_OF_BOUNDS_PIXEL`, and issues nothing (R215). -/
  | countPixel
  deriving DecidableEq, Repr

/-- A line of the host's program, and the sequencer ticks that pass each time the host comes to it, after
the access if it makes one (log entry 22). -/
structure HostLine where
  op : HostOp
  gap : Nat
  deriving DecidableEq, Repr

/-- The inputs (the model's own, log entries 2, 3, 17 and 22): what the host will do, and what each
collaborator port will show when it is next sampled. -/
structure Inputs where
  /-- The level of `rst_n` (R32); reset is asserted while it is false (R270). -/
  rstN : Bool
  /-- The single accesses and resets still to come; they go before the program. -/
  moves : List Move
  /-- The rest of the host's program (R30, R131). -/
  program : List HostLine
  /-- The pixels that the host has counted as `OUT_OF_BOUNDS_PIXEL` itself (R215). -/
  outOfBounds : Nat
  /-- The ticks that follow the access now being performed. -/
  gap : Nat
  /-- Samples of `busy_in`; true means busy (R155). -/
  busyIn : List Bool
  /-- Samples of `tx_ready` (R251). -/
  txReady : List Bool
  /-- Samples of `rd_req_ready` (R253). -/
  rdReqReady : List Bool
  /-- Samples of the reader's data port: none is `rd_data_valid = 0` (R253). -/
  rdData : List (Option Byte)
  /-- Samples of `temp_in` (R254). -/
  tempIn : List (BitVec 8)
  /-- The milliseconds that pass before each `Now()` (R245). -/
  elapsed : List Word
  /-- How many free values have been taken. -/
  draws : Nat
  deriving DecidableEq, Repr

/-- The state of the block. -/
structure State where
  /-- The read-only store of R60. -/
  params : Params
  /-- `RANGE` (R36). -/
  range : Word
  /-- `RDBASE` (R37). -/
  rdbase : Word
  /-- `RDOLD` (R38). -/
  rdold : Word
  /-- `reg_rdata`, the value of the last host read (R32, R255). -/
  rdata : Word
  /-- `busy` (R57), shown as `STATUS.BUSY`. -/
  busy : Bool
  /-- `STATUS.DONE` (R40). -/
  done : Bool
  /-- `STATUS.ERR` (R40). -/
  err : Bool
  /-- `STATUS.OVERRUN` (R40). -/
  overrun : Bool
  /-- `STATUS.ERRCODE` (R40). -/
  errcode : Code
  /-- `STATUS.STAGE` (R40). -/
  stage : Stage
  /-- `PASSES` (R45). -/
  passes : Word
  /-- `pwr` (R50), shown as `STATUS.PWR`. -/
  pwr : Pwr
  /-- `seg` (R51). -/
  seg : BitVec 16
  /-- `temp_c` (R52). -/
  tempC : BitVec 8
  /-- `factor` (R53). -/
  factor : BitVec 16
  /-- `duration` (R54). -/
  duration : Word
  /-- `RES` (R55): the bytes that are not `0x00`, by index (log entry 14). -/
  res : List Host.Cell
  /-- `OLD` (R56): the bytes that are not `0x00`, by index. -/
  old : List Host.Cell
  /-- The latched copies (R57). -/
  lat : Latched
  /-- The sequencer's position (R58). -/
  seq : Seq
  /-- `acc`, the elapsed-time accumulator of a stage (R157, R246). -/
  acc : Word
  /-- The output pins (R33). -/
  pins : Pins
  /-- `tx_valid` with `tx_data` (R251): the byte that waits for the transport (log entry 15). -/
  tx : Option Byte
  /-- `rd_req_valid` with `rd_req_addr` and `rd_req_len` (R253): the request that waits for the reader. -/
  rd : Option (Word × BitVec 16)
  /-- `ms` (R61). -/
  ms : Word
  /-- The event trace (R59), oldest first. -/
  trace : List Event
  /-- The world outside. -/
  inputs : Inputs
  deriving DecidableEq, Repr

/-- Why a run stops. The block's own errors are no faults: they complete a command with a code (R236). -/
inductive Fault where
  /-- `RES` (false) or `OLD` (true) was indexed at a place the buffer does not have (R80). Raised by
  the byte accesses of Machine/Ops.lean. SAFE: the model stops; no state that meets `Inv` gets there. -/
  | bufferIndexOutside (old : Bool) (index : Nat)
  deriving DecidableEq, Repr

/-- Why an instruction is refused. -/
inductive Refusal where
  /-- The instruction has no meaning yet. Raised by an arm of `exec`, by no arm of this model. SAFE. -/
  | notModelled (mnemonic : String)
  deriving DecidableEq, Repr

/-- The position between commands: empty (R58). -/
def Seq.idle : Seq where
  todo := []
  code := .ok
  onTimeout := []

/-- Every output pin is 0 at reset (R63, R270). -/
def Pins.low : Pins where
  panelOn := false
  border := false
  discharge := false
  pwm := false
  reset := false
  cs := false

/-- The latched copies are 0 at reset (R63). -/
def Latched.zero : Latched where
  cmd := 0
  first := 0
  count := 0
  rdbase := 0
  rdold := 0

/-- `rst_n` is back at 1, and no input is placed: no access and no program to come, no answer prepared (log
entry 17). -/
def Inputs.none : Inputs where
  rstN := true
  moves := []
  program := []
  outOfBounds := 0
  gap := 0
  busyIn := []
  txReady := []
  rdReqReady := []
  rdData := []
  tempIn := []
  elapsed := []
  draws := 0

/-- The state right after reset of a block built with the parameters `p` (R63, R270, R272). The values of
`rdata`, `acc` and the rest of `seq` are log entries 7 and 8, those of `inputs` log entry 17. -/
def State.resetOf (p : Params) : State where
  params := p
  range := 0
  rdbase := 0
  rdold := 0
  rdata := 0
  busy := false
  done := false
  err := false
  overrun := false
  errcode := .ok
  stage := .compensate
  passes := 0
  pwr := .off
  seg := 0
  tempC := 25
  factor := if cfgOk p then BitVec.ofNat 16 (tempFactor p 25) else 0
  duration := if cfgOk p then p.stageTimeMs else 0
  res := []
  old := []
  lat := Latched.zero
  seq := Seq.idle
  acc := 0
  pins := Pins.low
  tx := none
  rd := none
  ms := 0
  trace := []
  inputs := Inputs.none

/-- The machine right after reset: the block of `builtParams` (log entry 1). -/
def State.reset : State := State.resetOf builtParams

end Sys2Proof.Machine
end

