-- ==== Sys2Proof/Machine/Ops.lean ====
section
/-! DEFINITION. The named operations that the meanings share: the buffers' bytes, the event trace, the
pins, the answers of the world outside, the power state, and a command's life: launch, raising an
error, completion (60_exceptions.md R236, R237). -/

namespace Sys2Proof.Machine

open Sys2Proof

/-- What a step or a meaning answers. -/
abbrev Result := Host.Outcome State Fault Refusal

/-- Go on with `f` where `o` is a next state. -/
def andThen (o : Result) (f : State → Result) : Result :=
  match o with
  | .next s => f s
  | .fault r => .fault r
  | .refused r => .refused r

/-! ### The buffers: a byte that is not listed is `0x00`, as after reset (R63) -/

/-- The byte at an index. -/
def memRead (m : List Host.Cell) (a : Nat) : Byte :=
  match m with
  | [] => 0
  | (k, v) :: rest => if k = a then v else memRead rest a

/-- The buffer without an entry for `a`. -/
def memErase (m : List Host.Cell) (a : Nat) : List Host.Cell :=
  match m with
  | [] => []
  | (k, v) :: rest => if k = a then memErase rest a else (k, v) :: memErase rest a

/-- The buffer with an entry put before the first larger index. -/
def memInsert (m : List Host.Cell) (a : Nat) (v : Byte) : List Host.Cell :=
  match m with
  | [] => [(a, v)]
  | (k, x) :: rest => if a < k then (a, v) :: (k, x) :: rest else (k, x) :: memInsert rest a v

/-- Write a byte; `0x00` is what an unlisted index reads as, so writing it leaves no entry. -/
def memWrite (m : List Host.Cell) (a : Nat) (v : Byte) : List Host.Cell :=
  if v = 0 then memErase m a else memInsert (memErase m a) a v

/-- `MemRead(buf, i, n)` (R12). -/
def memBytes (m : List Host.Cell) (i n : Nat) : List Byte :=
  (List.range n).map fun j => memRead m (i + j)

/-- Every index of the buffer is above `lo`, and they strictly rise. -/
def risingFrom (lo : Nat) : List Host.Cell → Bool
  | [] => true
  | (k, _) :: rest => decide (lo ≤ k) && risingFrom (k + 1) rest

/-- No entry holds `0x00`. -/
def noZero (m : List Host.Cell) : Bool := m.all fun c => c.2 != 0

/-- No index reaches the buffer's size. -/
def within (size : Nat) (m : List Host.Cell) : Bool := m.all fun c => decide (c.1 < size)

/-- The canonical form of a buffer of `size` bytes. -/
def Memory.wf (size : Nat) (m : List Host.Cell) : Bool :=
  risingFrom 0 m && noZero m && within size m

/-! ### The trace, the pins and the position -/

/-- `Emit(ev)` (R13). -/
def State.emit (ev : Event) (s : State) : State := { s with trace := s.trace ++ [ev] }

/-- The position with another list of micro-operations left to run. -/
def State.setTodo (ms : List Micro) (s : State) : State :=
  { s with seq := ⟨ms, s.seq.code, s.seq.onTimeout⟩ }

/-- Put micro-operations in front of the position. -/
def State.push (ms : List Micro) (s : State) : State := s.setTodo (ms ++ s.seq.todo)

/-- The pins with one of them at a level. -/
def setLevel (p : Pin) (v : Bool) (pins : Pins) : Pins :=
  match p with
  | .panelOn => { pins with panelOn := v }
  | .border => { pins with border := v }
  | .discharge => { pins with discharge := v }
  | .pwm => { pins with pwm := v }
  | .reset => { pins with reset := v }
  | .cs => { pins with cs := v }

/-- `SetPin(p, v)` (R13, R33). -/
def State.drive (p : Pin) (v : Bool) (s : State) : State :=
  { s.emit (.pin p v) with pins := setLevel p v s.pins }

/-! ### Draws: the next answer of a collaborator port, or a free value if none is queued (log entry 3) -/

/-- A sample of `busy_in` (R155). -/
def sampleBusy (s : State) : Bool × State :=
  match s.inputs.busyIn with
  | b :: rest => (b, { s with inputs := { s.inputs with busyIn := rest } })
  | [] => (Config.freeBusyIn s.inputs.draws, { s with inputs := { s.inputs with draws := s.inputs.draws + 1 } })

/-- A sample of `tx_ready` (R251). -/
def sampleTxReady (s : State) : Bool × State :=
  match s.inputs.txReady with
  | b :: rest => (b, { s with inputs := { s.inputs with txReady := rest } })
  | [] => (Config.freeTxReady s.inputs.draws, { s with inputs := { s.inputs with draws := s.inputs.draws + 1 } })

/-- A sample of `rd_req_ready` (R253). -/
def sampleRdReqReady (s : State) : Bool × State :=
  match s.inputs.rdReqReady with
  | b :: rest => (b, { s with inputs := { s.inputs with rdReqReady := rest } })
  | [] => (Config.freeRdReqReady s.inputs.draws, { s with inputs := { s.inputs with draws := s.inputs.draws + 1 } })

/-- A sample of the reader's data port (R253). -/
def sampleRdData (s : State) : Option Byte × State :=
  match s.inputs.rdData with
  | b :: rest => (b, { s with inputs := { s.inputs with rdData := rest } })
  | [] => (Config.freeRdData s.inputs.draws, { s with inputs := { s.inputs with draws := s.inputs.draws + 1 } })

/-- A sample of `temp_in` (R254). -/
def sampleTempIn (s : State) : BitVec 8 × State :=
  match s.inputs.tempIn with
  | t :: rest => (t, { s with inputs := { s.inputs with tempIn := rest } })
  | [] => (Config.freeTempIn s.inputs.draws, { s with inputs := { s.inputs with draws := s.inputs.draws + 1 } })

/-- How far `ms` has advanced since it was last read (R245 (a)). -/
def sampleElapsed (s : State) : Word × State :=
  match s.inputs.elapsed with
  | d :: rest => (d, { s with inputs := { s.inputs with elapsed := rest } })
  | [] => (Config.freeElapsed s.inputs.draws, { s with inputs := { s.inputs with draws := s.inputs.draws + 1 } })

/-- `Now()` (R13, R245): the counter, which wraps at `2^32`, after it has advanced (DEDUCED, log entry 4). -/
def readNow (s : State) : Word × State :=
  let q := sampleElapsed s
  (s.ms + q.1, { q.2 with ms := s.ms + q.1 })

/-! ### Temperature, power and buffer writes -/

/-- `temp_c`, `factor` and `duration` are written together (R145, R168). -/
def State.loadTemp (t : BitVec 8) (s : State) : State :=
  { s with
    tempC := t
    factor := BitVec.ofNat 16 (tempFactor s.params t)
    duration := BitVec.ofNat 32 (stageDuration s.params (tempFactor s.params t)) }

/-- `pwr <- v` (R50). -/
def State.setPwr (v : Pwr) (s : State) : State := { s with pwr := v }

/-- `MemRead(RES, i, n)`; a place outside `RES` does not exist (R80). -/
def readRes (i n : Nat) (s : State) (f : List Byte → Result) : Result :=
  if i + n ≤ resSize s.params then f (memBytes s.res i n) else .fault (.bufferIndexOutside false (i + n))

/-- `MemRead(OLD, i, n)`; a place outside `OLD` does not exist (R80). -/
def readOld (i n : Nat) (s : State) (f : List Byte → Result) : Result :=
  if i + n ≤ oldSize s.params then f (memBytes s.old i n) else .fault (.bufferIndexOutside true (i + n))

/-- The byte with the bits of `mask` set for black and cleared for white (R206). -/
def paintByte (mask : Byte) (black : Bool) (b : Byte) : Byte :=
  if black then b ||| mask else b &&& ~~~mask

/-- The read-modify-write of one byte of `RES`, one indivisible step (R90, R206). -/
def paintRes (byteIx : Nat) (mask : Byte) (black : Bool) (s : State) : Result :=
  if byteIx < resSize s.params then
    .next { s with res := memWrite s.res byteIx (paintByte mask black (memRead s.res byteIx)) }
  else .fault (.bufferIndexOutside false byteIx)

/-! ### A command's life (R236, R237) -/

/-- The launch of word `w`: `busy <- 1`, `DONE <- 0`, the latched copies, `Emit(Cmd(w))` (R237, R57). -/
def State.launch (w : Word) (s : State) : State :=
  State.emit (.cmd w)
    { s with
      busy := true
      done := false
      lat :=
        { cmd := w
          first := s.range.extractLsb' 0 16
          count := s.range.extractLsb' 16 16
          rdbase := s.rdbase
          rdold := s.rdold }
      seq := Seq.idle }

/-- `raise Error(code)` (R236): nothing more of the command runs, but for the `catch` of `DISPLAY`, which
catches `DEVICE_TIMEOUT` alone (R207). What the command did stays done. -/
def State.raiseError (c : Code) (s : State) : State :=
  { s with
    seq :=
      { todo := if c = .deviceTimeout then s.seq.onTimeout else []
        code := c
        onTimeout := [] } }

/-- Completion (R237): `ERRCODE`, the sticky `ERR`, `Emit(Done(code))`, `busy <- 0`, `DONE <- 1`; the
position is empty again (R58). -/
def State.complete (s : State) : State :=
  State.emit (.done s.seq.code)
    { s with
      errcode := s.seq.code
      err := s.err || s.seq.code != .ok
      busy := false
      done := true
      seq := Seq.idle }

/-- A dropped `CMD` write (R35, R276): it sets `OVERRUN` and does nothing else. -/
def State.dropCommand (s : State) : State := { s with overrun := true }

/-- Reset (R270, R271): every piece of state takes its reset value, a running command is abandoned with
no `Done`, and a new run begins with an empty trace (R289; DEDUCED, log entry 13). The accumulator "is not
reset by anything else" than a stage (R246; log entry 8). The world outside is not reset. -/
def State.applyReset (s : State) : State :=
  { State.resetOf s.params with acc := s.acc, inputs := s.inputs }

/-- `rst_n` is driven to a level (R270): 0 asserts reset, at once and also while a command runs, and every
piece of state holds its reset value from then on; 1 releases it, and the block is idle. -/
def State.driveRst (level : Bool) (s : State) : State :=
  let t := if level then s else s.applyReset
  { t with inputs := { t.inputs with rstN := level } }

end Sys2Proof.Machine
end

