-- ==== Sys2Proof/Machine/Operands.lean ====
section
/-! DEFINITION. Operand forms: the latched range, the source descriptors, the coordinate-to-bit
translator (20_memory.md R92 to R94), and the row frame of the serial pixel stream (40_stage_driver.md
R149 to R151). -/

namespace Sys2Proof.Machine

open Sys2Proof

/-! ### The range and the sources -/

/-- `first`, the latched first row (R57). -/
def State.firstRow (s : State) : Nat := s.lat.first.toNat

/-- `count`, the latched row count (R57). -/
def State.rowCount (s : State) : Nat := s.lat.count.toNat

/-- The source that `SRC` or `NEWSRC` selects, with the base `lat_rdbase` (R121, R170, R173). -/
def State.newSource (src : Src) (fill : Byte) (s : State) : SrcDesc := ⟨src, fill, s.lat.rdbase⟩

/-- The source that `OLDSRC` selects, with the base `lat_rdold` (R121, R173). -/
def State.oldSource (src : Src) (fill : Byte) (s : State) : SrcDesc := ⟨src, fill, s.lat.rdold⟩

/-- `(FIXED, fill, 0)` (R172, R207). -/
def fixedSource (fill : Byte) : SrcDesc := ⟨.fixed, fill, 0⟩

/-- `RESd = (RES, 0, 0)` (R207). -/
def resSource : SrcDesc := ⟨.res, 0, 0⟩

/-- `OLDd = (OLD, 0, 0)` (R207). -/
def oldSource : SrcDesc := ⟨.old, 0, 0⟩

/-- `CheckRange(first, count, src)` passes (R153): the exact sum, with no wrap. -/
def rangeOk (p : Params) (first count : Nat) (src : Src) : Bool :=
  decide (first + count ≤ p.rows)
    && (match src with
        | .fixed => true
        | .res => decide (count ≤ p.segHeight)
        | .old => p.compMode == .dualBuffer && decide (count ≤ p.rows)
        | .reader => true)

/-- The address of source row `k`, modulo `2^32` (R147, R148). -/
def readerAddr (p : Params) (base : Word) (k : Nat) : Word := base + BitVec.ofNat 32 (k * p.bpr)

/-! ### The coordinate-to-bit translator -/

/-- What the translator answers (R92). -/
inductive Place where
  /-- Outside the canvas (R92). -/
  | outOfBounds
  /-- Inside the canvas, outside the segment (R93). -/
  | clipped
  /-- A byte of `RES` and a mask (R94). -/
  | at (byteIx : Nat) (mask : Byte)
  deriving DecidableEq, Repr

/-- The place of an in-segment pixel: byte `(x div 8) + k * BPR`, mask `1 << (x mod 8)` (R94). -/
def pixelPlace (p : Params) (x k : Nat) : Place := .at (x / 8 + k * p.bpr) (1#8 <<< (x % 8))

/-- The canvas check, then the segment clip, then the place (R92, R93, R94). -/
def translate (p : Params) (seg : Nat) (x y : Int) : Place :=
  if x < 0 ∨ (p.columns : Int) ≤ x ∨ y < 0 ∨ (p.rows : Int) ≤ y then .outOfBounds
  else if y < (seg * p.segHeight : Nat) ∨ (seg * p.segHeight + p.segHeight : Nat) ≤ y then .clipped
  else pixelPlace p x.toNat (y.toNat - seg * p.segHeight)

/-! ### The row frame -/

/-- `Pack(stage, s, p3, p2, p1, p0)` (R149). -/
def pack (c : StageCode) (stage : Stage) (s : Byte) (p3 p2 p1 p0 : Nat) : Byte :=
  driveCode c stage (s.getLsbD p3) ++ driveCode c stage (s.getLsbD p2)
    ++ driveCode c stage (s.getLsbD p1) ++ driveCode c stage (s.getLsbD p0)

/-- `EVEN` (R150): the odd bit positions, from the last source byte on. -/
def evenBytes (c : StageCode) (stage : Stage) (src : List Byte) : List Byte :=
  src.reverse.map fun b => pack c stage b 7 5 3 1

/-- `SCAN` (R150): row `r` is slot `r mod 4` of byte `r div 4`. -/
def scanBytes (bps r : Nat) : List Byte :=
  (List.range bps).map fun k => if k = r / 4 then 0xC0#8 >>> (2 * (r % 4)) else 0

/-- `ODD` (R150): the even bit positions, from the first source byte on. -/
def oddBytes (c : StageCode) (stage : Stage) (src : List Byte) : List Byte :=
  src.map fun b => pack c stage b 0 2 4 6

/-- `Payload(stage, r, S)` (R150). -/
def payload (p : Params) (stage : Stage) (r : Nat) (src : List Byte) : List Byte :=
  evenBytes p.stageCode stage src ++ scanBytes p.bps r ++ oddBytes p.stageCode stage src

/-- `RowFrame(stage, r, S)` (R151). -/
def rowFrame (p : Params) (stage : Stage) (r : Nat) (src : List Byte) : List Byte :=
  p.gateSource ++ p.rowPrefix ++ payload p stage r src ++ p.channelSelect

end Sys2Proof.Machine
end

