-- ==== Sys2Proof/Machine/Sequencer.lean ====
section
/-! DEFINITION. The sequencer: what each micro-operation does (40_stage_driver.md R147 to R162), one tick,
and a run of ticks. A micro-operation is called with the rest of the position already in place; one that
has to wait puts itself back, so a collaborator that never answers leaves the block where it is (U11,
U12, U15). -/

namespace Sys2Proof.Machine

open Sys2Proof

/-! ### Temperature and framebuffer micro-operations -/

/-- `SAMPLE_TEMP`'s body (R169): the sensor is sampled once, or the fixed temperature is taken. -/
def doSampleTemp (s : State) : State :=
  match s.params.tempSrc with
  | .sensor =>
    let q := sampleTempIn s
    (q.2.emit (.tempSample q.1)).loadTemp q.1
  | .fixed => s.loadTemp s.params.fixedTemp

/-- `seg <- i; RES[j] <- 0x00` (R205). -/
def doSelectSegment (i : BitVec 16) (s : State) : State := { s with seg := i, res := [] }

/-- `RES[j] <- 0x00` for every j (R208). -/
def doClearRes (s : State) : State := { s with res := [] }

/-- `OLD[j] <- 0x00` for every j (R208). -/
def doClearOld (s : State) : State := { s with old := [] }

/-- `OLD <- RES` (R209). -/
def doCopyOld (s : State) : State := { s with old := s.res }

/-! ### Power sequences and the busy poll -/

/-- `PowerOn()` (R161): the actions, then `pwr <- ON`. -/
def doPowerOn (s : State) : State :=
  s.push (s.params.powerOnSeq.map (fun a => .perform a true) ++ [.setPwr .on])

/-- `PowerOff()` (R162): nothing from `OFF`, else the actions with timeouts ignored, then `pwr <- OFF`. -/
def doPowerOff (s : State) : State :=
  if s.pwr = .off then s
  else s.push (s.params.powerOffSeq.map (fun a => .perform a false) ++ [.setPwr .off])

/-- `Perform(SLEEP(n))` begins (R160, R248). -/
def doSleep (n : Nat) (s : State) : State :=
  let q := readNow (s.emit (.sleep n))
  q.2.push [.sleeping q.1 n]

/-- The wait of `SLEEP(n)`: until `(Now() - t0) mod 2^32 >= n` (R160; DEDUCED for `n >= 2^32`, log entry
12). -/
def doSleeping (t0 : Word) (n : Nat) (s : State) : State :=
  let q := readNow s
  if n ≤ (q.1 - t0).toNat then q.2 else q.2.push [.sleeping t0 n]

/-- `Perform(a)` (R160). -/
def doPerform (a : PowerAction) (fatal : Bool) (s : State) : State :=
  match a with
  | .pin p v => s.drive p v
  | .sleep n => doSleep n s
  | .xfer bs => s.push [.setPin .cs false, .send bs, .setPin .cs true]
  | .waitBusy => s.push [.pollStart fatal]

/-- `BusyPoll()` begins: `t0 <- Now()` (R155). -/
def doPollStart (fatal : Bool) (s : State) : State :=
  let q := readNow s
  q.2.push [.polling q.1 fatal]

/-- A busy poll ran out of time (R155): `Emit(Busy(TIMEOUT))`; unless the poll is one of `PowerOff`
(R162), `pwr <- FAULT` and `DEVICE_TIMEOUT` is raised (R152, R159, R161). -/
def busyTimeout (fatal : Bool) (s : State) : State :=
  if fatal then ((s.emit (.busy .timeout)).setPwr .fault).raiseError .deviceTimeout
  else s.emit (.busy .timeout)

/-- One turn of the loop of `BusyPoll()` (R155, R247). -/
def doPolling (t0 : Word) (fatal : Bool) (s : State) : State :=
  let b := sampleBusy s
  if b.1 then
    let q := readNow b.2
    if s.params.busyTimeoutMs.toNat ≤ (q.1 - t0).toNat then busyTimeout fatal q.2
    else q.2.push [.polling t0 fatal]
  else b.2.emit (.busy .ok)

/-! ### The serial stream and the reader -/

/-- `Tx` of the bytes in order: the first stays on the port until the transport takes it (R251). -/
def doSend (bytes : List Byte) (s : State) : State :=
  match bytes with
  | [] => s
  | b :: rest =>
    let q := sampleTxReady s
    if q.1 then State.push [.send rest] { q.2.emit (.tx b) with tx := none }
    else State.push [.send (b :: rest)] { q.2 with tx := some b }

/-- The row transaction once its source bytes are there (R152): chip-select low, the frame, chip-select
high, one busy poll. -/
def sendRow (st : Stage) (r : Nat) (src : List Byte) (s : State) : State :=
  s.push [.setPin .cs false, .send (rowFrame s.params st r src), .setPin .cs true, .pollStart true]

/-- The request half of `ReaderRead` (R253): address and length stay on the port until the reader takes
them. `RdReq` is emitted in the tick in which it takes them: R13, R59 and R147 say that it is emitted, not
whether at the first drive or at `rd_req_ready` (DESIGN CHOICE, log entry 21). -/
def doRequest (st : Stage) (r : Nat) (addr : Word) (s : State) : State :=
  let q := sampleRdReqReady s
  if q.1 then
    State.push [.collect st r [] s.params.bpr] { q.2.emit (.rdReq addr s.params.bpr) with rd := none }
  else State.push [.request st r addr] { q.2 with rd := some (addr, BitVec.ofNat 16 s.params.bpr) }

/-- The answer half of `ReaderRead` (R87, R253): exactly `BPR` bytes, in ascending address order. -/
def doCollect (st : Stage) (r : Nat) (got : List Byte) (left : Nat) (s : State) : State :=
  match left with
  | 0 => sendRow st r got (s.emit (.rdData got))
  | n + 1 =>
    let q := sampleRdData s
    match q.1 with
    | some b => q.2.push [.collect st r (got ++ [b]) n]
    | none => q.2.push [.collect st r got (n + 1)]

/-- `RowTx(stage, sd, r, k)` up to its source bytes: `ReadSource(sd, k)` (R147, R152). -/
def doRow (st : Stage) (sd : SrcDesc) (r k : Nat) (s : State) : Result :=
  match sd.src with
  | .fixed => .next (sendRow st r (List.replicate s.params.bpr sd.fill) s)
  | .res => readRes (k * s.params.bpr) s.params.bpr s fun bytes => .next (sendRow st r bytes s)
  | .old => readOld (k * s.params.bpr) s.params.bpr s fun bytes => .next (sendRow st r bytes s)
  | .reader => .next (s.push [.request st r (readerAddr s.params sd.base k)])

/-! ### Passes and stages -/

/-- The row loop of a pass, rows in increasing order (R156). -/
def doRows (st : Stage) (sd : SrcDesc) (r k left : Nat) (s : State) : State :=
  match left with
  | 0 => s
  | n + 1 => s.push [.row st sd r k, .rows st sd (r + 1) (k + 1) n]

/-- `RefreshPass`: `STATUS.STAGE <- stage`, then the rows (R156). -/
def doPass (st : Stage) (sd : SrcDesc) (first count : Nat) (s : State) : State :=
  State.push [.rows st sd first 0 count] { s with stage := st }

/-- The value of `PASSES` for n passes started: it stays at `2^32 - 1` (R45, R157). -/
def passesWord (n : Nat) : Word := BitVec.ofNat 32 (min n (2 ^ 32 - 1))

/-- `acc <- min(acc + elapsed, 2^32 - 1)` (R157, R246). -/
def accumulate (acc elapsed : Word) : Word :=
  BitVec.ofNat 32 (min (acc.toNat + elapsed.toNat) (2 ^ 32 - 1))

/-- `RefreshStage` begins (R157): `D <- duration`, read once; `acc <- 0; n <- 0`. -/
def doStage (st : Stage) (sd : SrcDesc) (first count : Nat) (s : State) : State :=
  State.push [.passStart st sd first count s.duration 0] { s with acc := 0 }

/-- The head of the stage loop (R157): `t0 <- Now(); n <- n + 1; PASSES`, then the pass. -/
def doPassStart (st : Stage) (sd : SrcDesc) (first count : Nat) (dur : Word) (n : Nat) (s : State) : State :=
  let q := readNow s
  State.push [.pass st sd first count, .passEnd st sd first count dur (n + 1) q.1]
    { q.2 with passes := passesWord (n + 1) }

/-- The foot of the stage loop (R157): `t1 <- Now()`, the accumulator, and another pass until
`acc >= D`. -/
def doPassEnd (st : Stage) (sd : SrcDesc) (first count : Nat) (dur : Word) (n : Nat) (t0 : Word)
    (s : State) : State :=
  let q := readNow s
  let acc := accumulate s.acc (q.1 - t0)
  if dur.toNat ≤ acc.toNat then { q.2 with acc := acc }
  else State.push [.passStart st sd first count dur n] { q.2 with acc := acc }

/-- `StageSequence(sdOld, sdNew, first, count)` (R158): the four stages in order, the old image in the
first two and the new one in the last two (R143). -/
def stageSequence (sdOld sdNew : SrcDesc) (first count : Nat) : List Micro :=
  [.stage .compensate sdOld first count, .stage .white sdOld first count,
   .stage .inverse sdNew first count, .stage .normal sdNew first count]

/-! ### Ticks -/

/-- Run one micro-operation. -/
def runMicro (m : Micro) (s : State) : Result :=
  match m with
  | .loadTemp t => .next (s.loadTemp t)
  | .sampleTemp => .next (doSampleTemp s)
  | .selectSegment i => .next (doSelectSegment i s)
  | .paint byteIx mask black => paintRes byteIx mask black s
  | .powerOn => .next (doPowerOn s)
  | .powerOff => .next (doPowerOff s)
  | .setPwr v => .next (s.setPwr v)
  | .perform a fatal => .next (doPerform a fatal s)
  | .sleeping t0 n => .next (doSleeping t0 n s)
  | .setPin p v => .next (s.drive p v)
  | .send bytes => .next (doSend bytes s)
  | .pollStart fatal => .next (doPollStart fatal s)
  | .polling t0 fatal => .next (doPolling t0 fatal s)
  | .setPasses => .next { s with passes := 1 }
  | .stage st sd first count => .next (doStage st sd first count s)
  | .passStart st sd first count dur n => .next (doPassStart st sd first count dur n s)
  | .passEnd st sd first count dur n t0 => .next (doPassEnd st sd first count dur n t0 s)
  | .pass st sd first count => .next (doPass st sd first count s)
  | .rows st sd r k left => .next (doRows st sd r k left s)
  | .row st sd r k => doRow st sd r k s
  | .request st r addr => .next (doRequest st r addr s)
  | .collect st r got left => .next (doCollect st r got left s)
  | .clearRes => .next (doClearRes s)
  | .clearOld => .next (doClearOld s)
  | .copyOld => .next (doCopyOld s)

/-- One tick of the sequencer: nothing while idle (R274); the next micro-operation; or, with none left,
completion (R237). -/
def tick (s : State) : Result :=
  if s.busy then
    match s.seq.todo with
    | [] => .next s.complete
    | m :: rest => runMicro m (s.setTodo rest)
  else .next s

/-- A run of ticks. -/
def ticks : Nat → State → Result
  | 0, s => .next s
  | n + 1, s => andThen (tick s) (ticks n)

/-! ### From a command word to its position -/

/-- What the checks of a command decide (R238 steps 3 and 4): an error, raised before any action (R239),
or the micro-operations to run and what runs after a `DEVICE_TIMEOUT`. -/
inductive Plan where
  | fail (c : Code)
  | run (todo onTimeout : List Micro)
  deriving DecidableEq, Repr

/-- The first code in the list whose condition holds, in the order the rule lists them (R238). -/
def firstError (checks : List (Bool × Code)) : Option Code :=
  match checks with
  | [] => none
  | (fails, c) :: rest => if fails then some c else firstError rest

/-- The checks in order, and what runs when all pass. -/
def guarded (checks : List (Bool × Code)) (todo : List Micro) (onTimeout : List Micro := []) : Plan :=
  match firstError checks with
  | some c => .fail c
  | none => .run todo onTimeout

/-- `INVALID_CONFIG` of every command but `NOP` when `CFG_OK = 0` (R238 step 3, R273). -/
def configCheck (s : State) : Bool × Code := (!cfgOk s.params, .invalidConfig)

/-- `CheckRange(first, count, src)` on the latched range (R153). -/
def rangeCheck (src : Src) (s : State) : Bool × Code :=
  (!rangeOk s.params s.firstRow s.rowCount src, .invalidConfig)

/-- `ILLEGAL_STATE` unless `pwr` is the one the command needs (R154, R166, R207). -/
def pwrCheck (needed : Pwr) (s : State) : Bool × Code := (s.pwr != needed, .illegalState)

/-- The state after a plan is taken up: the error's, or the one whose position is the plan's. -/
def State.follow (plan : Plan) (s : State) : State :=
  match plan with
  | .fail c => s.raiseError c
  | .run todo onTimeout => { s with seq := ⟨todo, .ok, onTimeout⟩ }

/-- A host write of the word `w` to `CMD` (R35, R237): dropped while a command runs (R276), else the
launch and the command's checks; then the ticks that pass before the host's next access. -/
def runCommand (w : Word) (plan : State → Plan) (s : State) : Result :=
  if s.busy then ticks s.inputs.gap s.dropCommand
  else ticks s.inputs.gap ((s.launch w).follow (plan (s.launch w)))

/-- A host write of an illegal word to `CMD` (R124, R125, R238 steps 1 and 2): dropped while a command
runs (R276), else it completes at once (DEDUCED, log entry 6) with `ILLEGAL_CMD`; then the ticks before the next
access. -/
def runIllegal (w : Word) (s : State) : Result :=
  if s.busy then ticks s.inputs.gap s.dropCommand
  else ticks s.inputs.gap ((s.launch w).raiseError .illegalCmd).complete

end Sys2Proof.Machine
end

