-- ==== Sys2Proof/Machine/Driver.lean ====
section
/-! DEFINITION. The driver commands (40_stage_driver.md R165 to R173): for each, its plan (the checks of
its rule in their order, then its pseudocode) and its meaning. -/

namespace Sys2Proof.Machine

open Sys2Proof

/-- `NOP` (R165): nothing, also when `CFG_OK = 0`. -/
def planNop (_ : State) : Plan := .run [] []

/-- `NOP` (R165). -/
def execNop (s : State) : Result := runCommand (encode .nop) planNop s

/-- `PWR_ON` (R166). -/
def planPwrOn (s : State) : Plan := guarded [configCheck s, pwrCheck .off s] [.powerOn]

/-- `PWR_ON` (R166). -/
def execPwrOn (s : State) : Result := runCommand (encode .pwrOn) planPwrOn s

/-- `PWR_OFF` (R167): it needs no power state. -/
def planPwrOff (s : State) : Plan := guarded [configCheck s] [.powerOff]

/-- `PWR_OFF` (R167). -/
def execPwrOff (s : State) : Result := runCommand (encode .pwrOff) planPwrOff s

/-- `SET_TEMP` (R168): it needs no power state. -/
def planSetTemp (temp : BitVec 8) (s : State) : Plan := guarded [configCheck s] [.loadTemp temp]

/-- `SET_TEMP` (R168). -/
def execSetTemp (temp : BitVec 8) (s : State) : Result :=
  runCommand (encode (.setTemp temp)) (planSetTemp temp) s

/-- `SAMPLE_TEMP` (R169): it needs no power state. -/
def planSampleTemp (s : State) : Plan := guarded [configCheck s] [.sampleTemp]

/-- `SAMPLE_TEMP` (R169). -/
def execSampleTemp (s : State) : Result := runCommand (encode .sampleTemp) planSampleTemp s

/-- `REFRESH_ONCE` (R170). -/
def planRefreshOnce (stage : Stage) (src : Src) (fill : Byte) (s : State) : Plan :=
  guarded [configCheck s, rangeCheck src s, pwrCheck .on s]
    [.setPasses, .pass stage (s.newSource src fill) s.firstRow s.rowCount]

/-- `REFRESH_ONCE` (R170). -/
def execRefreshOnce (stage : Stage) (src : Src) (fill : Byte) (s : State) : Result :=
  runCommand (encode (.refreshOnce stage src fill)) (planRefreshOnce stage src fill) s

/-- `REFRESH_REPEAT` (R171). -/
def planRefreshRepeat (stage : Stage) (src : Src) (fill : Byte) (s : State) : Plan :=
  guarded [configCheck s, rangeCheck src s, pwrCheck .on s]
    [.stage stage (s.newSource src fill) s.firstRow s.rowCount]

/-- `REFRESH_REPEAT` (R171). -/
def execRefreshRepeat (stage : Stage) (src : Src) (fill : Byte) (s : State) : Result :=
  runCommand (encode (.refreshRepeat stage src fill)) (planRefreshRepeat stage src fill) s

/-- `DRV_CLEAR` (R172). -/
def planDrvClear (fill : Byte) (s : State) : Plan :=
  guarded [configCheck s, rangeCheck .fixed s, pwrCheck .on s]
    (stageSequence (fixedSource fill) (fixedSource fill) s.firstRow s.rowCount)

/-- `DRV_CLEAR` (R172). -/
def execDrvClear (fill : Byte) (s : State) : Result :=
  runCommand (encode (.drvClear fill)) (planDrvClear fill) s

/-- `sdOld` of `SHOW_IMAGE` (R173): without an old image, "compensate with self". -/
def showImageOld (newSrc oldSrc : Src) (hasOld : Bool) (fill : Byte) (s : State) : SrcDesc :=
  if hasOld then s.oldSource oldSrc fill else s.newSource newSrc fill

/-- `SHOW_IMAGE` (R173). -/
def planShowImage (newSrc oldSrc : Src) (hasOld : Bool) (fill : Byte) (s : State) : Plan :=
  guarded
    [configCheck s, rangeCheck newSrc s, (hasOld && (rangeCheck oldSrc s).1, .invalidConfig),
     pwrCheck .on s]
    (stageSequence (showImageOld newSrc oldSrc hasOld fill s) (s.newSource newSrc fill)
      s.firstRow s.rowCount)

/-- `SHOW_IMAGE` (R173). The reserved form is refused as at decode (R125, R238 step 2). -/
def execShowImage (newSrc oldSrc : Src) (hasOld : Bool) (fill : Byte) (s : State) : Result :=
  if showImageFormOk oldSrc hasOld then
    runCommand (encode (.showImage newSrc oldSrc hasOld fill)) (planShowImage newSrc oldSrc hasOld fill) s
  else runIllegal (encode (.showImage newSrc oldSrc hasOld fill)) s

end Sys2Proof.Machine
end

