-- ==== Sys2Proof/Machine/Framebuffer.lean ====
section
/-! DEFINITION. The framebuffer commands (41_framebuffer.md R205 to R209): for each, its plan and its
meaning. -/

namespace Sys2Proof.Machine

open Sys2Proof

/-- `SEL_SEG` (R205): it needs no power state. -/
def planSelSeg (index : BitVec 16) (s : State) : Plan :=
  guarded [configCheck s, (decide (segCount s.params ≤ index.toNat), .invalidConfig)]
    [.selectSegment index]

/-- `SEL_SEG` (R205). -/
def execSelSeg (index : BitVec 16) (s : State) : Result :=
  runCommand (encode (.selSeg index)) (planSelSeg index) s

/-- The place of a pixel operand: both coordinates are sign-extended (R92, R122). -/
def pixelOf (x y : BitVec 12) (s : State) : Place := translate s.params s.seg.toNat x.toInt y.toInt

/-- What `SET_PIXEL` does at a place (R206): a clipped write changes nothing (R93). -/
def paintPlan (black : Bool) (place : Place) : List Micro :=
  match place with
  | .at byteIx mask => [.paint byteIx mask black]
  | .clipped => []
  | .outOfBounds => []

/-- `SET_PIXEL` (R206): it needs no power state. -/
def planSetPixel (black : Bool) (x y : BitVec 12) (s : State) : Plan :=
  guarded [configCheck s, (pixelOf x y s == .outOfBounds, .outOfBoundsPixel)]
    (paintPlan black (pixelOf x y s))

/-- `SET_PIXEL` (R206). -/
def execSetPixel (black : Bool) (x y : BitVec 12) (s : State) : Result :=
  runCommand (encode (.setPixel black x y)) (planSetPixel black x y) s

/-- The stages of `DISPLAY` (R207) in its compensation mode, with the copy of R209 in `DUAL_BUFFER`. -/
def displayStages (clearFirst : Bool) (s : State) : List Micro :=
  match s.params.compMode with
  | .alwaysClear =>
    let lo := s.seg.toNat * s.params.segHeight
    let h := s.params.segHeight
    if clearFirst then
      stageSequence (fixedSource 0) (fixedSource 0) lo h ++ stageSequence (fixedSource 0) resSource lo h
    else stageSequence resSource resSource lo h
  | .dualBuffer => stageSequence oldSource resSource 0 s.params.rows ++ [.copyOld]

/-- `DISPLAY` (R207): the power state must match `DO_PWR_ON`; a `DEVICE_TIMEOUT` is caught to power off
when `DO_PWR_OFF = 1`. -/
def planDisplay (clearFirst doPwrOn doPwrOff : Bool) (s : State) : Plan :=
  guarded [configCheck s, pwrCheck (if doPwrOn then .off else .on) s]
    ((if doPwrOn then [.powerOn] else []) ++ displayStages clearFirst s
      ++ (if doPwrOff then [.powerOff] else []))
    (if doPwrOff then [.powerOff] else [])

/-- `DISPLAY` (R207). -/
def execDisplay (clearFirst doPwrOn doPwrOff : Bool) (s : State) : Result :=
  runCommand (encode (.display clearFirst doPwrOn doPwrOff)) (planDisplay clearFirst doPwrOn doPwrOff) s

/-- `FB_CLEAR` (R208). -/
def planFbClear (s : State) : Plan :=
  guarded [configCheck s, pwrCheck .on s]
    (stageSequence (fixedSource 0) (fixedSource 0) 0 s.params.rows ++ [.clearRes]
      ++ (match s.params.compMode with
          | .alwaysClear => []
          | .dualBuffer => [.clearOld]))

/-- `FB_CLEAR` (R208). -/
def execFbClear (s : State) : Result := runCommand (encode .fbClear) planFbClear s

end Sys2Proof.Machine
end

