-- ==== Sys2Proof/Machine/Dispatch.lean ====
section
/-! DEFINITION. One arm per command: the meaning it calls (60_exceptions.md R238 step 4). -/

namespace Sys2Proof.Machine

open Sys2Proof

def exec (i : Instr) (s : State) : Host.Outcome State Fault Refusal :=
  match i with
  | .nop => Sys2Proof.Machine.execNop s
  | .pwrOn => Sys2Proof.Machine.execPwrOn s
  | .pwrOff => Sys2Proof.Machine.execPwrOff s
  | .setTemp temp => Sys2Proof.Machine.execSetTemp temp s
  | .sampleTemp => Sys2Proof.Machine.execSampleTemp s
  | .refreshOnce stage src fill => Sys2Proof.Machine.execRefreshOnce stage src fill s
  | .refreshRepeat stage src fill => Sys2Proof.Machine.execRefreshRepeat stage src fill s
  | .drvClear fill => Sys2Proof.Machine.execDrvClear fill s
  | .showImage newSrc oldSrc hasOld fill => Sys2Proof.Machine.execShowImage newSrc oldSrc hasOld fill s
  | .selSeg index => Sys2Proof.Machine.execSelSeg index s
  | .setPixel black x y => Sys2Proof.Machine.execSetPixel black x y s
  | .display clearFirst doPwrOn doPwrOff => Sys2Proof.Machine.execDisplay clearFirst doPwrOn doPwrOff s
  | .fbClear => Sys2Proof.Machine.execFbClear s

end Sys2Proof.Machine
end

