-- ==== Sys2Proof/Machine/Flags.lean ====
section
/-! DEFINITION. The host registers as words (10_state.md R34 to R49): the fields of `STATUS` and of the
read-only registers put together, a host read, and a host write to a register other than `CMD`. -/

namespace Sys2Proof.Machine

open Sys2Proof

/-- The error codes (R230). -/
def codeBits : Code → BitVec 4
  | .ok => 0
  | .invalidConfig => 1
  | .deviceTimeout => 2
  | .outOfBoundsPixel => 3
  | .illegalCmd => 4
  | .illegalState => 5

/-- The values of `STATUS.PWR` (R40). -/
def pwrBits : Pwr → BitVec 2
  | .off => 0
  | .on => 1
  | .fault => 2

/-- `STATUS` (R40): from bit 31 down, reserved, STAGE, reserved, CFG_OK, PWR, ERRCODE, OVERRUN, ERR,
DONE, BUSY. -/
def statusWord (s : State) : Word :=
  0#18 ++ stageBits s.stage ++ 0#1 ++ BitVec.ofBool (cfgOk s.params) ++ pwrBits s.pwr
    ++ codeBits s.errcode ++ BitVec.ofBool s.overrun ++ BitVec.ofBool s.err
    ++ BitVec.ofBool s.done ++ BitVec.ofBool s.busy

/-- `TEMP` (R42): FACTOR, zeros, TEMP_C. -/
def tempWord (s : State) : Word := s.factor ++ 0#8 ++ s.tempC

/-- `SEGMENT` (R44): SEG_COUNT, SEG_INDEX (log entry 20). -/
def segmentWord (s : State) : Word := BitVec.ofNat 16 (segCount s.params) ++ s.seg

/-- `GEOM0` (R46): COLUMNS, ROWS, truncated. -/
def geom0Word (p : Params) : Word := BitVec.ofNat 16 p.columns ++ BitVec.ofNat 16 p.rows

/-- `GEOM1` (R47): BPS, BPR, truncated. -/
def geom1Word (p : Params) : Word := BitVec.ofNat 16 p.bps ++ BitVec.ofNat 16 p.bpr

/-- `GEOM2` (R48): zeros, TEMP_SRC, COMP_MODE, H. -/
def geom2Word (p : Params) : Word :=
  0#14 ++ BitVec.ofBool (p.tempSrc == .sensor) ++ BitVec.ofBool (p.compMode == .dualBuffer)
    ++ BitVec.ofNat 16 p.segHeight

/-- What a host read of an offset returns (R34, R81). `CMD`, the reserved offsets and the misaligned
addresses read 0 (R35, R82). -/
def regRead (addr : BitVec 8) (s : State) : Word :=
  match addr.toNat with
  | 0x04 => s.range
  | 0x08 => s.rdbase
  | 0x0C => s.rdold
  | 0x10 => statusWord s
  | 0x14 => tempWord s
  | 0x18 => s.duration
  | 0x1C => segmentWord s
  | 0x20 => s.passes
  | 0x24 => geom0Word s.params
  | 0x28 => geom1Word s.params
  | 0x2C => geom2Word s.params
  | 0x30 => s.params.stageTimeMs
  | _ => 0

/-- A host write to `STATUS` (R41): write-1-to-clear on DONE, ERR and OVERRUN. -/
def State.writeStatus (v : Word) (s : State) : State :=
  { s with
    done := s.done && !bit v 1
    err := s.err && !bit v 2
    overrun := s.overrun && !bit v 3 }

/-- A host write to an offset other than `CMD` (R34, R36, R37, R38, R41). Read-only registers, reserved
offsets and misaligned addresses ignore it (R34, R82). -/
def State.writeReg (addr : BitVec 8) (v : Word) (s : State) : State :=
  match addr.toNat with
  | 0x04 => { s with range := v }
  | 0x08 => { s with rdbase := v }
  | 0x0C => { s with rdold := v }
  | 0x10 => s.writeStatus v
  | _ => s

/-- A host read (R255): `reg_rdata` takes the value; nothing else changes (R91). -/
def State.readReg (addr : BitVec 8) (s : State) : State := { s with rdata := regRead addr s }

end Sys2Proof.Machine
end

