-- ==== Sys2Proof/Machine/Pseudo.lean ====
section
/-! DEFINITION. The host's programs: the assembler's lines (30_encoding.md R128, R129) and what the
pseudo-instructions expand to (R130, 41_framebuffer.md R215, R216). None of it is hardware; Machine/HostPort
runs the operations, `wait` among them. -/

namespace Sys2Proof.Machine

open Sys2Proof

/-! ### The assembler -/

/-- One line of assembler (R128); an operand that may be left out is an Option. -/
inductive AsmLine where
  | nop
  | pwrOn
  | pwrOff
  | setTemp (t : Int)
  | sampleTemp
  | refreshOnce (stage : Stage) (src : Src) (fill : Option Nat)
  | refreshRepeat (stage : Stage) (src : Src) (fill : Option Nat)
  | drvClear (fill : Option Nat)
  | showImage (newSrc : Src) (oldSrc : Option Src) (fill : Option Nat)
  | selSeg (index : Nat)
  | setPixel (x y : Int) (black : Bool)
  | display (clearFirst doPwrOn doPwrOff : Bool)
  | fbClear
  deriving DecidableEq, Repr

/-- A signed operand of `w` bits, refused outside its range (R129). -/
def signedOperand (w : Nat) (v : Int) : Option (BitVec w) :=
  if -(2 : Int) ^ (w - 1) ≤ v ∧ v < (2 : Int) ^ (w - 1) then some (BitVec.ofInt w v) else none

/-- An unsigned operand of `w` bits, refused outside its range (R129). -/
def unsignedOperand (w : Nat) (v : Nat) : Option (BitVec w) :=
  if v < 2 ^ w then some (BitVec.ofNat w v) else none

/-- A fill operand; an omitted one is 0 (R128). -/
def fillOperand (fill : Option Nat) : Option Byte := unsignedOperand 8 (fill.getD 0)

/-- The command of a line, or none where the assembler refuses it (R128, R129). -/
def assemble : AsmLine → Option Instr
  | .nop => some .nop
  | .pwrOn => some .pwrOn
  | .pwrOff => some .pwrOff
  | .setTemp t => (signedOperand 8 t).map .setTemp
  | .sampleTemp => some .sampleTemp
  | .refreshOnce stage src fill => (fillOperand fill).map (.refreshOnce stage src)
  | .refreshRepeat stage src fill => (fillOperand fill).map (.refreshRepeat stage src)
  | .drvClear fill => (fillOperand fill).map .drvClear
  | .showImage newSrc oldSrc fill =>
    (fillOperand fill).map (.showImage newSrc (oldSrc.getD .fixed) oldSrc.isSome)
  | .selSeg index => (unsignedOperand 16 index).map .selSeg
  | .setPixel x y black =>
    (signedOperand 12 x).bind fun xb => (signedOperand 12 y).map fun yb => .setPixel black xb yb
  | .display clearFirst doPwrOn doPwrOff => some (.display clearFirst doPwrOn doPwrOff)
  | .fbClear => some .fbClear

/-! ### Register pseudo-instructions -/

/-- `range <first>, <count>` (R130). -/
def setRange (first count : BitVec 16) : HostOp := .wr 0x04 (count ++ first)

/-- `rdbase <a>` (R130). -/
def setRdbase (a : Word) : HostOp := .wr 0x08 a

/-- `rdold <a>` (R130). -/
def setRdold (a : Word) : HostOp := .wr 0x0C a

/-- A command line: `wr CMD, <word>` followed by `wait` (R130). -/
def commandLine (i : Instr) : List HostOp := [.wr 0x00 (encode i), .wait]

/-- A line of assembler as host operations, or none where the assembler refuses it (R129, R130). -/
def lineOps (line : AsmLine) : Option (List HostOp) := (assemble line).map commandLine

/-- Operations as lines of a program, with `gap` ticks after each access. -/
def paced (gap : Nat) (ops : List HostOp) : List HostLine := ops.map fun op => ⟨op, gap⟩

/-! ### Glyphs and full-canvas updates -/

/-- `g(i, j)`: column i, row j (R215). -/
def Glyph.on (g : Glyph) (i j : Nat) : Bool := ((g.rows.getD j []).getD i false)

/-- One thing the host does for a drawing call (R215). -/
inductive HostCall where
  /-- A command that the host issues, and waits for. -/
  | command (i : Instr)
  /-- A `set_pixel` whose coordinate cannot be encoded. It is off the canvas: the host does not issue it
  and "counts it as `OUT_OF_BOUNDS_PIXEL`" (R215). -/
  | unencodable (x y : Int) (black : Bool)
  deriving DecidableEq, Repr

/-- The host operations of a call: an issued command is followed by `wait`; a pixel that cannot be encoded
is counted (R215). -/
def HostCall.ops : HostCall → List HostOp
  | .command i => commandLine i
  | .unencodable _ _ _ => [.countPixel]

/-- The commands that reach the block, in order. -/
def issued (calls : List HostCall) : List Instr :=
  calls.filterMap fun c => match c with
    | .command i => some i
    | .unencodable _ _ _ => none

/-- The code that the host itself counts for a call: `OUT_OF_BOUNDS_PIXEL` for one that it does not issue
(R215); the code of an issued one is the block's. -/
def hostCode : HostCall → Option Code
  | .command _ => none
  | .unencodable _ _ _ => some .outOfBoundsPixel

/-- How many calls the host counts as `OUT_OF_BOUNDS_PIXEL` without issuing them (R215). -/
def countUnissued (calls : List HostCall) : Nat := calls.countP fun c => hostCode c == some .outOfBoundsPixel

/-- `set_pixel x, y, c` of the expansion (R215): a coordinate outside `-2048` to `2047` cannot be
encoded. -/
def pixelCall (x y : Int) (black : Bool) : HostCall :=
  match assemble (.setPixel x y black) with
  | some i => .command i
  | none => .unencodable x y black

/-- `Paint(px, py, c, scale)` (R215): a block of `scale` by `scale` pixels. -/
def paintBlock (px py : Int) (black : Bool) (scale : Nat) : List HostCall :=
  (List.range scale).flatMap fun (di : Nat) =>
    (List.range scale).map fun (dj : Nat) => pixelCall (px + di) (py + dj) black

/-- One cell of a glyph (R215): an "on" cell takes `fg`; an "off" cell takes `bg` unless the two are the
same colour. -/
def glyphCell (g : Glyph) (x y : Int) (fg bg : Bool) (scale i j : Nat) : List HostCall :=
  if g.on i j then paintBlock (x + (i * scale : Nat)) (y + (j * scale : Nat)) fg scale
  else if bg != fg then paintBlock (x + (i * scale : Nat)) (y + (j * scale : Nat)) bg scale
  else []

/-- The horizontal reject of `draw_char` (R215): the glyph is entirely left of 0 or right of the width. -/
def missesColumns (p : Params) (x : Int) (g : Glyph) (scale : Nat) : Bool :=
  decide (x + (g.gw * scale : Nat) ≤ 0 ∨ (p.columns : Int) ≤ x)

/-- `draw_char(x, y, glyph, fg, bg, scale)` (R215), for the segment that the host read from `SEGMENT`:
the two early rejects, then the cells, column by column. -/
def drawChar (p : Params) (seg : Nat) (x y : Int) (g : Glyph) (fg bg : Bool) (scale : Nat) : List HostCall :=
  if missesColumns p x g scale then []
  else if y + (g.gh * scale : Nat) ≤ (seg * p.segHeight : Nat)
      ∨ (seg * p.segHeight + p.segHeight : Nat) ≤ y then []
  else
    (List.range g.gw).flatMap fun i => (List.range g.gh).flatMap fun j => glyphCell g x y fg bg scale i j

/-- A drawing call of the host (R216). -/
inductive DrawCall where
  /-- `set_pixel x, y, c`. -/
  | pixel (x y : BitVec 12) (black : Bool)
  /-- `draw_char x, y, glyph, fg, bg, scale`. -/
  | char (x y : Int) (g : Glyph) (fg bg : Bool) (scale : Nat)
  deriving DecidableEq, Repr

/-- A drawing call as host operations (R216). -/
def DrawCall.ops : DrawCall → List HostOp
  | .pixel x y black => commandLine (.setPixel black x y)
  | .char x y g fg bg scale => [.drawChar x y g fg bg scale]

/-- `frame_update(cf, draw)` (R216): the same drawing for every segment, in one powered session. -/
def frameUpdate (p : Params) (clearFirst : Bool) (draw : List DrawCall) : List HostOp :=
  (List.range (segCount p)).flatMap fun i =>
    commandLine (.selSeg (BitVec.ofNat 16 i)) ++ draw.flatMap DrawCall.ops
      ++ commandLine (.display clearFirst (i == 0) (i + 1 == segCount p))

end Sys2Proof.Machine
end

