-- ==== Sys2Proof/Machine/HostPort.lean ====
section
/-! DEFINITION. The host at the register port (10_state.md R30, 60_exceptions.md R255): what one of its
accesses does, the ticks that follow it, what it does for an operation of its program (30_encoding.md R130),
and how a command word is placed as its next access. -/

namespace Sys2Proof.Machine

open Sys2Proof

/-- A host write of any word to `CMD` (R35, R237, R238). -/
def writeCmd (w : Word) (s : State) : Result :=
  match decode w with
  | .command i => exec i s
  | .illegal _ => runIllegal w s

/-- A host write, with the ticks that follow it (R255). While reset is asserted the block does not accept it
(R270). -/
def hostWrite (addr : BitVec 8) (v : Word) (s : State) : Result :=
  if s.inputs.rstN then
    if addr = 0x00 then writeCmd v s else ticks s.inputs.gap (s.writeReg addr v)
  else ticks s.inputs.gap s

/-- A host read (R255). While reset is asserted the block does not accept it, and `reg_rdata` holds its
reset value (R270; DEDUCED, log entry 13). -/
def State.hostRead (addr : BitVec 8) (s : State) : State :=
  if s.inputs.rstN then s.readReg addr else s

/-- One access (R255) or one change of `rst_n` (R270), with the ticks that follow it. -/
def access (a : Access) (s : State) : Result :=
  match a with
  | .write addr v => hostWrite addr v s
  | .read addr => ticks s.inputs.gap (s.hostRead addr)
  | .rstN level => ticks s.inputs.gap (s.driveRst level)

/-- The host goes on with `ops`, at the pace of its present line, before the rest of its program. -/
def State.goOnWith (ops : List HostOp) (s : State) : State :=
  { s with inputs := { s.inputs with program := paced s.inputs.gap ops ++ s.inputs.program } }

/-- One read of `wait` (R130): the host reads `STATUS`, and comes back to `wait` while that shows
`BUSY = 1`; then at least one tick passes before it reads again (log entry 22). -/
def hostWait (s : State) : Result :=
  let t := s.hostRead 0x10
  if t.rdata.getLsbD 0 then ticks (t.inputs.gap + 1) (t.goOnWith [.wait]) else ticks t.inputs.gap t

/-- `draw_char` (R215): the horizontal reject returns with no access; else the host reads `SEGMENT`, and
goes on with the pixels of the glyph that the segment shown there asks for. -/
def hostDrawChar (x y : Int) (g : Glyph) (fg bg : Bool) (scale : Nat) (s : State) : Result :=
  if missesColumns s.params x g scale then ticks s.inputs.gap s
  else
    let t := s.hostRead 0x1C
    let calls := drawChar t.params (t.rdata.extractLsb' 0 16).toNat x y g fg bg scale
    ticks t.inputs.gap (t.goOnWith (calls.flatMap HostCall.ops))

/-- The host counts a pixel as `OUT_OF_BOUNDS_PIXEL` without an access (R215). -/
def hostCountPixel (s : State) : Result :=
  ticks s.inputs.gap { s with inputs := { s.inputs with outOfBounds := s.inputs.outOfBounds + 1 } }

/-- One operation of the host's program (R130, R131). -/
def hostOp (op : HostOp) (s : State) : Result :=
  match op with
  | .wr addr v => access (.write addr v) s
  | .rd addr => access (.read addr) s
  | .wait => hostWait s
  | .drawChar x y g fg bg scale => hostDrawChar x y g fg bg scale s
  | .countPixel => hostCountPixel s

/-- The host's turn: the next line of its program, or one tick when there is none. -/
def hostTurn (s : State) : Result :=
  match s.inputs.program with
  | [] => tick s
  | l :: rest => hostOp l.op { s with inputs := { s.inputs with program := rest, gap := l.gap } }

/-- The next access of the world outside; with none placed, the host's turn. -/
def nextMove (s : State) : Result :=
  match s.inputs.moves with
  | [] => hostTurn s
  | m :: rest => access m.access { s with inputs := { s.inputs with moves := rest, gap := m.gap } }

/-- `s` with a write of `w` to `CMD` as the host's next access, which the block accepts (`rst_n` is 1),
followed by two ticks more than the access now being performed: time for a command of one action to act and
to complete (log entry 2). -/
def State.offerCommand (w : Word) (s : State) : State :=
  { s with
    inputs :=
      { s.inputs with
        rstN := true
        moves := { access := .write 0x00 w, gap := s.inputs.gap + 2 } :: s.inputs.moves } }

end Sys2Proof.Machine
end

