-- ==== Sys2Proof/Machine/Step.lean ====
section
/-! DEFINITION. One step of the machine. A command comes to the block as a host write to `CMD`; there is
no instruction memory and no program counter (10_state.md R58, 20_memory.md R101). -/

namespace Sys2Proof.Machine

open Sys2Proof

/-- One step: the next access of the world outside, or the next operation of the host's program, with the
sequencer ticks that follow it; one tick when neither is to come (log entries 2 and 22). -/
def step (s : State) : Host.Outcome State Fault Refusal := nextMove s

/-- `s` with the table word `w` as the next word the host writes to `CMD`. -/
def State.withFetchWord (s : State) (nbits w : Nat) : State :=
  s.offerCommand (BitVec.ofNat 32 (w % 2 ^ nbits))

end Sys2Proof.Machine
end

