-- ==== Sys2Proof/Safety.lean ====
section
/-! DEFINITION. What counts as a safe state: the invariant `Inv` that reset meets and every step keeps,
and the notions that the statements are written in (a command that is idle, answers put in front of the
input queues, the events of a row, the bracket structure of the trace). -/

namespace Sys2Proof.Machine

open Sys2Proof

/-! ### Positions that can arise -/

/-- A buffer source holds the first `n` source rows (R153 (b), (c), (d)); the other sources are
unbounded. -/
def srcFits (p : Params) (src : Src) (n : Nat) : Bool :=
  match src with
  | .fixed => true
  | .res => decide (n ≤ p.segHeight)
  | .old => p.compMode == .dualBuffer && decide (n ≤ p.rows)
  | .reader => true

/-- A micro-operation whose operands are in range. -/
def microOk (p : Params) : Micro → Bool
  | .selectSegment i => decide (i.toNat < segCount p)
  | .paint byteIx _ _ => decide (byteIx < resSize p)
  | .stage _ sd first count => decide (first + count ≤ p.rows) && srcFits p sd.src count
  | .passStart _ sd first count _ _ => decide (first + count ≤ p.rows) && srcFits p sd.src count
  | .passEnd _ sd first count _ _ _ => decide (first + count ≤ p.rows) && srcFits p sd.src count
  | .pass _ sd first count => decide (first + count ≤ p.rows) && srcFits p sd.src count
  | .rows _ sd r k left => decide (r + left ≤ p.rows) && srcFits p sd.src (k + left)
  | .row _ sd r k => decide (r < p.rows) && srcFits p sd.src (k + 1)
  | .request _ r _ => decide (r < p.rows)
  | .collect _ r got left => decide (r < p.rows) && got.length + left == p.bpr
  | .clearOld => p.compMode == .dualBuffer
  | .copyOld => p.compMode == .dualBuffer
  | .loadTemp _ => true
  | .sampleTemp => true
  | .powerOn => true
  | .powerOff => true
  | .setPwr _ => true
  | .perform _ _ => true
  | .sleeping _ _ => true
  | .setPin _ _ => true
  | .send _ => true
  | .pollStart _ => true
  | .polling _ _ => true
  | .setPasses => true
  | .clearRes => true

/-- Rows are sent, and power sequences run, only from the power states that the rules name: `pwr` is the
power state when the head of the list runs (R154, R161, R162, R166, R256). -/
def powerFlow (pwr : Pwr) : List Micro → Bool
  | [] => true
  | .powerOn :: rest => pwr == .off && powerFlow .on rest
  | .powerOff :: rest => powerFlow .off rest
  | .setPwr .on :: rest => pwr == .off && powerFlow .on rest
  | .setPwr .off :: rest => powerFlow .off rest
  | .setPwr .fault :: _ => false
  | .perform _ fatal :: rest => (!fatal || pwr != .fault) && powerFlow pwr rest
  | .pollStart fatal :: rest => (!fatal || pwr != .fault) && powerFlow pwr rest
  | .polling _ fatal :: rest => (!fatal || pwr != .fault) && powerFlow pwr rest
  | .stage _ _ _ _ :: rest => pwr == .on && powerFlow pwr rest
  | .passStart _ _ _ _ _ _ :: rest => pwr == .on && powerFlow pwr rest
  | .passEnd _ _ _ _ _ _ _ :: rest => pwr == .on && powerFlow pwr rest
  | .pass _ _ _ _ :: rest => pwr == .on && powerFlow pwr rest
  | .rows _ _ _ _ _ :: rest => pwr == .on && powerFlow pwr rest
  | .row _ _ _ _ :: rest => pwr == .on && powerFlow pwr rest
  | .request _ _ _ :: rest => pwr == .on && powerFlow pwr rest
  | .collect _ _ _ _ :: rest => pwr == .on && powerFlow pwr rest
  | .loadTemp _ :: rest => powerFlow pwr rest
  | .sampleTemp :: rest => powerFlow pwr rest
  | .selectSegment _ :: rest => powerFlow pwr rest
  | .paint _ _ _ :: rest => powerFlow pwr rest
  | .sleeping _ _ :: rest => powerFlow pwr rest
  | .setPin _ _ :: rest => powerFlow pwr rest
  | .send _ :: rest => powerFlow pwr rest
  | .setPasses :: rest => powerFlow pwr rest
  | .clearRes :: rest => powerFlow pwr rest
  | .clearOld :: rest => powerFlow pwr rest
  | .copyOld :: rest => powerFlow pwr rest

/-- Every list of bytes is sent right after chip-select was driven low (R33, R152, R160); `low` says that
it was when the head runs. -/
def sendsFramed (low : Bool) : List Micro → Bool
  | [] => true
  | .send _ :: rest => low && sendsFramed false rest
  | .setPin p v :: rest => sendsFramed (p == .cs && !v) rest
  | _ :: rest => sendsFramed false rest

/-- What stands on the stream and reader ports is what the head of the position waits with (R251,
R253). -/
def portsMatch (s : State) : Bool :=
  (match s.tx with
   | none => true
   | some b => match s.seq.todo with
     | .send (c :: _) :: _ => c == b
     | _ => false)
  && (match s.rd with
   | none => true
   | some q => match s.seq.todo with
     | .request _ _ addr :: _ => q == (addr, BitVec.ofNat 16 s.params.bpr)
     | _ => false)

/-! ### The invariant -/

/-- The states that the block can be in: the buffers are canonical and inside their sizes (R55, R56), the
segment exists (R51), `factor` and `duration` belong to `temp_c` (R53, R54), an idle block has an empty
position and idle ports (R58), and a running one has a position whose micro-operations are in range, keep
to the power states, and frame their bytes; while reset is asserted, all of it is as after reset (R270). -/
abbrev Inv (s : State) : Prop :=
  Memory.wf (resSize s.params) s.res = true ∧
  Memory.wf (oldSize s.params) s.old = true ∧
  (cfgOk s.params = true → s.seg.toNat < segCount s.params) ∧
  s.factor = (if cfgOk s.params then BitVec.ofNat 16 (tempFactor s.params s.tempC) else 0) ∧
  s.duration =
    (if cfgOk s.params then BitVec.ofNat 32 (stageDuration s.params (tempFactor s.params s.tempC)) else 0) ∧
  (s.busy = false → s.seq = Seq.idle) ∧
  (s.busy = true → s.done = false) ∧
  (cfgOk s.params = false → s.seq.todo = [] ∧ s.seq.onTimeout = [] ∧ s.pwr = .off) ∧
  s.seq.todo.all (microOk s.params) = true ∧
  s.seq.onTimeout.all (microOk s.params) = true ∧
  powerFlow s.pwr s.seq.todo = true ∧
  powerFlow .fault s.seq.onTimeout = true ∧
  sendsFramed (!s.pins.cs) s.seq.todo = true ∧
  sendsFramed false s.seq.onTimeout = true ∧
  portsMatch s = true ∧
  (s.inputs.rstN = false → s = s.applyReset)

/-- The moves of `pwr` that R256 lists, and staying put. -/
def pwrMoveOk (a b : Pwr) : Bool :=
  match a, b with
  | .fault, .on => false
  | _, _ => true

/-- Whether a command is open at the end of a trace, or none if an event stands outside a command or a
command opens inside another (R59). -/
def bracket : List Event → Bool → Option Bool
  | [], isOpen => some isOpen
  | .cmd _ :: rest, isOpen => if isOpen then none else bracket rest true
  | .done _ :: rest, isOpen => if isOpen then bracket rest false else none
  | _ :: rest, isOpen => if isOpen then bracket rest true else none

/-! ### Answers of the world outside, put in front of the queues -/

/-- Answers that the collaborators are about to give. -/
structure Answers where
  busyIn : List Bool
  txReady : List Bool
  rdReqReady : List Bool
  rdData : List (Option Byte)
  tempIn : List (BitVec 8)
  elapsed : List Word
  deriving DecidableEq, Repr

/-- No answer. -/
def Answers.none : Answers where
  busyIn := []
  txReady := []
  rdReqReady := []
  rdData := []
  tempIn := []
  elapsed := []

/-- First the answers `a`, then the answers `b`. -/
def Answers.append (a b : Answers) : Answers where
  busyIn := a.busyIn ++ b.busyIn
  txReady := a.txReady ++ b.txReady
  rdReqReady := a.rdReqReady ++ b.rdReqReady
  rdData := a.rdData ++ b.rdData
  tempIn := a.tempIn ++ b.tempIn
  elapsed := a.elapsed ++ b.elapsed

/-- The answers of a list, one after the other. -/
def Answers.join : List Answers → Answers
  | [] => Answers.none
  | a :: rest => a.append (Answers.join rest)

/-- `s` with the answers `a` in front of its queues: a premise about the collaborators. -/
def State.feed (a : Answers) (s : State) : State :=
  { s with
    inputs :=
      { s.inputs with
        busyIn := a.busyIn ++ s.inputs.busyIn
        txReady := a.txReady ++ s.inputs.txReady
        rdReqReady := a.rdReqReady ++ s.inputs.rdReqReady
        rdData := a.rdData ++ s.inputs.rdData
        tempIn := a.tempIn ++ s.inputs.tempIn
        elapsed := a.elapsed ++ s.inputs.elapsed } }

/-- `s` with `g` ticks until the host's next access. -/
def State.withGap (g : Nat) (s : State) : State := { s with inputs := { s.inputs with gap := g } }

/-! ### Commands that can start, and what completing one writes -/

/-- No command runs and nothing waits on a port (R58, R274). -/
abbrev Idle (s : State) : Prop := s.busy = false ∧ s.tx = none ∧ s.rd = none

/-- An idle block with a valid configuration. -/
abbrev Ready (s : State) : Prop := Idle s ∧ cfgOk s.params = true

/-- `FIRST_ROW` of `RANGE` (R36). -/
def rangeFirst (s : State) : Nat := (s.range.extractLsb' 0 16).toNat

/-- `ROW_COUNT` of `RANGE` (R36). -/
def rangeCount (s : State) : Nat := (s.range.extractLsb' 16 16).toNat

/-- `s` after command `w` was launched in it and completed with code `c`, with the events `evs` between
`Cmd(w)` and `Done(c)`, as far as launch and completion write (R57, R237). -/
def State.completed (w : Word) (c : Code) (evs : List Event) (s : State) : State :=
  { s with
    busy := false
    done := true
    err := s.err || c != .ok
    errcode := c
    lat := ⟨w, s.range.extractLsb' 0 16, s.range.extractLsb' 16 16, s.rdbase, s.rdold⟩
    seq := Seq.idle
    trace := s.trace ++ [.cmd w] ++ evs ++ [.done c] }

/-- `s` with other values in the flags that the host reads and clears (R62). -/
def State.withFlags (done err overrun : Bool) (errcode : Code) (s : State) : State :=
  { s with done := done, err := err, overrun := overrun, errcode := errcode }

/-- `s` with other values in the registers that only the host writes (R36, R37, R38). -/
def State.withHostRegs (range rdbase rdold : Word) (s : State) : State :=
  { s with range := range, rdbase := rdbase, rdold := rdold }

/-- The opcode of a command (R123). -/
def opcodeOf : Instr → BitVec 5
  | .nop => 0x00
  | .pwrOn => 0x01
  | .pwrOff => 0x02
  | .setTemp _ => 0x03
  | .sampleTemp => 0x04
  | .refreshOnce _ _ _ => 0x05
  | .refreshRepeat _ _ _ => 0x06
  | .drvClear _ => 0x07
  | .showImage _ _ _ _ => 0x08
  | .selSeg _ => 0x09
  | .setPixel _ _ _ => 0x0A
  | .display _ _ _ => 0x0B
  | .fbClear => 0x0C

/-- The opcode map of R123 with the masks of spec/opcode_table.json: opcode and mask of each command. -/
def commandTable : List (BitVec 5 × Word) :=
  [(0x00, 0xFFFFFFFF), (0x01, 0xFFFFFFFF), (0x02, 0xFFFFFFFF), (0x03, 0xFF00FFFF), (0x04, 0xFFFFFFFF)]
  ++ [(0x05, 0xFF00FE1F), (0x06, 0xFF00FE1F), (0x07, 0xFF00FFFF), (0x08, 0xFF00F07F)]
  ++ [(0x09, 0x0000FFFF), (0x0A, 0x000000DF), (0x0B, 0xFFFFFF1F), (0x0C, 0xFFFFFFFF)]

/-! ### The pseudocode's events -/

/-- The events of one row transaction with source bytes `src` and busy poll `pr` (R152); a reader row has
its request and answer first (R147). -/
def rowEvents (p : Params) (st : Stage) (sd : SrcDesc) (r k : Nat) (src : List Byte) (pr : PollResult) :
    List Event :=
  (if sd.src = .reader then [.rdReq (readerAddr p sd.base k) p.bpr, .rdData src] else [])
    ++ [.pin .cs false] ++ (rowFrame p st r src).map .tx ++ [.pin .cs true, .busy pr]

/-- The events of the rows of a pass whose busy polls all succeed, for source rows given in order, from
row `r` and source row `k` on (R156). -/
def rowsEvents (p : Params) (st : Stage) (sd : SrcDesc) : Nat → Nat → List (List Byte) → List Event
  | _, _, [] => []
  | r, k, src :: rest => rowEvents p st sd r k src .ok ++ rowsEvents p st sd (r + 1) (k + 1) rest

/-- The source rows that `sd` yields for `count` rows (R147): the fill, the buffer's rows, or, for the
reader, any rows of `BPR` bytes, since its bytes are a draw (R103). -/
def sourceRows (s : State) (sd : SrcDesc) (count : Nat) (rowsRead : List (List Byte)) : Prop :=
  rowsRead.length = count ∧
  match sd.src with
  | .fixed => ∀ row ∈ rowsRead, row = List.replicate s.params.bpr sd.fill
  | .res => ∀ k < count, rowsRead[k]? = some (memBytes s.res (k * s.params.bpr) s.params.bpr)
  | .old => ∀ k < count, rowsRead[k]? = some (memBytes s.old (k * s.params.bpr) s.params.bpr)
  | .reader => ∀ row ∈ rowsRead, row.length = s.params.bpr

/-- The rows of `RES` (R85). -/
def resRows (s : State) : List (List Byte) :=
  (List.range s.params.segHeight).map fun k => memBytes s.res (k * s.params.bpr) s.params.bpr

/-- The rows of `OLD` (R86). -/
def oldRows (s : State) : List (List Byte) :=
  (List.range s.params.rows).map fun k => memBytes s.old (k * s.params.bpr) s.params.bpr

/-- `n` rows of a fixed fill (R147). -/
def fillRows (p : Params) (n : Nat) (fill : Byte) : List (List Byte) :=
  List.replicate n (List.replicate p.bpr fill)

/-- The answers of prompt collaborators to one row: the transport takes each byte, the reader takes the
request and answers `src`, no time passes before the busy poll, and the panel leaves busy at once or not
before the poll's bound. -/
def rowAnswers (p : Params) (st : Stage) (sd : SrcDesc) (r : Nat) (src : List Byte) (pr : PollResult) :
    Answers where
  busyIn := [pr == .timeout]
  txReady := List.replicate (rowFrame p st r src).length true
  rdReqReady := if sd.src = .reader then [true] else []
  rdData := if sd.src = .reader then src.map some else []
  tempIn := []
  elapsed := if pr = .timeout then [0, p.busyTimeoutMs] else [0]

/-- The prompt answers to the rows of a pass from row `r` on. -/
def rowsAnswers (p : Params) (st : Stage) (sd : SrcDesc) : Nat → List (List Byte) → Answers
  | _, [] => Answers.none
  | r, src :: rest => (rowAnswers p st sd r src .ok).append (rowsAnswers p st sd (r + 1) rest)

/-- The answer of the time base to one `Now()`. -/
def timeAnswer (d : Word) : Answers := { Answers.none with elapsed := [d] }

/-- The prompt answers to one pass of a stage that takes `d` milliseconds (R157). -/
def passAnswers (p : Params) (st : Stage) (sd : SrcDesc) (first : Nat) (src : List (List Byte)) (d : Word) :
    Answers :=
  Answers.join [timeAnswer 0, rowsAnswers p st sd first src, timeAnswer d]

/-- The prompt answers to a stage whose passes take the times `ds`; pass `i` reads the rows `srcs[i]`. -/
def stageAnswers (p : Params) (st : Stage) (sd : SrcDesc) (first : Nat) :
    List (List (List Byte) × Word) → Answers
  | [] => Answers.none
  | (src, d) :: rest => (passAnswers p st sd first src d).append (stageAnswers p st sd first rest)

/-- The events of a stage with these passes (R157). -/
def stageEvents (p : Params) (st : Stage) (sd : SrcDesc) (first : Nat)
    (passes : List (List (List Byte) × Word)) : List Event :=
  passes.flatMap fun q => rowsEvents p st sd first 0 q.1

/-- The elapsed time of a list of passes, in milliseconds. -/
def totalTime (passes : List (List (List Byte) × Word)) : Nat := (passes.map fun q => q.2.toNat).sum

/-- The source rows of the four stages of a sequence with one pass each. -/
structure FourPasses where
  compensate : List (List Byte)
  white : List (List Byte)
  inverse : List (List Byte)
  normal : List (List Byte)
  deriving DecidableEq, Repr

/-- The old image is read in the first two stages and the new one in the last two (R143, R158). -/
def sequenceRows (s : State) (sdOld sdNew : SrcDesc) (count : Nat) (f : FourPasses) : Prop :=
  sourceRows s sdOld count f.compensate ∧ sourceRows s sdOld count f.white ∧
  sourceRows s sdNew count f.inverse ∧ sourceRows s sdNew count f.normal

/-- The events of a four-stage sequence with one pass per stage (R158). -/
def sequenceEvents (p : Params) (sdOld sdNew : SrcDesc) (first : Nat) (f : FourPasses) : List Event :=
  rowsEvents p .compensate sdOld first 0 f.compensate ++ rowsEvents p .white sdOld first 0 f.white
    ++ rowsEvents p .inverse sdNew first 0 f.inverse ++ rowsEvents p .normal sdNew first 0 f.normal

/-- The prompt answers to a four-stage sequence whose passes take `d` milliseconds each. -/
def sequenceAnswers (p : Params) (sdOld sdNew : SrcDesc) (first : Nat) (f : FourPasses) (d : Word) :
    Answers :=
  Answers.join
    [passAnswers p .compensate sdOld first f.compensate d, passAnswers p .white sdOld first f.white d,
     passAnswers p .inverse sdNew first f.inverse d, passAnswers p .normal sdNew first f.normal d]

/-- The events of one action of a power sequence whose busy polls succeed (R160). -/
def actionEvents : PowerAction → List Event
  | .pin p v => [.pin p v]
  | .sleep n => [.sleep n]
  | .xfer bs => [.pin .cs false] ++ bs.map .tx ++ [.pin .cs true]
  | .waitBusy => [.busy .ok]

/-- The events of a power-off sequence whose busy polls end as they like: a timeout is ignored there
(R160, R162). -/
def powerOffTrace : List PowerAction → List Event → Prop
  | [], evs => evs = []
  | .waitBusy :: rest, evs => ∃ r tail, evs = .busy r :: tail ∧ powerOffTrace rest tail
  | a :: rest, evs => ∃ tail, evs = actionEvents a ++ tail ∧ powerOffTrace rest tail

/-- The answers of prompt collaborators to one action: a `SLEEP(n)` ends at its first look at the
counter, after `n` milliseconds. -/
def actionAnswers : PowerAction → Answers
  | .pin _ _ => Answers.none
  | .sleep n => { Answers.none with elapsed := [0, BitVec.ofNat 32 n] }
  | .xfer bs => { Answers.none with txReady := List.replicate bs.length true }
  | .waitBusy => { Answers.none with busyIn := [false], elapsed := [0] }

/-- The prompt answers to a power sequence. -/
def powerAnswers (actions : List PowerAction) : Answers := Answers.join (actions.map actionAnswers)

/-- The pins after an action (R33, R160). -/
def actionPins (pins : Pins) : PowerAction → Pins
  | .pin p v => setLevel p v pins
  | .sleep _ => pins
  | .xfer _ => setLevel .cs true pins
  | .waitBusy => pins

/-- Every `SLEEP` of a power sequence is shorter than the counter's range, so it can end (R160). -/
def sleepsFit (actions : List PowerAction) : Bool :=
  actions.all fun a => match a with
    | .sleep n => decide (n < 2 ^ 32)
    | _ => true

/-- The milliseconds that a list of answers of the time base adds to `ms`. -/
def totalElapsed (a : Answers) : Word := a.elapsed.foldl (fun sum d => sum + d) 0

/-- The pins after `count` rows: chip-select is high after a row (R152). -/
def rowsPins (count : Nat) (pins : Pins) : Pins := if count = 0 then pins else setLevel .cs true pins

/-! ### Drawing on buffers -/

/-- A canvas coordinate and a colour. -/
abbrev PixelCall := Int × Int × Bool

/-- What one `SET_PIXEL` does to the resident buffer of segment `seg` (R206). -/
def drawPixel (p : Params) (seg : Nat) (m : List Host.Cell) (call : PixelCall) : List Host.Cell :=
  match translate p seg call.1 call.2.1 with
  | .at byteIx mask => memWrite m byteIx (paintByte mask call.2.2 (memRead m byteIx))
  | .clipped => m
  | .outOfBounds => m

/-- A list of drawing calls on the white resident buffer of segment `seg` (R205, R206). -/
def drawAll (p : Params) (seg : Nat) (calls : List PixelCall) : List Host.Cell :=
  calls.foldl (drawPixel p seg) []

/-- The same panel without segmentation (R201). -/
def unsegmented (p : Params) : Params := { p with segHeight := p.rows }

end Sys2Proof.Machine
end

