-- ==== Sys2Proof/Certificates/Slice0/Obligations.lean ====
section
/-! DEFINITION. The statements for the provers. `exec i ((s.feed a).withGap g)` is command `i` written to
`CMD` when the collaborators are about to give the answers `a` and the host lets `g` sequencer ticks pass
before its next access; `there is n, for every g >= n` says that any host that waits long enough sees
the result. Where a statement gives `ms` afterwards, it rests on log entry 4 (DEDUCED: `ms` moves when
`Now()` reads it, by what the collaborators answer). -/

open Sys2Proof Sys2Proof.Machine

/-! ### Encoding -/

/-- 30_encoding.md R110 to R123: no bit of an operand is dropped. -/
def Obligations.DecodeOfEncodeIsTheCommand : Prop :=
  ∀ i : Instr, WellFormed i = true → decode (encode i) = .command i

/-- 30_encoding.md R110 to R125: a word that decodes is the one word of its command. -/
def Obligations.EncodeOfDecodeIsTheWord : Prop :=
  ∀ (w : Word) (i : Instr), decode w = .command i → encode i = w ∧ WellFormed i = true

/-- R123: the opcode map, with the match and mask of opcode_table.json; no other opcode has a command. -/
def Obligations.WordsDecodeByMatchAndMask : Prop :=
  (∀ row ∈ commandTable, ∀ w : Word,
    (∃ i, decode w = .command i ∧ opcodeOf i = row.1) ↔
      (w &&& row.2 = row.1.setWidth 32 ∧
        ¬(row.1 = 0x08 ∧ w.getLsbD 11 = false ∧ w.extractLsb' 9 2 ≠ 0))) ∧
  ∀ w : Word, 0x0D ≤ (w.extractLsb' 0 5).toNat → ∀ i, decode w ≠ .command i

/-- 95_test_vectors.md 3.1: one word of each format. -/
def Obligations.SpecWordsDecodeAsListed : Prop :=
  decode 0x00000004 = .command .sampleTemp ∧
  decode 0x00F90003 = .command (.setTemp 0xF9) ∧
  decode 0x00FF0026 = .command (.refreshRepeat .white .fixed 0xFF) ∧
  decode 0x00FF0007 = .command (.drvClear 0xFF) ∧
  decode 0x00000F88 = .command (.showImage .reader .reader true 0) ∧
  decode 0xFFFF0009 = .command (.selSeg 65535) ∧
  decode 0x005FFF2A = .command (.setPixel true 0xFFF 5) ∧
  decode 0x0000004B = .command (.display false true false)

/-! ### The host's accesses

`s.inputs.rstN = true` says that reset is not asserted, so that the block accepts the access (R270);
`ResetAbandonsTheCommand` is about accesses while it is. -/

/-- R35, R237: while reset is not asserted, a step at which the host writes a word that decodes runs that
command; so does one at which
a `wr CMD` is next in the host's program (R130). -/
def Obligations.StepRunsTheDecodedCommand : Prop :=
  ∀ (s : State) (w : Word) (i : Instr) (g : Nat), decode w = .command i → s.inputs.rstN = true →
    (∀ rest : List Move, s.inputs.moves = ⟨.write 0x00 w, g⟩ :: rest →
      step s = exec i { s with inputs := { s.inputs with moves := rest, gap := g } }) ∧
    (∀ rest : List HostLine, s.inputs.moves = [] → s.inputs.program = ⟨.wr 0x00 w, g⟩ :: rest →
      step s = exec i { s with inputs := { s.inputs with program := rest, gap := g } })

/-- R124, R125, and log entry 6 for "at once" (DEDUCED: within the write that launches it, with no tick
in between, so that `BUSY` is 0 right after it): a word with OP `0x0D` to `0x1F`, with a 1 in a reserved
bit of its format, or of the `SHOW_IMAGE` form with `HAS_OLD = 0` and `OLDSRC != 00` is illegal, and a
step at which the host writes it completes at once with `ILLEGAL_CMD`, emits only `Cmd(w)` and
`Done(ILLEGAL_CMD)`, and changes what launch and completion write and nothing else; so does that
`SHOW_IMAGE` form as an instruction. -/
def Obligations.IllegalWordCompletesAtOnce : Prop :=
  (∀ w : Word,
    (0x0D ≤ (w.extractLsb' 0 5).toNat → decode w = .illegal .reservedOpcode) ∧
    (∀ f, formatOf (w.extractLsb' 0 5) = some f → w &&& reservedMask f ≠ 0 →
      decode w = .illegal .reservedBits) ∧
    (w.extractLsb' 0 5 = 0x08 → w &&& 0xFF00F060 = 0 → w.getLsbD 11 = false →
      w.extractLsb' 9 2 ≠ 0 → decode w = .illegal .reservedForm)) ∧
  (∀ (s : State) (w : Word) (e : DecodeError) (g : Nat) (rest : List Move),
    decode w = .illegal e → s.inputs.rstN = true → s.inputs.moves = ⟨.write 0x00 w, g⟩ :: rest →
      s.busy = false →
      step s =
        .next (State.completed w .illegalCmd []
          { s with inputs := { s.inputs with moves := rest, gap := g } })) ∧
  (∀ (s : State) (newSrc oldSrc : Src) (fill : Byte), s.busy = false → oldSrc ≠ .fixed →
    exec (.showImage newSrc oldSrc false fill) s =
      .next (State.completed (encode (.showImage newSrc oldSrc false fill)) .illegalCmd [] s))

/-- R276: a `CMD` write while a command runs sets `OVERRUN`; the command runs on as if it had not come. -/
def Obligations.CommandWhileBusyIsDropped : Prop :=
  ∀ (s : State) (w : Word) (g : Nat) (rest : List Move),
    s.inputs.rstN = true → s.inputs.moves = ⟨.write 0x00 w, g⟩ :: rest → s.busy = true →
      step s = ticks g { s with overrun := true, inputs := { s.inputs with moves := rest, gap := g } } ∧
      ∀ t, step s = .next t →
        ∃ u, ticks g { s with inputs := { s.inputs with moves := rest, gap := g } } = .next u ∧
          t = { u with overrun := true }

/-- R34, R35, R81, R91: a host read puts the register's value on `reg_rdata`, 0 for `CMD`, and has no
other effect; an idle block then stays as it is. And R99, R130: at a `wait` the host reads `STATUS`; while it
reads `BUSY = 1` the `wait` stays next, and once it reads `BUSY = 0` the host goes on. (That ticks pass
between the reads is log entry 22.) -/
def Obligations.HostReadHasNoSideEffect : Prop :=
  (∀ (s : State) (g : Nat) (rest : List HostLine),
    s.inputs.rstN = true → s.inputs.moves = [] → s.inputs.program = ⟨.wait, g⟩ :: rest →
      (s.busy = true →
        step s = ticks (g + 1) { s with rdata := regRead 0x10 s, inputs := { s.inputs with gap := g } }) ∧
      (s.busy = false →
        step s =
          .next
            { s with rdata := regRead 0x10 s, inputs := { s.inputs with program := rest, gap := g } })) ∧
  ∀ (s : State) (a : BitVec 8) (g : Nat) (rest : List Move),
    s.inputs.rstN = true → s.inputs.moves = ⟨.read a, g⟩ :: rest →
      step s =
        ticks g { s with rdata := regRead a s, inputs := { s.inputs with moves := rest, gap := g } } ∧
      (s.busy = false →
        step s =
          .next { s with rdata := regRead a s, inputs := { s.inputs with moves := rest, gap := g } }) ∧
      (a = 0x00 → regRead a s = 0)

/-- R40, R120, R230: the fields of `STATUS` and the numbers they show. -/
def Obligations.StatusShowsItsFields : Prop :=
  ∀ s : State,
    (regRead 0x10 s).getLsbD 0 = s.busy ∧
    (regRead 0x10 s).getLsbD 1 = s.done ∧
    (regRead 0x10 s).getLsbD 2 = s.err ∧
    (regRead 0x10 s).getLsbD 3 = s.overrun ∧
    (regRead 0x10 s).extractLsb' 4 4 =
      (match s.errcode with
       | .ok => 0
       | .invalidConfig => 1
       | .deviceTimeout => 2
       | .outOfBoundsPixel => 3
       | .illegalCmd => 4
       | .illegalState => 5) ∧
    (regRead 0x10 s).extractLsb' 8 2 =
      (match s.pwr with
       | .off => 0
       | .on => 1
       | .fault => 2) ∧
    (regRead 0x10 s).getLsbD 10 = cfgOk s.params ∧
    (regRead 0x10 s).getLsbD 11 = false ∧
    (regRead 0x10 s).extractLsb' 12 2 =
      (match s.stage with
       | .compensate => 0
       | .white => 1
       | .inverse => 2
       | .normal => 3) ∧
    (regRead 0x10 s).extractLsb' 14 18 = 0

/-- R34, R42 to R49: the fields of the other read-only registers, and a host write to one, which is ignored.
That `SEGMENT[31:16]` shows `SEG_COUNT` is R44 against the values of 95_test_vectors.md (DEDUCED, log
entry 20). -/
def Obligations.ReadOnlyRegistersShowTheirFields : Prop :=
  ∀ (s : State) (v : Word) (g : Nat) (rest : List Move),
    ((regRead 0x14 s).extractLsb' 0 8 = s.tempC ∧ (regRead 0x14 s).extractLsb' 8 8 = 0 ∧
      (regRead 0x14 s).extractLsb' 16 16 = s.factor) ∧
    regRead 0x18 s = s.duration ∧
    ((regRead 0x1C s).extractLsb' 0 16 = s.seg ∧
      (s.params.segHeight ≠ 0 →
        (regRead 0x1C s).extractLsb' 16 16 = BitVec.ofNat 16 (s.params.rows / s.params.segHeight))) ∧
    regRead 0x20 s = s.passes ∧
    ((regRead 0x24 s).extractLsb' 0 16 = BitVec.ofNat 16 s.params.rows ∧
      (regRead 0x24 s).extractLsb' 16 16 = BitVec.ofNat 16 s.params.columns) ∧
    ((regRead 0x28 s).extractLsb' 0 16 = BitVec.ofNat 16 s.params.bpr ∧
      (regRead 0x28 s).extractLsb' 16 16 = BitVec.ofNat 16 s.params.bps) ∧
    ((regRead 0x2C s).extractLsb' 0 16 = BitVec.ofNat 16 s.params.segHeight ∧
      (regRead 0x2C s).getLsbD 16 = (s.params.compMode == .dualBuffer) ∧
      (regRead 0x2C s).getLsbD 17 = (s.params.tempSrc == .sensor) ∧
      (regRead 0x2C s).extractLsb' 18 14 = 0) ∧
    regRead 0x30 s = s.params.stageTimeMs ∧
    ∀ a ∈ ([0x14, 0x18, 0x1C, 0x20, 0x24, 0x28, 0x2C, 0x30] : List (BitVec 8)),
      s.inputs.rstN = true → s.inputs.moves = ⟨.write a v, g⟩ :: rest →
        step s = ticks g { s with inputs := { s.inputs with moves := rest, gap := g } }

/-- R36, R37, R38, R81: a host write to `RANGE`, `RDBASE` or `RDOLD` stores its value, which reads back,
and changes nothing else. -/
def Obligations.WritesReachTheReadWriteRegisters : Prop :=
  ∀ (s : State) (v : Word) (g : Nat) (rest : List Move),
    let after : State := { s with inputs := { s.inputs with moves := rest, gap := g } }
    (s.inputs.rstN = true → s.inputs.moves = ⟨.write 0x04 v, g⟩ :: rest →
      step s = ticks g { after with range := v }) ∧
    (s.inputs.rstN = true → s.inputs.moves = ⟨.write 0x08 v, g⟩ :: rest →
      step s = ticks g { after with rdbase := v }) ∧
    (s.inputs.rstN = true → s.inputs.moves = ⟨.write 0x0C v, g⟩ :: rest →
      step s = ticks g { after with rdold := v }) ∧
    regRead 0x04 { after with range := v } = v ∧
    regRead 0x08 { after with rdbase := v } = v ∧
    regRead 0x0C { after with rdold := v } = v

/-- R41: write-1-to-clear, a read of `STATUS`, and `DONE` at the completion of a command whose `DONE` bit
was cleared while it ran. -/
def Obligations.StatusWriteClearsTheNamedFlags : Prop :=
  ∀ (s : State) (v : Word) (g : Nat) (rest : List Move),
    let after : State := { s with inputs := { s.inputs with moves := rest, gap := g } }
    (s.inputs.rstN = true → s.inputs.moves = ⟨.write 0x10 v, g⟩ :: rest →
      step s =
        ticks g
          { after with
            done := if v.getLsbD 1 then false else s.done
            err := if v.getLsbD 2 then false else s.err
            overrun := if v.getLsbD 3 then false else s.overrun }) ∧
    (s.inputs.rstN = true → s.inputs.moves = ⟨.read 0x10, g⟩ :: rest →
      step s = ticks g { after with rdata := regRead 0x10 s }) ∧
    (s.busy = true → s.seq.todo = [] → ∃ t, tick s = .next t ∧ t.busy = false ∧ t.done = true)

/-- R82: a misaligned access and one to a reserved offset read 0, ignore the write, and set no flag. -/
def Obligations.MisalignedAndReservedAccessesDoNothing : Prop :=
  ∀ (s : State) (a : BitVec 8) (v : Word) (g : Nat) (rest : List Move),
    (a.extractLsb' 0 2 ≠ 0 ∨ 0x34 ≤ a.toNat) → s.inputs.rstN = true →
    let after : State := { s with inputs := { s.inputs with moves := rest, gap := g } }
    (s.inputs.moves = ⟨.read a, g⟩ :: rest → step s = ticks g { after with rdata := 0 }) ∧
    (s.inputs.moves = ⟨.write a v, g⟩ :: rest → step s = ticks g after)

/-- R57, R277: a launch latches the values that `RANGE`, `RDBASE` and `RDOLD` hold then; what the host
writes to them while the command runs changes nothing of its course and stays for the next command. -/
def Obligations.RunningCommandUsesLatchedArguments : Prop :=
  (∀ (i : Instr) (s t : State), s.busy = false → exec i s = .next t →
    t.lat = ⟨encode i, s.range.extractLsb' 0 16, s.range.extractLsb' 16 16, s.rdbase, s.rdold⟩) ∧
  (∀ (n : Nat) (s t : State) (range rdbase rdold : Word),
    ticks n s = .next t →
      ticks n (s.withHostRegs range rdbase rdold) = .next (t.withHostRegs range rdbase rdold))

/-- R62: "No command reads a flag. No flag changes what a later command does." -/
def Obligations.FlagsDoNotSteerCommands : Prop :=
  ∀ (i : Instr) (s t : State) (d e o : Bool) (c : Code),
    exec i s = .next t →
      ∃ d' e' o' c', exec i (s.withFlags d e o c) = .next (t.withFlags d' e' o' c')

/-! ### Reset -/

/-- R63: the reset values, for a block with any parameters; and what `STATUS` then reads. -/
def Obligations.ResetLeavesTheListedValues : Prop :=
  ∀ p : Params,
    (State.resetOf p).pwr = .off ∧ (State.resetOf p).seg = 0 ∧ (State.resetOf p).tempC = 25 ∧
    (State.resetOf p).factor = (if cfgOk p then 10 else 0) ∧
    (State.resetOf p).duration = (if cfgOk p then p.stageTimeMs else 0) ∧
    (∀ j, memRead (State.resetOf p).res j = 0x00) ∧ (∀ j, memRead (State.resetOf p).old j = 0x00) ∧
    (State.resetOf p).range = 0 ∧ (State.resetOf p).rdbase = 0 ∧ (State.resetOf p).rdold = 0 ∧
    regRead 0x10 (State.resetOf p) = (if cfgOk p then 0x400 else 0) ∧
    (State.resetOf p).passes = 0 ∧ (State.resetOf p).busy = false ∧
    (State.resetOf p).lat = ⟨0, 0, 0, 0, 0⟩ ∧
    (State.resetOf p).pins = ⟨false, false, false, false, false, false⟩ ∧
    (State.resetOf p).tx = none ∧ (State.resetOf p).rd = none ∧ (State.resetOf p).ms = 0 ∧
    (State.resetOf p).trace = []

/-- R270, R271: `rst_n` going to 0 at any time, also while a command runs, abandons it with no `Done`, and
leaves the reset state; the hidden accumulator alone is not reset (R246; log entries 8 and 13). While reset is
asserted an idle block accepts no access, neither a placed one nor one of the host's program, and stays as it
is; that it is in the reset state then is a part of `Inv`. `rst_n` going to 1 changes only its level. -/
def Obligations.ResetAbandonsTheCommand : Prop :=
  (∀ (s : State) (g : Nat) (rest : List Move),
    s.inputs.moves = ⟨.rstN false, g⟩ :: rest →
      step s =
        .next
          { State.resetOf s.params with
            acc := s.acc
            inputs := { s.inputs with rstN := false, moves := rest, gap := g } }) ∧
  (∀ (s : State) (a : BitVec 8) (v : Word) (g : Nat), s.inputs.rstN = false → s.busy = false →
    (∀ rest : List Move,
      s.inputs.moves = ⟨.write a v, g⟩ :: rest ∨ s.inputs.moves = ⟨.read a, g⟩ :: rest →
        step s = .next { s with inputs := { s.inputs with moves := rest, gap := g } }) ∧
    (∀ rest : List HostLine, s.inputs.moves = [] →
      s.inputs.program = ⟨.wr a v, g⟩ :: rest ∨ s.inputs.program = ⟨.rd a, g⟩ :: rest →
        step s = .next { s with inputs := { s.inputs with program := rest, gap := g } })) ∧
  (∀ (s : State) (g : Nat) (rest : List Move),
    s.inputs.moves = ⟨.rstN true, g⟩ :: rest → s.busy = false →
      step s = .next { s with inputs := { s.inputs with rstN := true, moves := rest, gap := g } })

/-- The invariant holds after reset, for a block with any parameters. -/
def Obligations.ResetMeetsTheInvariant : Prop := ∀ p : Params, Inv (State.resetOf p)

/-! ### Commands without port traffic -/

/-- R165: `NOP` completes with `OK` and changes nothing, also when `CFG_OK = 0`. -/
def Obligations.NopCompletes : Prop :=
  ∀ s : State, s.busy = false → 1 ≤ s.inputs.gap →
    exec .nop s = .next (State.completed 0x00000000 .ok [] s)

/-- R168: `SET_TEMP` writes the temperature, its factor and the exact duration, with no event. -/
def Obligations.SetTempCompletes : Prop :=
  ∀ (s : State) (temp : BitVec 8), s.busy = false → cfgOk s.params = true → 2 ≤ s.inputs.gap →
    ∃ factor duration,
      exec (.setTemp temp) s =
        .next (State.completed (encode (.setTemp temp)) .ok []
          { s with tempC := temp, factor := factor, duration := duration }) ∧
      factor.toNat = tempFactor s.params temp ∧
      duration.toNat = s.params.stageTimeMs.toNat * tempFactor s.params temp / 10

/-- R169: with `TEMP_SRC = FIXED` the result is that of `FIXED_TEMP`, whatever `temp_in` shows; with
`SENSOR` it is that of the one sample `t`, which one event reports. -/
def Obligations.SampleTempCompletes : Prop :=
  ∀ (s : State) (t : BitVec 8), s.busy = false → cfgOk s.params = true → 2 ≤ s.inputs.gap →
    ∃ factor duration,
      (s.params.tempSrc = .fixed →
        exec .sampleTemp s =
          .next (State.completed 0x00000004 .ok []
            { s with tempC := s.params.fixedTemp, factor := factor, duration := duration }) ∧
        factor.toNat = tempFactor s.params s.params.fixedTemp ∧
        duration.toNat = s.params.stageTimeMs.toNat * tempFactor s.params s.params.fixedTemp / 10) ∧
      (s.params.tempSrc = .sensor →
        exec .sampleTemp (s.feed { Answers.none with tempIn := [t] }) =
          .next (State.completed 0x00000004 .ok [.tempSample t]
            { s with tempC := t, factor := factor, duration := duration }) ∧
        factor.toNat = tempFactor s.params t ∧
        duration.toNat = s.params.stageTimeMs.toNat * tempFactor s.params t / 10)

/-- R205: `SEL_SEG` selects the segment and clears `RES`, whatever it held; an index at or beyond
`SEG_COUNT` is `INVALID_CONFIG`, and `seg` and `RES` are unchanged. -/
def Obligations.SelSegSelectsAndClears : Prop :=
  ∀ (s : State) (index : BitVec 16), s.busy = false → cfgOk s.params = true → 2 ≤ s.inputs.gap →
    (index.toNat < s.params.rows / s.params.segHeight →
      ∃ t, exec (.selSeg index) s = .next t ∧
        t = State.completed (encode (.selSeg index)) .ok [] { s with seg := index, res := t.res } ∧
        ∀ j, memRead t.res j = 0x00) ∧
    (s.params.rows / s.params.segHeight ≤ index.toNat →
      exec (.selSeg index) s = .next (State.completed (encode (.selSeg index)) .invalidConfig [] s))

/-- R94, R206: an in-segment `SET_PIXEL` sets or clears exactly its bit; every other byte of `RES` reads
as before. So it does to `RES` what `drawPixel` does. -/
def Obligations.SetPixelPaintsOneBit : Prop :=
  ∀ (s : State) (black : Bool) (x y : BitVec 12), s.busy = false → cfgOk s.params = true →
    0 ≤ x.toInt → x.toInt < s.params.columns → 0 ≤ y.toInt → y.toInt < s.params.rows →
    (s.seg.toNat * s.params.segHeight : Nat) ≤ y.toInt →
    y.toInt < (s.seg.toNat * s.params.segHeight + s.params.segHeight : Nat) → 2 ≤ s.inputs.gap →
    ∃ t, exec (.setPixel black x y) s = .next t ∧
      t = State.completed (encode (.setPixel black x y)) .ok [] { s with res := t.res } ∧
      (∀ j bitIx, bitIx < 8 →
        (memRead t.res j).getLsbD bitIx =
          if j = x.toNat / 8 + (y.toNat - s.seg.toNat * s.params.segHeight) * s.params.bpr ∧
              bitIx = x.toNat % 8
          then black else (memRead s.res j).getLsbD bitIx) ∧
      (∀ j, memRead t.res j = memRead (drawPixel s.params s.seg.toNat s.res (x.toInt, y.toInt, black)) j)

/-- R92, R93, R206: a pixel outside the canvas is `OUT_OF_BOUNDS_PIXEL`, also when it is outside the
segment; one inside the canvas and outside the segment completes with `OK`; neither changes anything, and
neither does `drawPixel`. -/
def Obligations.SetPixelOutsideTheSegmentPaintsNothing : Prop :=
  ∀ (s : State) (black : Bool) (x y : BitVec 12), s.busy = false → cfgOk s.params = true →
    1 ≤ s.inputs.gap →
    ((x.toInt < 0 ∨ (s.params.columns : Int) ≤ x.toInt ∨ y.toInt < 0 ∨ (s.params.rows : Int) ≤ y.toInt) →
      exec (.setPixel black x y) s =
        .next (State.completed (encode (.setPixel black x y)) .outOfBoundsPixel [] s)) ∧
    (0 ≤ x.toInt → x.toInt < s.params.columns → 0 ≤ y.toInt → y.toInt < s.params.rows →
      (y.toInt < (s.seg.toNat * s.params.segHeight : Nat) ∨
        (s.seg.toNat * s.params.segHeight + s.params.segHeight : Nat) ≤ y.toInt) →
      exec (.setPixel black x y) s =
        .next (State.completed (encode (.setPixel black x y)) .ok [] s)) ∧
    ((x.toInt < 0 ∨ (s.params.columns : Int) ≤ x.toInt ∨ y.toInt < 0 ∨ (s.params.rows : Int) ≤ y.toInt ∨
        y.toInt < (s.seg.toNat * s.params.segHeight : Nat) ∨
        (s.seg.toNat * s.params.segHeight + s.params.segHeight : Nat) ≤ y.toInt) →
      ∀ j, memRead (drawPixel s.params s.seg.toNat s.res (x.toInt, y.toInt, black)) j = memRead s.res j)

/-- R217 (a), (b), on `drawPixel`, which is what `SET_PIXEL` does to `RES` (`SetPixelPaintsOneBit`,
`SetPixelOutsideTheSegmentPaintsNothing`): setting a pixel twice to one colour is setting it once; black
then white on an in-segment pixel gives the buffer that white alone gives, so the bit of a white pixel is
restored. -/
def Obligations.SetPixelIsIdempotent : Prop :=
  ∀ (p : Params) (seg : Nat) (m : List Host.Cell) (x y : Int) (black : Bool) (j : Nat),
    memRead (drawPixel p seg (drawPixel p seg m (x, y, black)) (x, y, black)) j =
      memRead (drawPixel p seg m (x, y, black)) j ∧
    memRead (drawPixel p seg (drawPixel p seg m (x, y, true)) (x, y, false)) j =
      memRead (drawPixel p seg m (x, y, false)) j

/-! ### Power -/

/-- R161, R166: `PWR_ON` from `OFF` performs the actions of `POWER_ON_SEQ` in order and ends in `ON`. -/
def Obligations.PwrOnCompletes : Prop :=
  ∀ s : State, Ready s → s.pwr = .off → sleepsFit s.params.powerOnSeq = true →
    ∃ n, ∀ g ≥ n,
      exec .pwrOn ((s.feed (powerAnswers s.params.powerOnSeq)).withGap g) =
        .next (State.completed 0x00000001 .ok (s.params.powerOnSeq.flatMap actionEvents)
          { s.withGap g with
            pwr := .on
            pins := s.params.powerOnSeq.foldl actionPins s.pins
            ms := s.ms + totalElapsed (powerAnswers s.params.powerOnSeq) })

/-- R161, R166, R233: a busy timeout of a `WAITBUSY` of the power-on gives `FAULT` and
`DEVICE_TIMEOUT`; the actions before it have been performed, those after it have not. -/
def Obligations.PwrOnTimeoutLeavesFault : Prop :=
  ∀ (s : State) (pre post : List PowerAction), Ready s → s.pwr = .off →
    s.params.powerOnSeq = pre ++ .waitBusy :: post → sleepsFit pre = true →
    ∃ n, ∀ g ≥ n,
      exec .pwrOn
          ((s.feed ((powerAnswers pre).append
            { Answers.none with busyIn := [true], elapsed := [0, s.params.busyTimeoutMs] })).withGap g) =
        .next (State.completed 0x00000001 .deviceTimeout (pre.flatMap actionEvents ++ [.busy .timeout])
          { s.withGap g with
            pwr := .fault
            pins := pre.foldl actionPins s.pins
            ms := s.ms + totalElapsed (powerAnswers pre) + s.params.busyTimeoutMs })

/-- R162, R167: `PWR_OFF` from `ON` or `FAULT` performs the whole of `POWER_OFF_SEQ` and ends in `OFF`; from
`OFF` it is a no-op with no event. -/
def Obligations.PwrOffTearsDown : Prop :=
  ∀ s : State, Ready s →
    (s.pwr ≠ .off → sleepsFit s.params.powerOffSeq = true →
      ∃ n, ∀ g ≥ n,
        exec .pwrOff ((s.feed (powerAnswers s.params.powerOffSeq)).withGap g) =
          .next (State.completed 0x00000002 .ok (s.params.powerOffSeq.flatMap actionEvents)
            { s.withGap g with
              pwr := .off
              pins := s.params.powerOffSeq.foldl actionPins s.pins
              ms := s.ms + totalElapsed (powerAnswers s.params.powerOffSeq) })) ∧
    (s.pwr = .off → 2 ≤ s.inputs.gap → exec .pwrOff s = .next (State.completed 0x00000002 .ok [] s))

/-- R162, R167, R233: whatever the collaborators answer, a `PWR_OFF` that completes has not failed. -/
def Obligations.PwrOffNeverFails : Prop :=
  ∀ s t : State, s.busy = false → cfgOk s.params = true → exec .pwrOff s = .next t → t.busy = false →
    t.errcode = .ok ∧ t.err = s.err ∧ t.pwr = .off

/-- R50, R256: the moves of `pwr` and their causes. (1) A tick that makes it `ON` is the last action of a
`PowerOn` from `OFF`, one that makes it `OFF` the last of a `PowerOff`, one that makes it `FAULT` a busy
timeout, and none goes from `FAULT` to `ON`. (2) Such a last action comes into a position only where
`PowerOn` or `PowerOff` begins, (3) after all actions of its sequence. (4) An access of the host keeps
`pwr` and brings no last action in; a reset makes it `OFF`. (5) A step is such an access and then ticks. -/
def Obligations.PowerMovesOnlyAsListed : Prop :=
  (∀ s t : State, Inv s → tick s = .next t →
    pwrMoveOk s.pwr t.pwr = true ∧
    (s.pwr ≠ t.pwr → t.pwr = .on → s.pwr = .off ∧ s.seq.todo.head? = some (.setPwr .on)) ∧
    (s.pwr ≠ t.pwr → t.pwr = .off → s.seq.todo.head? = some (.setPwr .off)) ∧
    (s.pwr ≠ t.pwr → t.pwr = .fault →
      (∃ t0, s.seq.todo.head? = some (.polling t0 true)) ∧ t.trace = s.trace ++ [.busy .timeout])) ∧
  (∀ (s t : State) (v : Pwr), tick s = .next t → .setPwr v ∈ t.seq.todo →
    .setPwr v ∈ s.seq.todo ∨ .setPwr v ∈ s.seq.onTimeout ∨
    (v = .on ∧ s.seq.todo.head? = some .powerOn) ∨ (v = .off ∧ s.seq.todo.head? = some .powerOff)) ∧
  (∀ (s : State) (rest : List Micro), s.busy = true →
    (s.seq.todo = .powerOn :: rest →
      tick s =
        .next (s.setTodo (s.params.powerOnSeq.map (fun a => .perform a true) ++ .setPwr .on :: rest))) ∧
    (s.seq.todo = .powerOff :: rest → s.pwr ≠ .off →
      tick s =
        .next (s.setTodo (s.params.powerOffSeq.map (fun a => .perform a false) ++ .setPwr .off :: rest)))) ∧
  (∀ (s t : State) (a : Access) (rest : List Move), s.inputs.moves = ⟨a, 0⟩ :: rest → step s = .next t →
    t.pwr = (if a = .rstN false then .off else s.pwr) ∧
    ∀ v, .setPwr v ∈ t.seq.todo ∨ .setPwr v ∈ t.seq.onTimeout →
      .setPwr v ∈ s.seq.todo ∨ .setPwr v ∈ s.seq.onTimeout) ∧
  (∀ (s : State) (a : Access) (g : Nat) (rest : List Move), s.inputs.moves = ⟨a, g⟩ :: rest →
    step s =
      andThen (step { s with inputs := { s.inputs with moves := ⟨a, 0⟩ :: rest } })
        (fun u => ticks g (u.withGap g)))

/-! ### Refreshes -/

/-- R152, R156, R170: `REFRESH_ONCE` sends the rows of the range in increasing order, each from its
source row, from every kind of source; and what a row frame (R151) and a reader address (R148) are. -/
def Obligations.RefreshOnceCompletes : Prop :=
  (∀ (p : Params) (st : Stage) (r : Nat) (src : List Byte),
    rowFrame p st r src = p.gateSource ++ p.rowPrefix ++ payload p st r src ++ p.channelSelect) ∧
  (∀ (p : Params) (base : Word) (k : Nat),
    (readerAddr p base k).toNat = (base.toNat + k * p.bpr) % 2 ^ 32) ∧
  ∀ (s : State) (st : Stage) (src : Src) (fill : Byte) (rowsRead : List (List Byte)),
    Ready s → s.pwr = .on → rangeOk s.params (rangeFirst s) (rangeCount s) src = true →
    sourceRows s ⟨src, fill, s.rdbase⟩ (rangeCount s) rowsRead →
    ∃ n, ∀ g ≥ n,
      exec (.refreshOnce st src fill)
          ((s.feed (rowsAnswers s.params st ⟨src, fill, s.rdbase⟩ (rangeFirst s) rowsRead)).withGap g) =
        .next (State.completed (encode (.refreshOnce st src fill)) .ok
          (rowsEvents s.params st ⟨src, fill, s.rdbase⟩ (rangeFirst s) 0 rowsRead)
          { s.withGap g with
            stage := st
            passes := 1
            pins := rowsPins (rangeCount s) s.pins
            ms := s.ms + totalElapsed
              (rowsAnswers s.params st ⟨src, fill, s.rdbase⟩ (rangeFirst s) rowsRead) })

/-- R157, R171: `REFRESH_REPEAT` runs passes until their own times add up to `duration`, and not one
more; `PASSES` counts them. Each pass of a reader source reads its rows anew. -/
def Obligations.RefreshRepeatRunsUntilDuration : Prop :=
  ∀ (s : State) (st : Stage) (src : Src) (fill : Byte) (before : List (List (List Byte) × Word))
    (last : List (List Byte) × Word),
    Ready s → s.pwr = .on → rangeOk s.params (rangeFirst s) (rangeCount s) src = true →
    (∀ q ∈ before ++ [last], sourceRows s ⟨src, fill, s.rdbase⟩ (rangeCount s) q.1) →
    (before = [] ∨ totalTime before < s.duration.toNat) →
    s.duration.toNat ≤ totalTime (before ++ [last]) →
    ∃ n, ∀ g ≥ n,
      exec (.refreshRepeat st src fill)
          ((s.feed (stageAnswers s.params st ⟨src, fill, s.rdbase⟩ (rangeFirst s)
            (before ++ [last]))).withGap g) =
        .next (State.completed (encode (.refreshRepeat st src fill)) .ok
          (stageEvents s.params st ⟨src, fill, s.rdbase⟩ (rangeFirst s) (before ++ [last]))
          { s.withGap g with
            stage := st
            passes := BitVec.ofNat 32 (min (before.length + 1) (2 ^ 32 - 1))
            acc := BitVec.ofNat 32 (min (totalTime (before ++ [last])) (2 ^ 32 - 1))
            pins := rowsPins (rangeCount s) s.pins
            ms := s.ms + totalElapsed
              (stageAnswers s.params st ⟨src, fill, s.rdbase⟩ (rangeFirst s) (before ++ [last])) })

/-- R158, R172: `DRV_CLEAR` runs the four stages in order over the range with the fill; here each stage
takes one pass of `d` milliseconds, at least `duration`. -/
def Obligations.DrvClearCompletes : Prop :=
  ∀ (s : State) (fill : Byte) (d : Word), Ready s → s.pwr = .on →
    rangeFirst s + rangeCount s ≤ s.params.rows → s.duration.toNat ≤ d.toNat →
    let sd : SrcDesc := ⟨.fixed, fill, 0⟩
    let rowsRead := fillRows s.params (rangeCount s) fill
    let f : FourPasses := ⟨rowsRead, rowsRead, rowsRead, rowsRead⟩
    let a := sequenceAnswers s.params sd sd (rangeFirst s) f d
    ∃ n, ∀ g ≥ n,
      exec (.drvClear fill) ((s.feed a).withGap g) =
        .next (State.completed (encode (.drvClear fill)) .ok
          (sequenceEvents s.params sd sd (rangeFirst s) f)
          { s.withGap g with
            stage := .normal
            passes := 1
            acc := d
            pins := rowsPins (rangeCount s) s.pins
            ms := s.ms + totalElapsed a })

/-- R158, R173: `SHOW_IMAGE` reads the old image in the first two stages and the new one in the last two;
without an old image it compensates with the new one. -/
def Obligations.ShowImageCompletes : Prop :=
  ∀ (s : State) (newSrc oldSrc : Src) (hasOld : Bool) (fill : Byte) (f : FourPasses) (d : Word),
    Ready s → s.pwr = .on → WellFormed (.showImage newSrc oldSrc hasOld fill) = true →
    rangeOk s.params (rangeFirst s) (rangeCount s) newSrc = true →
    (hasOld = true → rangeOk s.params (rangeFirst s) (rangeCount s) oldSrc = true) →
    let sdNew : SrcDesc := ⟨newSrc, fill, s.rdbase⟩
    let sdOld : SrcDesc := if hasOld then ⟨oldSrc, fill, s.rdold⟩ else sdNew
    let a := sequenceAnswers s.params sdOld sdNew (rangeFirst s) f d
    sequenceRows s sdOld sdNew (rangeCount s) f → s.duration.toNat ≤ d.toNat →
    ∃ n, ∀ g ≥ n,
      exec (.showImage newSrc oldSrc hasOld fill) ((s.feed a).withGap g) =
        .next (State.completed (encode (.showImage newSrc oldSrc hasOld fill)) .ok
          (sequenceEvents s.params sdOld sdNew (rangeFirst s) f)
          { s.withGap g with
            stage := .normal
            passes := 1
            acc := d
            pins := rowsPins (rangeCount s) s.pins
            ms := s.ms + totalElapsed a })

/-- R207 in `ALWAYS_CLEAR`: with `CLEAR_FIRST`, the clear and then the image erased from the fill; without
it, the image compensated with itself; over the segment's rows, inside the power bracket that the flags
ask for. `RES` is unchanged. -/
def Obligations.DisplayShowsTheSegment : Prop :=
  ∀ (s : State) (cf on off : Bool) (d : Word),
    Ready s → s.params.compMode = .alwaysClear → s.pwr = (if on then .off else .on) →
    sleepsFit s.params.powerOnSeq = true → sleepsFit s.params.powerOffSeq = true →
    s.duration.toNat ≤ d.toNat →
    let p := s.params
    let lo := s.seg.toNat * p.segHeight
    let fix0 : SrcDesc := ⟨.fixed, 0, 0⟩
    let resd : SrcDesc := ⟨.res, 0, 0⟩
    let z := fillRows p p.segHeight 0
    let img := resRows s
    let clear : FourPasses := ⟨z, z, z, z⟩
    let image : FourPasses := if cf then ⟨z, z, img, img⟩ else ⟨img, img, img, img⟩
    let erase := if cf then fix0 else resd
    let a := Answers.join
      [if on then powerAnswers p.powerOnSeq else Answers.none,
       if cf then sequenceAnswers p fix0 fix0 lo clear d else Answers.none,
       sequenceAnswers p erase resd lo image d,
       if off then powerAnswers p.powerOffSeq else Answers.none]
    ∃ n, ∀ g ≥ n,
      exec (.display cf on off) ((s.feed a).withGap g) =
        .next (State.completed (encode (.display cf on off)) .ok
          ((if on then p.powerOnSeq.flatMap actionEvents else [])
            ++ (if cf then sequenceEvents p fix0 fix0 lo clear else [])
            ++ sequenceEvents p erase resd lo image
            ++ (if off then p.powerOffSeq.flatMap actionEvents else []))
          { s.withGap g with
            pwr := if off then .off else .on
            stage := .normal
            passes := 1
            acc := d
            pins :=
              (if off then p.powerOffSeq else []).foldl actionPins
                (setLevel .cs true ((if on then p.powerOnSeq else []).foldl actionPins s.pins))
            ms := s.ms + totalElapsed a })

/-- R207, R209 in `DUAL_BUFFER`: `CLEAR_FIRST` is ignored, the transition goes from `OLD` to `RES` over
all rows, and then `OLD` is a copy of `RES`, before the power-off. -/
def Obligations.DisplayCompensatesFromOld : Prop :=
  ∀ (s : State) (cf on off : Bool) (d : Word),
    Ready s → s.params.compMode = .dualBuffer → s.pwr = (if on then .off else .on) →
    sleepsFit s.params.powerOnSeq = true → sleepsFit s.params.powerOffSeq = true →
    s.duration.toNat ≤ d.toNat →
    let p := s.params
    let oldd : SrcDesc := ⟨.old, 0, 0⟩
    let resd : SrcDesc := ⟨.res, 0, 0⟩
    let f : FourPasses := ⟨oldRows s, oldRows s, resRows s, resRows s⟩
    let a := Answers.join
      [if on then powerAnswers p.powerOnSeq else Answers.none,
       sequenceAnswers p oldd resd 0 f d,
       if off then powerAnswers p.powerOffSeq else Answers.none]
    ∃ n, ∀ g ≥ n,
      exec (.display cf on off) ((s.feed a).withGap g) =
        .next (State.completed (encode (.display cf on off)) .ok
          ((if on then p.powerOnSeq.flatMap actionEvents else [])
            ++ sequenceEvents p oldd resd 0 f
            ++ (if off then p.powerOffSeq.flatMap actionEvents else []))
          { s.withGap g with
            pwr := if off then .off else .on
            old := s.res
            stage := .normal
            passes := 1
            acc := d
            pins :=
              (if off then p.powerOffSeq else []).foldl actionPins
                (setLevel .cs true ((if on then p.powerOnSeq else []).foldl actionPins s.pins))
            ms := s.ms + totalElapsed a })

/-- R208: `FB_CLEAR` erases all rows with fill 0 and then whitens `RES`, and `OLD` where it exists. -/
def Obligations.FbClearErasesThePanel : Prop :=
  ∀ (s : State) (d : Word), Ready s → s.pwr = .on → s.duration.toNat ≤ d.toNat →
    let p := s.params
    let fix0 : SrcDesc := ⟨.fixed, 0, 0⟩
    let z := fillRows p p.rows 0
    let f : FourPasses := ⟨z, z, z, z⟩
    let a := sequenceAnswers p fix0 fix0 0 f d
    ∃ n, ∀ g ≥ n, ∃ t,
      exec .fbClear ((s.feed a).withGap g) = .next t ∧
      t = State.completed 0x0000000C .ok (sequenceEvents p fix0 fix0 0 f)
          { s.withGap g with
            res := t.res
            old := t.old
            stage := .normal
            passes := 1
            acc := d
            pins := setLevel .cs true s.pins
            ms := s.ms + totalElapsed a } ∧
      (∀ j, memRead t.res j = 0x00) ∧
      (if p.compMode = .dualBuffer then ∀ j, memRead t.old j = 0x00 else t.old = s.old)

/-! ### Errors -/

/-- R153, R154, R173, R238: the driver commands check the configuration, then the range against each of
their sources, then the power state, and report the first that fails, with no event and no change of
state. The last clause says that `rangeOk` is the conditions of R153. -/
def Obligations.DriverChecksComeInOrder : Prop :=
  ∀ (s : State) (i : Instr) (srcs : List Src),
    ((∃ st src fill, (i = .refreshOnce st src fill ∨ i = .refreshRepeat st src fill) ∧ srcs = [src]) ∨
      (∃ fill, i = .drvClear fill ∧ srcs = [.fixed]) ∨
      (∃ newSrc fill, i = .showImage newSrc .fixed false fill ∧ srcs = [newSrc]) ∨
      (∃ newSrc oldSrc fill, i = .showImage newSrc oldSrc true fill ∧ srcs = [newSrc, oldSrc])) →
    s.busy = false → 1 ≤ s.inputs.gap →
    let rangeBad : Prop :=
      s.params.rows < rangeFirst s + rangeCount s ∨
      (.res ∈ srcs ∧ s.params.segHeight < rangeCount s) ∨
      (.old ∈ srcs ∧ s.params.compMode = .alwaysClear)
    (cfgOk s.params = false → exec i s = .next (State.completed (encode i) .invalidConfig [] s)) ∧
    (cfgOk s.params = true → rangeBad →
      exec i s = .next (State.completed (encode i) .invalidConfig [] s)) ∧
    (cfgOk s.params = true → ¬rangeBad → s.pwr ≠ .on →
      exec i s = .next (State.completed (encode i) .illegalState [] s)) ∧
    (rangeBad ↔ ∃ src ∈ srcs, rangeOk s.params (rangeFirst s) (rangeCount s) src = false)

/-- R235: `PWR_ON`, `DISPLAY` and `FB_CLEAR` are `ILLEGAL_STATE` in a power state they do not run in. -/
def Obligations.WrongPowerStateIsRefused : Prop :=
  ∀ (s : State) (i : Instr), s.busy = false → cfgOk s.params = true → 1 ≤ s.inputs.gap →
    ((i = .pwrOn ∧ s.pwr ≠ .off) ∨ (i = .fbClear ∧ s.pwr ≠ .on) ∨
      (∃ cf on off, i = .display cf on off ∧ s.pwr ≠ (if on then .off else .on))) →
    exec i s = .next (State.completed (encode i) .illegalState [] s)

/-- R232 (a), R273: with `CFG_OK = 0`, every command but `NOP` is `INVALID_CONFIG` and has no effect. -/
def Obligations.MisconfiguredBlockRefusesCommands : Prop :=
  ∀ (s : State) (i : Instr), cfgOk s.params = false → WellFormed i = true → i ≠ .nop → s.busy = false →
    1 ≤ s.inputs.gap → exec i s = .next (State.completed (encode i) .invalidConfig [] s)

/-- R152, R159, for `REFRESH_ONCE` (`NothingIsSentAfterATimeout` is about every command): a busy timeout
after a row ends the pass there: the rows before it have been sent, the rows after it are not, `pwr` is
`FAULT`, and nothing is retried. -/
def Obligations.RowTimeoutEndsTheCommand : Prop :=
  ∀ (s : State) (st : Stage) (src : Src) (fill : Byte) (good : List (List Byte)) (bad : List Byte),
    Ready s → s.pwr = .on → rangeOk s.params (rangeFirst s) (rangeCount s) src = true →
    good.length < rangeCount s →
    sourceRows s ⟨src, fill, s.rdbase⟩ (good.length + 1) (good ++ [bad]) →
    let p := s.params
    let sd : SrcDesc := ⟨src, fill, s.rdbase⟩
    let a := (rowsAnswers p st sd (rangeFirst s) good).append
      (rowAnswers p st sd (rangeFirst s + good.length) bad .timeout)
    ∃ n, ∀ g ≥ n,
      exec (.refreshOnce st src fill) ((s.feed a).withGap g) =
        .next (State.completed (encode (.refreshOnce st src fill)) .deviceTimeout
          (rowsEvents p st sd (rangeFirst s) 0 good
            ++ rowEvents p st sd (rangeFirst s + good.length) good.length bad .timeout)
          { s.withGap g with
            pwr := .fault
            stage := st
            passes := 1
            pins := setLevel .cs true s.pins
            ms := s.ms + totalElapsed a })

/-- R239: whatever the collaborators answer, a command that completes with `DEVICE_TIMEOUT` leaves `pwr`
in `FAULT` (a `DISPLAY` with `DO_PWR_OFF` in `OFF`) and `RES` and `OLD` as they were; one that completes
with another error has changed no state and emitted nothing between `Cmd` and `Done`. -/
def Obligations.ErrorsLeaveTheListedState : Prop :=
  ∀ (s t : State) (i : Instr), s.busy = false → exec i s = .next t → t.busy = false →
    (t.errcode = .deviceTimeout →
      t.pwr = (match i with
        | .display _ _ true => .off
        | _ => .fault) ∧
      t.res = s.res ∧ t.old = s.old) ∧
    (t.errcode ≠ .ok → t.errcode ≠ .deviceTimeout →
      t = State.completed (encode i) t.errcode [] s)

/-! ### Frames -/

/-- R57, R60, R91: no command writes a parameter, `RANGE`, `RDBASE`, `RDOLD` or the host's read data, and
none changes what the host does next. -/
def Obligations.CommandsKeepHostRegisters : Prop :=
  ∀ (i : Instr) (s t : State), exec i s = .next t →
    t.params = s.params ∧ t.range = s.range ∧ t.rdbase = s.rdbase ∧ t.rdold = s.rdold ∧
    t.rdata = s.rdata ∧ t.inputs.moves = s.inputs.moves ∧ t.inputs.gap = s.inputs.gap ∧
    t.inputs.program = s.inputs.program ∧ t.inputs.outOfBounds = s.inputs.outOfBounds

/-- R51: only `SEL_SEG` writes `seg`. -/
def Obligations.OnlySelSegWritesTheSegment : Prop :=
  ∀ (i : Instr) (s t : State), s.busy = false → exec i s = .next t →
    (∀ index, i ≠ .selSeg index) → t.seg = s.seg

/-- R52, R145: only `SET_TEMP` and `SAMPLE_TEMP` write `temp_c`, `factor` and `duration`. -/
def Obligations.OnlyTemperatureCommandsWriteIt : Prop :=
  ∀ (i : Instr) (s t : State), s.busy = false → exec i s = .next t →
    (∀ temp, i ≠ .setTemp temp) → i ≠ .sampleTemp →
    t.tempC = s.tempC ∧ t.factor = s.factor ∧ t.duration = s.duration

/-- R202: only `SET_PIXEL`, `SEL_SEG` and `FB_CLEAR` change `RES`, and only `DISPLAY` and `FB_CLEAR`
change `OLD`; every byte of the buffers is as before for all other commands. -/
def Obligations.OnlyListedCommandsWriteTheBuffers : Prop :=
  ∀ (i : Instr) (s t : State), s.busy = false → exec i s = .next t →
    ((∀ black x y, i ≠ .setPixel black x y) → (∀ index, i ≠ .selSeg index) → i ≠ .fbClear →
      t.res = s.res ∧ ∀ j, memRead t.res j = memRead s.res j) ∧
    ((∀ cf on off, i ≠ .display cf on off) → i ≠ .fbClear →
      t.old = s.old ∧ ∀ j, memRead t.old j = memRead s.old j)

/-- R33, R50, R168, R205, R206: the commands that touch no port leave the pins, the ports, the power
state and the refresh counters alone, and emit only `Cmd` and `Done`. That `ms` stays too is the model's
reading of R61 and R245 (DEDUCED, log entry 4: it moves when `Now()` reads it, and they do not). -/
def Obligations.QuietCommandsDriveNoPort : Prop :=
  ∀ (i : Instr) (s t : State) (temp : BitVec 8) (index : BitVec 16) (black : Bool) (x y : BitVec 12),
    i ∈ [.nop, .setTemp temp, .selSeg index, .setPixel black x y] →
    s.busy = false → exec i s = .next t →
    t.pins = s.pins ∧ t.tx = s.tx ∧ t.rd = s.rd ∧ t.pwr = s.pwr ∧ t.stage = s.stage ∧
    t.passes = s.passes ∧ t.acc = s.acc ∧ t.ms = s.ms ∧ t.old = s.old ∧ t.inputs = s.inputs ∧
    (t.trace = s.trace ++ [.cmd (encode i)] ∨
      t.trace = s.trace ++ [.cmd (encode i), .done t.errcode])

/-! ### Whole-machine rules -/

/-- The invariant is kept by every step, whatever the host and the collaborators do. -/
def Obligations.StepKeepsTheInvariant : Prop :=
  ∀ s t : State, Inv s → step s = .next t → Inv t

/-- From a state that meets the invariant, the block never stops: every access and every tick has a next
state. -/
def Obligations.SafeStatesAlwaysStep : Prop :=
  ∀ s : State, Inv s → ∃ t, step s = .next t

/-- R33, R152, R160: a byte leaves the serial port only while chip-select is driven low. -/
def Obligations.BytesLeaveOnlyUnderChipSelect : Prop :=
  ∀ (s t : State) (b : Byte), Inv s → tick s = .next t → t.trace = s.trace ++ [.tx b] →
    s.pins.cs = false ∧ t.pins.cs = false

/-- R59: the events of one command lie between its `Cmd` and its `Done`, and a command is open exactly
while `BUSY = 1`. -/
def Obligations.TraceStaysBracketed : Prop :=
  ∀ s t : State, bracket s.trace false = some s.busy → step s = .next t →
    bracket t.trace false = some t.busy

/-- R155, R247: one look of a busy poll: done when the line is low, timed out when the bound has passed,
else it looks again; a timeout is fatal except in a power-off (R162). -/
def Obligations.BusyPollIsBounded : Prop :=
  ∀ (s : State) (t0 d : Word) (fatal line : Bool) (rest : List Micro), s.busy = true →
    s.seq.todo = .polling t0 fatal :: rest →
    tick (s.feed { Answers.none with busyIn := [line], elapsed := if line then [d] else [] }) =
      .next
        (if line = false then State.emit (.busy .ok) (s.setTodo rest)
         else
           let u : State := { s with ms := s.ms + d }
           if (s.ms + d - t0).toNat < s.params.busyTimeoutMs.toNat then u
           else if fatal then
             State.emit (.busy .timeout)
               { u with pwr := .fault, seq := ⟨s.seq.onTimeout, .deviceTimeout, []⟩ }
           else State.emit (.busy .timeout) (u.setTodo rest))

/-- R251, R253: a byte stays on the stream port until the transport takes it, and a reader request until
the reader takes it; meanwhile nothing else moves. That the trace has no `RdReq` yet while the request waits
is the model's choice (DESIGN CHOICE, log entry 21). -/
def Obligations.StalledPortsHoldTheirData : Prop :=
  ∀ (s : State) (b : Byte) (bs : List Byte) (st : Stage) (r : Nat) (addr : Word) (rest : List Micro),
    s.busy = true →
    (s.seq.todo = .send (b :: bs) :: rest →
      tick (s.feed { Answers.none with txReady := [false] }) = .next { s with tx := some b }) ∧
    (s.seq.todo = .request st r addr :: rest →
      tick (s.feed { Answers.none with rdReqReady := [false] }) =
        .next { s with rd := some (addr, BitVec.ofNat 16 s.params.bpr) })

/-! ### The stream and the translator -/

/-- R149: the lanes of a drive byte. -/
def Obligations.PackFillsItsLanes : Prop :=
  ∀ (c : StageCode) (st : Stage) (b : Byte) (p3 p2 p1 p0 : Nat),
    pack c st b p3 p2 p1 p0 =
      (driveCode c st (b.getLsbD p3)).setWidth 8 <<< 6 ||| (driveCode c st (b.getLsbD p2)).setWidth 8 <<< 4
        ||| (driveCode c st (b.getLsbD p1)).setWidth 8 <<< 2 ||| (driveCode c st (b.getLsbD p0)).setWidth 8

/-- R150: the payload, byte by byte. -/
def Obligations.PayloadBytesAreAsIndexed : Prop :=
  ∀ (p : Params) (st : Stage) (r : Nat) (src : List Byte), src.length = p.bpr →
    (payload p st r src).length = 2 * p.bpr + p.bps ∧
    (∀ j < p.bpr,
      (payload p st r src)[j]? = some (pack p.stageCode st (src.getD (p.bpr - 1 - j) 0) 7 5 3 1)) ∧
    (∀ k < p.bps,
      (payload p st r src)[p.bpr + k]? =
        some (if k = r / 4 then 0xC0#8 >>> (2 * (r % 4)) else 0x00)) ∧
    (∀ j < p.bpr,
      (payload p st r src)[p.bpr + p.bps + j]? = some (pack p.stageCode st (src.getD j 0) 0 2 4 6))

/-- R95: every in-segment coordinate has a place inside `RES`, and distinct ones have distinct places. -/
def Obligations.PlacesAreInsideAndDistinct : Prop :=
  ∀ (p : Params) (seg : Nat) (x y x' y' : Int) (b b' : Nat) (m m' : Byte), cfgOk p = true →
    (0 ≤ x → x < p.columns → 0 ≤ y → y < p.rows → (seg * p.segHeight : Nat) ≤ y →
      y < (seg * p.segHeight + p.segHeight : Nat) → ∃ c n, translate p seg x y = .at c n) ∧
    (translate p seg x y = .at b m → b < resSize p ∧ ∃ k < 8, m = 1#8 <<< k) ∧
    (translate p seg x y = .at b m → translate p seg x' y' = .at b' m' → b = b' → m = m' →
      x = x' ∧ y = y')

/-- R95, R217 (e): the same calls drawn in every segment give, laid end to end, the bitmap that one
unsegmented buffer gets. -/
def Obligations.SegmentsTileTheCanvas : Prop :=
  ∀ (p : Params) (seg : Nat) (calls : List PixelCall) (j : Nat), cfgOk p = true → seg < segCount p →
    j < resSize p →
    memRead (drawAll p seg calls) j =
      memRead (drawAll (unsegmented p) 0 calls) (seg * resSize p + j)

/-- R146: the lookup takes the first threshold that t does not exceed, and clamps at both edges. -/
def Obligations.FactorIsAStepTable : Prop :=
  ∀ (p : Params) (t : BitVec 8), cfgOk p = true →
    (∀ pre e post, p.tempTable.entries = pre ++ e :: post → (∀ q ∈ pre, q.1 < t.toInt) → t.toInt ≤ e.1 →
      tempFactor p t = e.2) ∧
    ((∀ q ∈ p.tempTable.entries, q.1 < t.toInt) → tempFactor p t = p.tempTable.top) ∧
    tempFactor p 25 = 10

/-- R215, R217 (g): `draw_char` with `fg = bg` paints the blocks of the glyph's "on" cells and no other
pixel, unless an early reject applies; a pixel that cannot be encoded is not issued, and the host counts it
as `OUT_OF_BOUNDS_PIXEL`. At a `draw_char` of any colours in its program the host goes on with no access when
the glyph misses the columns; else it reads `SEGMENT` and goes on with these calls for the segment shown
there, each issued command followed by a `wait` (R130). That the host's program is a list of such lines, each
with the ticks of its pace, and the host's own counter are the model's choice (DESIGN CHOICE, log entries 19
and 22). -/
def Obligations.TransparentGlyphPaintsOnCellsOnly : Prop :=
  (∀ (p : Params) (seg : Nat) (x y : Int) (g : Glyph) (c : Bool) (scale : Nat) (call : HostCall),
    call ∈ drawChar p seg x y g c c scale ↔
      (0 < x + (g.gw * scale : Nat) ∧ x < p.columns ∧ (seg * p.segHeight : Nat) < y + (g.gh * scale : Nat) ∧
        y < (seg * p.segHeight + p.segHeight : Nat)) ∧
      ∃ col < g.gw, ∃ row < g.gh, ∃ di < scale, ∃ dj < scale,
        g.on col row = true ∧
        call = pixelCall (x + (col * scale : Nat) + di) (y + (row * scale : Nat) + dj) c) ∧
  (∀ (x y : Int) (c : Bool),
    (-2048 ≤ x ∧ x ≤ 2047 ∧ -2048 ≤ y ∧ y ≤ 2047 →
      ∃ xb yb, pixelCall x y c = .command (.setPixel c xb yb) ∧ xb.toInt = x ∧ yb.toInt = y) ∧
    (¬(-2048 ≤ x ∧ x ≤ 2047 ∧ -2048 ≤ y ∧ y ≤ 2047) →
      issued [pixelCall x y c] = [] ∧ hostCode (pixelCall x y c) = some .outOfBoundsPixel)) ∧
  (∀ (s : State) (x y : Int) (g : Glyph) (fg bg : Bool) (scale gap : Nat) (rest : List HostLine),
    s.inputs.rstN = true → s.inputs.moves = [] →
    s.inputs.program = ⟨.drawChar x y g fg bg scale, gap⟩ :: rest →
    (x + (g.gw * scale : Nat) ≤ 0 ∨ s.params.columns ≤ x →
      step s = ticks gap { s with inputs := { s.inputs with gap := gap, program := rest } }) ∧
    (0 < x + (g.gw * scale : Nat) ∧ x < s.params.columns →
      step s =
        ticks gap
          { s with
            rdata := regRead 0x1C s
            inputs :=
              { s.inputs with
                gap := gap
                program :=
                  (drawChar s.params s.seg.toNat x y g fg bg scale).flatMap
                      (fun call => match call with
                        | .command i => [⟨.wr 0x00 (encode i), gap⟩, ⟨.wait, gap⟩]
                        | .unencodable _ _ _ => [⟨.countPixel, gap⟩])
                    ++ rest } })) ∧
  (∀ (s : State) (gap : Nat) (rest : List HostLine),
    s.inputs.moves = [] → s.inputs.program = ⟨.countPixel, gap⟩ :: rest →
    step s =
      ticks gap
        { s with
          inputs :=
            { s.inputs with gap := gap, program := rest, outOfBounds := s.inputs.outOfBounds + 1 } })

/-! ### Timeouts of every command -/

/-- R159, R207, R239, R240: whatever the collaborators answer, the first busy timeout of a command that
completes with `DEVICE_TIMEOUT` is the last thing it does: no later row, pass or stage is sent and nothing
is retried. Only a `DISPLAY` with `DO_PWR_OFF` still runs the power-off sequence, whose own timeouts are
ignored. -/
def Obligations.NothingIsSentAfterATimeout : Prop :=
  ∀ (s t : State) (i : Instr), s.busy = false → exec i s = .next t → t.busy = false →
    t.errcode = .deviceTimeout →
    ∃ evs tail,
      t.trace = s.trace ++ [.cmd (encode i)] ++ evs ++ [.busy .timeout] ++ tail ++ [.done .deviceTimeout] ∧
      .busy .timeout ∉ evs ∧
      (match i with
       | .display _ _ true => powerOffTrace s.params.powerOffSeq tail
       | _ => tail = [])
end

