-- ==== Sys2Proof/Laws/Buffer.lean ====
section
/-! SUPPORT. The buffers `RES` and `OLD`: a byte reads back as written, other bytes are left alone, and
every operation keeps the canonical form. -/

namespace Sys2Proof.Machine

open Sys2Proof

/-! ### Reading -/

@[simp] theorem memRead_nil (a : Nat) : memRead [] a = 0 := rfl

theorem memRead_memErase_self (m : List Host.Cell) (a : Nat) : memRead (memErase m a) a = 0 := by
  induction m with
  | nil => rfl
  | cons c rest ih =>
    obtain ⟨k, v⟩ := c
    by_cases h : k = a
    · simpa [memErase, h] using ih
    · simpa [memErase, memRead, h] using ih

theorem memRead_memErase_of_ne (m : List Host.Cell) {a b : Nat} (hne : b ≠ a) :
    memRead (memErase m a) b = memRead m b := by
  induction m with
  | nil => rfl
  | cons c rest ih =>
    obtain ⟨k, v⟩ := c
    by_cases h : k = a
    · subst h
      simpa [memErase, memRead, hne.symm] using ih
    · by_cases hb : k = b
      · subst hb
        simp [memErase, memRead, h]
      · simpa [memErase, memRead, h, hb] using ih

theorem memRead_memInsert_self (m : List Host.Cell) (a : Nat) (v : Byte) :
    memRead (memInsert (memErase m a) a v) a = v := by
  induction m with
  | nil => simp [memErase, memInsert, memRead]
  | cons c rest ih =>
    obtain ⟨k, x⟩ := c
    by_cases h : k = a
    · simpa [memErase, h] using ih
    · by_cases hlt : a < k
      · simp [memErase, memInsert, memRead, h, hlt]
      · simpa [memErase, memInsert, memRead, h, hlt] using ih

theorem memRead_memInsert_of_ne (m : List Host.Cell) {a b : Nat} (v : Byte) (hne : b ≠ a) :
    memRead (memInsert m a v) b = memRead m b := by
  induction m with
  | nil => simp [memInsert, memRead, hne.symm]
  | cons c rest ih =>
    obtain ⟨k, x⟩ := c
    by_cases hlt : a < k
    · simp [memInsert, memRead, hlt, hne.symm]
    · by_cases hb : k = b
      · subst hb
        simp [memInsert, memRead, hlt]
      · simpa [memInsert, memRead, hlt, hb] using ih

/-- A byte reads back as it was written. -/
@[simp] theorem memRead_memWrite_self (m : List Host.Cell) (a : Nat) (v : Byte) :
    memRead (memWrite m a v) a = v := by
  unfold memWrite
  split
  · simp [memRead_memErase_self, *]
  · exact memRead_memInsert_self m a v

/-- A write leaves every other byte alone. -/
theorem memRead_memWrite_of_ne (m : List Host.Cell) {a b : Nat} (v : Byte) (hne : b ≠ a) :
    memRead (memWrite m a v) b = memRead m b := by
  unfold memWrite
  split
  · exact memRead_memErase_of_ne m hne
  · rw [memRead_memInsert_of_ne _ v hne, memRead_memErase_of_ne m hne]

@[simp] theorem memBytes_length (m : List Host.Cell) (i n : Nat) : (memBytes m i n).length = n := by
  simp [memBytes]

/-! ### The canonical form -/

theorem risingFrom_mono {lo hi : Nat} (h : lo ≤ hi) :
    ∀ m : List Host.Cell, risingFrom hi m = true → risingFrom lo m = true
  | [], _ => rfl
  | (k, _) :: rest, hm => by
    simp only [risingFrom, Bool.and_eq_true, decide_eq_true_eq] at hm ⊢
    exact ⟨h.trans hm.1, hm.2⟩

theorem risingFrom_memErase (a : Nat) :
    ∀ (m : List Host.Cell) (lo : Nat), risingFrom lo m = true → risingFrom lo (memErase m a) = true
  | [], _, _ => rfl
  | (k, v) :: rest, lo, hm => by
    simp only [risingFrom, Bool.and_eq_true, decide_eq_true_eq] at hm
    by_cases h : k = a
    · simpa [memErase, h] using risingFrom_memErase a rest lo (risingFrom_mono (by omega) rest hm.2)
    · simpa [memErase, risingFrom, h] using ⟨hm.1, risingFrom_memErase a rest (k + 1) hm.2⟩

theorem risingFrom_memInsert (a : Nat) (v : Byte) :
    ∀ (m : List Host.Cell) (lo : Nat), lo ≤ a → risingFrom lo (memErase m a) = true →
      risingFrom lo (memInsert (memErase m a) a v) = true
  | [], lo, hlo, _ => by simp [memErase, memInsert, risingFrom, hlo]
  | (k, x) :: rest, lo, hlo, hm => by
    by_cases h : k = a
    · simp only [memErase, h, if_true] at hm ⊢
      exact risingFrom_memInsert a v rest lo hlo hm
    · simp only [memErase, h, if_false, risingFrom, Bool.and_eq_true, decide_eq_true_eq] at hm ⊢
      by_cases hlt : a < k
      · simp only [memInsert, hlt, if_true, risingFrom, Bool.and_eq_true, decide_eq_true_eq]
        exact ⟨hlo, by omega, hm.2⟩
      · simp only [memInsert, hlt, if_false, risingFrom, Bool.and_eq_true, decide_eq_true_eq]
        exact ⟨hm.1, risingFrom_memInsert a v rest (k + 1) (by omega) hm.2⟩

theorem mem_memErase {m : List Host.Cell} {a : Nat} {c : Host.Cell} (h : c ∈ memErase m a) : c ∈ m := by
  induction m with
  | nil => exact h
  | cons d rest ih =>
    obtain ⟨k, v⟩ := d
    by_cases hk : k = a
    · simp only [memErase, hk, if_true] at h
      exact List.mem_cons_of_mem _ (ih h)
    · simp only [memErase, hk, if_false, List.mem_cons] at h
      exact h.elim (fun e => by simp [e]) (fun h' => List.mem_cons_of_mem _ (ih h'))

theorem mem_memInsert {m : List Host.Cell} {a : Nat} {v : Byte} {c : Host.Cell} (h : c ∈ memInsert m a v) :
    c = (a, v) ∨ c ∈ m := by
  induction m with
  | nil => simpa [memInsert] using h
  | cons d rest ih =>
    obtain ⟨k, x⟩ := d
    by_cases hlt : a < k
    · simpa [memInsert, hlt] using h
    · simp only [memInsert, hlt, if_false, List.mem_cons] at h
      rcases h with h | h
      · exact .inr (by simp [h])
      · exact (ih h).imp_right (List.mem_cons_of_mem _)

theorem mem_memWrite {m : List Host.Cell} {a : Nat} {v : Byte} {c : Host.Cell} (h : c ∈ memWrite m a v) :
    (c = (a, v) ∧ v ≠ 0) ∨ c ∈ m := by
  by_cases hv : v = 0
  · exact .inr (mem_memErase (by simpa [memWrite, hv] using h))
  · rw [memWrite, if_neg hv] at h
    exact (mem_memInsert h).elim (fun e => .inl ⟨e, hv⟩) (fun h' => .inr (mem_memErase h'))

/-- The empty buffer is canonical. -/
@[simp] theorem Memory.wf_nil (size : Nat) : Memory.wf size [] = true := rfl

/-- A write inside the buffer keeps its canonical form. -/
theorem Memory.wf_memWrite {size a : Nat} {m : List Host.Cell} (v : Byte) (ha : a < size)
    (h : Memory.wf size m = true) : Memory.wf size (memWrite m a v) = true := by
  simp only [Memory.wf, Bool.and_eq_true, noZero, within, List.all_eq_true, bne_iff_ne,
    decide_eq_true_eq] at h ⊢
  obtain ⟨⟨hr, hz⟩, hw⟩ := h
  refine ⟨⟨?_, fun c hc => ?_⟩, fun c hc => ?_⟩
  · unfold memWrite
    split
    · exact risingFrom_memErase a m 0 hr
    · exact risingFrom_memInsert a v m 0 (Nat.zero_le _) (risingFrom_memErase a m 0 hr)
  · rcases mem_memWrite hc with ⟨rfl, hv⟩ | h'
    · exact hv
    · exact hz c h'
  · rcases mem_memWrite hc with ⟨rfl, _⟩ | h'
    · exact ha
    · exact hw c h'

/-- A canonical buffer of size 0 is empty. -/
theorem State.resetOf_wf (p : Params) :
    Memory.wf (resSize p) (State.resetOf p).res = true ∧ Memory.wf (oldSize p) (State.resetOf p).old = true :=
  ⟨rfl, rfl⟩

theorem Memory.eq_nil_of_wf_zero {m : List Host.Cell} (h : Memory.wf 0 m = true) : m = [] := by
  cases m with
  | nil => rfl
  | cons c rest => simp [Memory.wf, within] at h

/-! ### What the buffer operations answer -/

/-- `paintRes` writes one byte of `RES` that exists, and changes nothing else. -/
theorem paintRes_next {byteIx : Nat} {mask : Byte} {black : Bool} {s t : State}
    (h : paintRes byteIx mask black s = .next t) :
    byteIx < resSize s.params ∧
      t = { s with res := memWrite s.res byteIx (paintByte mask black (memRead s.res byteIx)) } := by
  unfold paintRes at h
  split at h
  · exact ⟨‹_›, (Host.Outcome.next.inj h).symm⟩
  · cases h

/-- A read of `RES` that answers went to bytes that exist. -/
theorem readRes_next {i n : Nat} {s t : State} {f : List Byte → Result} (h : readRes i n s f = .next t) :
    i + n ≤ resSize s.params ∧ f (memBytes s.res i n) = .next t := by
  unfold readRes at h
  split at h
  · exact ⟨‹_›, h⟩
  · cases h

/-- A read of `OLD` that answers went to bytes that exist. -/
theorem readOld_next {i n : Nat} {s t : State} {f : List Byte → Result} (h : readOld i n s f = .next t) :
    i + n ≤ oldSize s.params ∧ f (memBytes s.old i n) = .next t := by
  unfold readOld at h
  split at h
  · exact ⟨‹_›, h⟩
  · cases h

end Sys2Proof.Machine
end

