-- ==== Sys2Proof/Laws/State.lean ====
section
/-! SUPPORT. One lemma per field per update of the state: what the named update writes there, or that it
leaves the field alone. -/

namespace Sys2Proof.Machine

open Sys2Proof

@[simp] theorem State.emit_params (ev : Event) (s : State) : (s.emit ev).params = s.params := rfl
@[simp] theorem State.emit_range (ev : Event) (s : State) : (s.emit ev).range = s.range := rfl
@[simp] theorem State.emit_rdbase (ev : Event) (s : State) : (s.emit ev).rdbase = s.rdbase := rfl
@[simp] theorem State.emit_rdold (ev : Event) (s : State) : (s.emit ev).rdold = s.rdold := rfl
@[simp] theorem State.emit_rdata (ev : Event) (s : State) : (s.emit ev).rdata = s.rdata := rfl
@[simp] theorem State.emit_busy (ev : Event) (s : State) : (s.emit ev).busy = s.busy := rfl
@[simp] theorem State.emit_done (ev : Event) (s : State) : (s.emit ev).done = s.done := rfl
@[simp] theorem State.emit_err (ev : Event) (s : State) : (s.emit ev).err = s.err := rfl
@[simp] theorem State.emit_overrun (ev : Event) (s : State) : (s.emit ev).overrun = s.overrun := rfl
@[simp] theorem State.emit_errcode (ev : Event) (s : State) : (s.emit ev).errcode = s.errcode := rfl
@[simp] theorem State.emit_stage (ev : Event) (s : State) : (s.emit ev).stage = s.stage := rfl
@[simp] theorem State.emit_passes (ev : Event) (s : State) : (s.emit ev).passes = s.passes := rfl
@[simp] theorem State.emit_pwr (ev : Event) (s : State) : (s.emit ev).pwr = s.pwr := rfl
@[simp] theorem State.emit_seg (ev : Event) (s : State) : (s.emit ev).seg = s.seg := rfl
@[simp] theorem State.emit_tempC (ev : Event) (s : State) : (s.emit ev).tempC = s.tempC := rfl
@[simp] theorem State.emit_factor (ev : Event) (s : State) : (s.emit ev).factor = s.factor := rfl
@[simp] theorem State.emit_duration (ev : Event) (s : State) : (s.emit ev).duration = s.duration := rfl
@[simp] theorem State.emit_res (ev : Event) (s : State) : (s.emit ev).res = s.res := rfl
@[simp] theorem State.emit_old (ev : Event) (s : State) : (s.emit ev).old = s.old := rfl
@[simp] theorem State.emit_lat (ev : Event) (s : State) : (s.emit ev).lat = s.lat := rfl
@[simp] theorem State.emit_seq (ev : Event) (s : State) : (s.emit ev).seq = s.seq := rfl
@[simp] theorem State.emit_acc (ev : Event) (s : State) : (s.emit ev).acc = s.acc := rfl
@[simp] theorem State.emit_pins (ev : Event) (s : State) : (s.emit ev).pins = s.pins := rfl
@[simp] theorem State.emit_tx (ev : Event) (s : State) : (s.emit ev).tx = s.tx := rfl
@[simp] theorem State.emit_rd (ev : Event) (s : State) : (s.emit ev).rd = s.rd := rfl
@[simp] theorem State.emit_ms (ev : Event) (s : State) : (s.emit ev).ms = s.ms := rfl
@[simp] theorem State.emit_trace (ev : Event) (s : State) : (s.emit ev).trace = s.trace ++ [ev] := rfl
@[simp] theorem State.emit_inputs (ev : Event) (s : State) : (s.emit ev).inputs = s.inputs := rfl

@[simp] theorem State.setTodo_params (ms : List Micro) (s : State) : (s.setTodo ms).params = s.params := rfl
@[simp] theorem State.setTodo_range (ms : List Micro) (s : State) : (s.setTodo ms).range = s.range := rfl
@[simp] theorem State.setTodo_rdbase (ms : List Micro) (s : State) : (s.setTodo ms).rdbase = s.rdbase := rfl
@[simp] theorem State.setTodo_rdold (ms : List Micro) (s : State) : (s.setTodo ms).rdold = s.rdold := rfl
@[simp] theorem State.setTodo_rdata (ms : List Micro) (s : State) : (s.setTodo ms).rdata = s.rdata := rfl
@[simp] theorem State.setTodo_busy (ms : List Micro) (s : State) : (s.setTodo ms).busy = s.busy := rfl
@[simp] theorem State.setTodo_done (ms : List Micro) (s : State) : (s.setTodo ms).done = s.done := rfl
@[simp] theorem State.setTodo_err (ms : List Micro) (s : State) : (s.setTodo ms).err = s.err := rfl
@[simp] theorem State.setTodo_overrun (ms : List Micro) (s : State) :
    (s.setTodo ms).overrun = s.overrun := rfl
@[simp] theorem State.setTodo_errcode (ms : List Micro) (s : State) :
    (s.setTodo ms).errcode = s.errcode := rfl
@[simp] theorem State.setTodo_stage (ms : List Micro) (s : State) : (s.setTodo ms).stage = s.stage := rfl
@[simp] theorem State.setTodo_passes (ms : List Micro) (s : State) : (s.setTodo ms).passes = s.passes := rfl
@[simp] theorem State.setTodo_pwr (ms : List Micro) (s : State) : (s.setTodo ms).pwr = s.pwr := rfl
@[simp] theorem State.setTodo_seg (ms : List Micro) (s : State) : (s.setTodo ms).seg = s.seg := rfl
@[simp] theorem State.setTodo_tempC (ms : List Micro) (s : State) : (s.setTodo ms).tempC = s.tempC := rfl
@[simp] theorem State.setTodo_factor (ms : List Micro) (s : State) : (s.setTodo ms).factor = s.factor := rfl
@[simp] theorem State.setTodo_duration (ms : List Micro) (s : State) :
    (s.setTodo ms).duration = s.duration := rfl
@[simp] theorem State.setTodo_res (ms : List Micro) (s : State) : (s.setTodo ms).res = s.res := rfl
@[simp] theorem State.setTodo_old (ms : List Micro) (s : State) : (s.setTodo ms).old = s.old := rfl
@[simp] theorem State.setTodo_lat (ms : List Micro) (s : State) : (s.setTodo ms).lat = s.lat := rfl
@[simp] theorem State.setTodo_seq (ms : List Micro) (s : State) :
    (s.setTodo ms).seq = ⟨ms, s.seq.code, s.seq.onTimeout⟩ := rfl
@[simp] theorem State.setTodo_acc (ms : List Micro) (s : State) : (s.setTodo ms).acc = s.acc := rfl
@[simp] theorem State.setTodo_pins (ms : List Micro) (s : State) : (s.setTodo ms).pins = s.pins := rfl
@[simp] theorem State.setTodo_tx (ms : List Micro) (s : State) : (s.setTodo ms).tx = s.tx := rfl
@[simp] theorem State.setTodo_rd (ms : List Micro) (s : State) : (s.setTodo ms).rd = s.rd := rfl
@[simp] theorem State.setTodo_ms (ms : List Micro) (s : State) : (s.setTodo ms).ms = s.ms := rfl
@[simp] theorem State.setTodo_trace (ms : List Micro) (s : State) : (s.setTodo ms).trace = s.trace := rfl
@[simp] theorem State.setTodo_inputs (ms : List Micro) (s : State) : (s.setTodo ms).inputs = s.inputs := rfl

@[simp] theorem State.push_params (ms : List Micro) (s : State) : (s.push ms).params = s.params := rfl
@[simp] theorem State.push_range (ms : List Micro) (s : State) : (s.push ms).range = s.range := rfl
@[simp] theorem State.push_rdbase (ms : List Micro) (s : State) : (s.push ms).rdbase = s.rdbase := rfl
@[simp] theorem State.push_rdold (ms : List Micro) (s : State) : (s.push ms).rdold = s.rdold := rfl
@[simp] theorem State.push_rdata (ms : List Micro) (s : State) : (s.push ms).rdata = s.rdata := rfl
@[simp] theorem State.push_busy (ms : List Micro) (s : State) : (s.push ms).busy = s.busy := rfl
@[simp] theorem State.push_done (ms : List Micro) (s : State) : (s.push ms).done = s.done := rfl
@[simp] theorem State.push_err (ms : List Micro) (s : State) : (s.push ms).err = s.err := rfl
@[simp] theorem State.push_overrun (ms : List Micro) (s : State) : (s.push ms).overrun = s.overrun := rfl
@[simp] theorem State.push_errcode (ms : List Micro) (s : State) : (s.push ms).errcode = s.errcode := rfl
@[simp] theorem State.push_stage (ms : List Micro) (s : State) : (s.push ms).stage = s.stage := rfl
@[simp] theorem State.push_passes (ms : List Micro) (s : State) : (s.push ms).passes = s.passes := rfl
@[simp] theorem State.push_pwr (ms : List Micro) (s : State) : (s.push ms).pwr = s.pwr := rfl
@[simp] theorem State.push_seg (ms : List Micro) (s : State) : (s.push ms).seg = s.seg := rfl
@[simp] theorem State.push_tempC (ms : List Micro) (s : State) : (s.push ms).tempC = s.tempC := rfl
@[simp] theorem State.push_factor (ms : List Micro) (s : State) : (s.push ms).factor = s.factor := rfl
@[simp] theorem State.push_duration (ms : List Micro) (s : State) : (s.push ms).duration = s.duration := rfl
@[simp] theorem State.push_res (ms : List Micro) (s : State) : (s.push ms).res = s.res := rfl
@[simp] theorem State.push_old (ms : List Micro) (s : State) : (s.push ms).old = s.old := rfl
@[simp] theorem State.push_lat (ms : List Micro) (s : State) : (s.push ms).lat = s.lat := rfl
@[simp] theorem State.push_seq (ms : List Micro) (s : State) :
    (s.push ms).seq = ⟨ms ++ s.seq.todo, s.seq.code, s.seq.onTimeout⟩ := rfl
@[simp] theorem State.push_acc (ms : List Micro) (s : State) : (s.push ms).acc = s.acc := rfl
@[simp] theorem State.push_pins (ms : List Micro) (s : State) : (s.push ms).pins = s.pins := rfl
@[simp] theorem State.push_tx (ms : List Micro) (s : State) : (s.push ms).tx = s.tx := rfl
@[simp] theorem State.push_rd (ms : List Micro) (s : State) : (s.push ms).rd = s.rd := rfl
@[simp] theorem State.push_ms (ms : List Micro) (s : State) : (s.push ms).ms = s.ms := rfl
@[simp] theorem State.push_trace (ms : List Micro) (s : State) : (s.push ms).trace = s.trace := rfl
@[simp] theorem State.push_inputs (ms : List Micro) (s : State) : (s.push ms).inputs = s.inputs := rfl

@[simp] theorem State.drive_params (p : Pin) (v : Bool) (s : State) : (s.drive p v).params = s.params := rfl
@[simp] theorem State.drive_range (p : Pin) (v : Bool) (s : State) : (s.drive p v).range = s.range := rfl
@[simp] theorem State.drive_rdbase (p : Pin) (v : Bool) (s : State) : (s.drive p v).rdbase = s.rdbase := rfl
@[simp] theorem State.drive_rdold (p : Pin) (v : Bool) (s : State) : (s.drive p v).rdold = s.rdold := rfl
@[simp] theorem State.drive_rdata (p : Pin) (v : Bool) (s : State) : (s.drive p v).rdata = s.rdata := rfl
@[simp] theorem State.drive_busy (p : Pin) (v : Bool) (s : State) : (s.drive p v).busy = s.busy := rfl
@[simp] theorem State.drive_done (p : Pin) (v : Bool) (s : State) : (s.drive p v).done = s.done := rfl
@[simp] theorem State.drive_err (p : Pin) (v : Bool) (s : State) : (s.drive p v).err = s.err := rfl
@[simp] theorem State.drive_overrun (p : Pin) (v : Bool) (s : State) :
    (s.drive p v).overrun = s.overrun := rfl
@[simp] theorem State.drive_errcode (p : Pin) (v : Bool) (s : State) :
    (s.drive p v).errcode = s.errcode := rfl
@[simp] theorem State.drive_stage (p : Pin) (v : Bool) (s : State) : (s.drive p v).stage = s.stage := rfl
@[simp] theorem State.drive_passes (p : Pin) (v : Bool) (s : State) : (s.drive p v).passes = s.passes := rfl
@[simp] theorem State.drive_pwr (p : Pin) (v : Bool) (s : State) : (s.drive p v).pwr = s.pwr := rfl
@[simp] theorem State.drive_seg (p : Pin) (v : Bool) (s : State) : (s.drive p v).seg = s.seg := rfl
@[simp] theorem State.drive_tempC (p : Pin) (v : Bool) (s : State) : (s.drive p v).tempC = s.tempC := rfl
@[simp] theorem State.drive_factor (p : Pin) (v : Bool) (s : State) : (s.drive p v).factor = s.factor := rfl
@[simp] theorem State.drive_duration (p : Pin) (v : Bool) (s : State) :
    (s.drive p v).duration = s.duration := rfl
@[simp] theorem State.drive_res (p : Pin) (v : Bool) (s : State) : (s.drive p v).res = s.res := rfl
@[simp] theorem State.drive_old (p : Pin) (v : Bool) (s : State) : (s.drive p v).old = s.old := rfl
@[simp] theorem State.drive_lat (p : Pin) (v : Bool) (s : State) : (s.drive p v).lat = s.lat := rfl
@[simp] theorem State.drive_seq (p : Pin) (v : Bool) (s : State) : (s.drive p v).seq = s.seq := rfl
@[simp] theorem State.drive_acc (p : Pin) (v : Bool) (s : State) : (s.drive p v).acc = s.acc := rfl
@[simp] theorem State.drive_pins (p : Pin) (v : Bool) (s : State) :
    (s.drive p v).pins = setLevel p v s.pins := rfl
@[simp] theorem State.drive_tx (p : Pin) (v : Bool) (s : State) : (s.drive p v).tx = s.tx := rfl
@[simp] theorem State.drive_rd (p : Pin) (v : Bool) (s : State) : (s.drive p v).rd = s.rd := rfl
@[simp] theorem State.drive_ms (p : Pin) (v : Bool) (s : State) : (s.drive p v).ms = s.ms := rfl
@[simp] theorem State.drive_trace (p : Pin) (v : Bool) (s : State) :
    (s.drive p v).trace = s.trace ++ [.pin p v] := rfl
@[simp] theorem State.drive_inputs (p : Pin) (v : Bool) (s : State) : (s.drive p v).inputs = s.inputs := rfl

@[simp] theorem State.setPwr_params (v : Pwr) (s : State) : (s.setPwr v).params = s.params := rfl
@[simp] theorem State.setPwr_range (v : Pwr) (s : State) : (s.setPwr v).range = s.range := rfl
@[simp] theorem State.setPwr_rdbase (v : Pwr) (s : State) : (s.setPwr v).rdbase = s.rdbase := rfl
@[simp] theorem State.setPwr_rdold (v : Pwr) (s : State) : (s.setPwr v).rdold = s.rdold := rfl
@[simp] theorem State.setPwr_rdata (v : Pwr) (s : State) : (s.setPwr v).rdata = s.rdata := rfl
@[simp] theorem State.setPwr_busy (v : Pwr) (s : State) : (s.setPwr v).busy = s.busy := rfl
@[simp] theorem State.setPwr_done (v : Pwr) (s : State) : (s.setPwr v).done = s.done := rfl
@[simp] theorem State.setPwr_err (v : Pwr) (s : State) : (s.setPwr v).err = s.err := rfl
@[simp] theorem State.setPwr_overrun (v : Pwr) (s : State) : (s.setPwr v).overrun = s.overrun := rfl
@[simp] theorem State.setPwr_errcode (v : Pwr) (s : State) : (s.setPwr v).errcode = s.errcode := rfl
@[simp] theorem State.setPwr_stage (v : Pwr) (s : State) : (s.setPwr v).stage = s.stage := rfl
@[simp] theorem State.setPwr_passes (v : Pwr) (s : State) : (s.setPwr v).passes = s.passes := rfl
@[simp] theorem State.setPwr_pwr (v : Pwr) (s : State) : (s.setPwr v).pwr = v := rfl
@[simp] theorem State.setPwr_seg (v : Pwr) (s : State) : (s.setPwr v).seg = s.seg := rfl
@[simp] theorem State.setPwr_tempC (v : Pwr) (s : State) : (s.setPwr v).tempC = s.tempC := rfl
@[simp] theorem State.setPwr_factor (v : Pwr) (s : State) : (s.setPwr v).factor = s.factor := rfl
@[simp] theorem State.setPwr_duration (v : Pwr) (s : State) : (s.setPwr v).duration = s.duration := rfl
@[simp] theorem State.setPwr_res (v : Pwr) (s : State) : (s.setPwr v).res = s.res := rfl
@[simp] theorem State.setPwr_old (v : Pwr) (s : State) : (s.setPwr v).old = s.old := rfl
@[simp] theorem State.setPwr_lat (v : Pwr) (s : State) : (s.setPwr v).lat = s.lat := rfl
@[simp] theorem State.setPwr_seq (v : Pwr) (s : State) : (s.setPwr v).seq = s.seq := rfl
@[simp] theorem State.setPwr_acc (v : Pwr) (s : State) : (s.setPwr v).acc = s.acc := rfl
@[simp] theorem State.setPwr_pins (v : Pwr) (s : State) : (s.setPwr v).pins = s.pins := rfl
@[simp] theorem State.setPwr_tx (v : Pwr) (s : State) : (s.setPwr v).tx = s.tx := rfl
@[simp] theorem State.setPwr_rd (v : Pwr) (s : State) : (s.setPwr v).rd = s.rd := rfl
@[simp] theorem State.setPwr_ms (v : Pwr) (s : State) : (s.setPwr v).ms = s.ms := rfl
@[simp] theorem State.setPwr_trace (v : Pwr) (s : State) : (s.setPwr v).trace = s.trace := rfl
@[simp] theorem State.setPwr_inputs (v : Pwr) (s : State) : (s.setPwr v).inputs = s.inputs := rfl

@[simp] theorem State.loadTemp_params (t : BitVec 8) (s : State) : (s.loadTemp t).params = s.params := rfl
@[simp] theorem State.loadTemp_range (t : BitVec 8) (s : State) : (s.loadTemp t).range = s.range := rfl
@[simp] theorem State.loadTemp_rdbase (t : BitVec 8) (s : State) : (s.loadTemp t).rdbase = s.rdbase := rfl
@[simp] theorem State.loadTemp_rdold (t : BitVec 8) (s : State) : (s.loadTemp t).rdold = s.rdold := rfl
@[simp] theorem State.loadTemp_rdata (t : BitVec 8) (s : State) : (s.loadTemp t).rdata = s.rdata := rfl
@[simp] theorem State.loadTemp_busy (t : BitVec 8) (s : State) : (s.loadTemp t).busy = s.busy := rfl
@[simp] theorem State.loadTemp_done (t : BitVec 8) (s : State) : (s.loadTemp t).done = s.done := rfl
@[simp] theorem State.loadTemp_err (t : BitVec 8) (s : State) : (s.loadTemp t).err = s.err := rfl
@[simp] theorem State.loadTemp_overrun (t : BitVec 8) (s : State) : (s.loadTemp t).overrun = s.overrun := rfl
@[simp] theorem State.loadTemp_errcode (t : BitVec 8) (s : State) : (s.loadTemp t).errcode = s.errcode := rfl
@[simp] theorem State.loadTemp_stage (t : BitVec 8) (s : State) : (s.loadTemp t).stage = s.stage := rfl
@[simp] theorem State.loadTemp_passes (t : BitVec 8) (s : State) : (s.loadTemp t).passes = s.passes := rfl
@[simp] theorem State.loadTemp_pwr (t : BitVec 8) (s : State) : (s.loadTemp t).pwr = s.pwr := rfl
@[simp] theorem State.loadTemp_seg (t : BitVec 8) (s : State) : (s.loadTemp t).seg = s.seg := rfl
@[simp] theorem State.loadTemp_tempC (t : BitVec 8) (s : State) : (s.loadTemp t).tempC = t := rfl
@[simp] theorem State.loadTemp_factor (t : BitVec 8) (s : State) :
    (s.loadTemp t).factor = BitVec.ofNat 16 (tempFactor s.params t) := rfl
@[simp] theorem State.loadTemp_duration (t : BitVec 8) (s : State) :
    (s.loadTemp t).duration = BitVec.ofNat 32 (stageDuration s.params (tempFactor s.params t)) := rfl
@[simp] theorem State.loadTemp_res (t : BitVec 8) (s : State) : (s.loadTemp t).res = s.res := rfl
@[simp] theorem State.loadTemp_old (t : BitVec 8) (s : State) : (s.loadTemp t).old = s.old := rfl
@[simp] theorem State.loadTemp_lat (t : BitVec 8) (s : State) : (s.loadTemp t).lat = s.lat := rfl
@[simp] theorem State.loadTemp_seq (t : BitVec 8) (s : State) : (s.loadTemp t).seq = s.seq := rfl
@[simp] theorem State.loadTemp_acc (t : BitVec 8) (s : State) : (s.loadTemp t).acc = s.acc := rfl
@[simp] theorem State.loadTemp_pins (t : BitVec 8) (s : State) : (s.loadTemp t).pins = s.pins := rfl
@[simp] theorem State.loadTemp_tx (t : BitVec 8) (s : State) : (s.loadTemp t).tx = s.tx := rfl
@[simp] theorem State.loadTemp_rd (t : BitVec 8) (s : State) : (s.loadTemp t).rd = s.rd := rfl
@[simp] theorem State.loadTemp_ms (t : BitVec 8) (s : State) : (s.loadTemp t).ms = s.ms := rfl
@[simp] theorem State.loadTemp_trace (t : BitVec 8) (s : State) : (s.loadTemp t).trace = s.trace := rfl
@[simp] theorem State.loadTemp_inputs (t : BitVec 8) (s : State) : (s.loadTemp t).inputs = s.inputs := rfl

@[simp] theorem State.launch_params (w : Word) (s : State) : (s.launch w).params = s.params := rfl
@[simp] theorem State.launch_range (w : Word) (s : State) : (s.launch w).range = s.range := rfl
@[simp] theorem State.launch_rdbase (w : Word) (s : State) : (s.launch w).rdbase = s.rdbase := rfl
@[simp] theorem State.launch_rdold (w : Word) (s : State) : (s.launch w).rdold = s.rdold := rfl
@[simp] theorem State.launch_rdata (w : Word) (s : State) : (s.launch w).rdata = s.rdata := rfl
@[simp] theorem State.launch_busy (w : Word) (s : State) : (s.launch w).busy = true := rfl
@[simp] theorem State.launch_done (w : Word) (s : State) : (s.launch w).done = false := rfl
@[simp] theorem State.launch_err (w : Word) (s : State) : (s.launch w).err = s.err := rfl
@[simp] theorem State.launch_overrun (w : Word) (s : State) : (s.launch w).overrun = s.overrun := rfl
@[simp] theorem State.launch_errcode (w : Word) (s : State) : (s.launch w).errcode = s.errcode := rfl
@[simp] theorem State.launch_stage (w : Word) (s : State) : (s.launch w).stage = s.stage := rfl
@[simp] theorem State.launch_passes (w : Word) (s : State) : (s.launch w).passes = s.passes := rfl
@[simp] theorem State.launch_pwr (w : Word) (s : State) : (s.launch w).pwr = s.pwr := rfl
@[simp] theorem State.launch_seg (w : Word) (s : State) : (s.launch w).seg = s.seg := rfl
@[simp] theorem State.launch_tempC (w : Word) (s : State) : (s.launch w).tempC = s.tempC := rfl
@[simp] theorem State.launch_factor (w : Word) (s : State) : (s.launch w).factor = s.factor := rfl
@[simp] theorem State.launch_duration (w : Word) (s : State) : (s.launch w).duration = s.duration := rfl
@[simp] theorem State.launch_res (w : Word) (s : State) : (s.launch w).res = s.res := rfl
@[simp] theorem State.launch_old (w : Word) (s : State) : (s.launch w).old = s.old := rfl
@[simp] theorem State.launch_lat (w : Word) (s : State) :
    (s.launch w).lat = ⟨w, s.range.extractLsb' 0 16, s.range.extractLsb' 16 16, s.rdbase, s.rdold⟩ := rfl
@[simp] theorem State.launch_seq (w : Word) (s : State) : (s.launch w).seq = Seq.idle := rfl
@[simp] theorem State.launch_acc (w : Word) (s : State) : (s.launch w).acc = s.acc := rfl
@[simp] theorem State.launch_pins (w : Word) (s : State) : (s.launch w).pins = s.pins := rfl
@[simp] theorem State.launch_tx (w : Word) (s : State) : (s.launch w).tx = s.tx := rfl
@[simp] theorem State.launch_rd (w : Word) (s : State) : (s.launch w).rd = s.rd := rfl
@[simp] theorem State.launch_ms (w : Word) (s : State) : (s.launch w).ms = s.ms := rfl
@[simp] theorem State.launch_trace (w : Word) (s : State) : (s.launch w).trace = s.trace ++ [.cmd w] := rfl
@[simp] theorem State.launch_inputs (w : Word) (s : State) : (s.launch w).inputs = s.inputs := rfl

@[simp] theorem State.raiseError_params (c : Code) (s : State) : (s.raiseError c).params = s.params := rfl
@[simp] theorem State.raiseError_range (c : Code) (s : State) : (s.raiseError c).range = s.range := rfl
@[simp] theorem State.raiseError_rdbase (c : Code) (s : State) : (s.raiseError c).rdbase = s.rdbase := rfl
@[simp] theorem State.raiseError_rdold (c : Code) (s : State) : (s.raiseError c).rdold = s.rdold := rfl
@[simp] theorem State.raiseError_rdata (c : Code) (s : State) : (s.raiseError c).rdata = s.rdata := rfl
@[simp] theorem State.raiseError_busy (c : Code) (s : State) : (s.raiseError c).busy = s.busy := rfl
@[simp] theorem State.raiseError_done (c : Code) (s : State) : (s.raiseError c).done = s.done := rfl
@[simp] theorem State.raiseError_err (c : Code) (s : State) : (s.raiseError c).err = s.err := rfl
@[simp] theorem State.raiseError_overrun (c : Code) (s : State) : (s.raiseError c).overrun = s.overrun := rfl
@[simp] theorem State.raiseError_errcode (c : Code) (s : State) : (s.raiseError c).errcode = s.errcode := rfl
@[simp] theorem State.raiseError_stage (c : Code) (s : State) : (s.raiseError c).stage = s.stage := rfl
@[simp] theorem State.raiseError_passes (c : Code) (s : State) : (s.raiseError c).passes = s.passes := rfl
@[simp] theorem State.raiseError_pwr (c : Code) (s : State) : (s.raiseError c).pwr = s.pwr := rfl
@[simp] theorem State.raiseError_seg (c : Code) (s : State) : (s.raiseError c).seg = s.seg := rfl
@[simp] theorem State.raiseError_tempC (c : Code) (s : State) : (s.raiseError c).tempC = s.tempC := rfl
@[simp] theorem State.raiseError_factor (c : Code) (s : State) : (s.raiseError c).factor = s.factor := rfl
@[simp] theorem State.raiseError_duration (c : Code) (s : State) :
    (s.raiseError c).duration = s.duration := rfl
@[simp] theorem State.raiseError_res (c : Code) (s : State) : (s.raiseError c).res = s.res := rfl
@[simp] theorem State.raiseError_old (c : Code) (s : State) : (s.raiseError c).old = s.old := rfl
@[simp] theorem State.raiseError_lat (c : Code) (s : State) : (s.raiseError c).lat = s.lat := rfl
@[simp] theorem State.raiseError_seq (c : Code) (s : State) :
    (s.raiseError c).seq = ⟨if c = .deviceTimeout then s.seq.onTimeout else [], c, []⟩ := rfl
@[simp] theorem State.raiseError_acc (c : Code) (s : State) : (s.raiseError c).acc = s.acc := rfl
@[simp] theorem State.raiseError_pins (c : Code) (s : State) : (s.raiseError c).pins = s.pins := rfl
@[simp] theorem State.raiseError_tx (c : Code) (s : State) : (s.raiseError c).tx = s.tx := rfl
@[simp] theorem State.raiseError_rd (c : Code) (s : State) : (s.raiseError c).rd = s.rd := rfl
@[simp] theorem State.raiseError_ms (c : Code) (s : State) : (s.raiseError c).ms = s.ms := rfl
@[simp] theorem State.raiseError_trace (c : Code) (s : State) : (s.raiseError c).trace = s.trace := rfl
@[simp] theorem State.raiseError_inputs (c : Code) (s : State) : (s.raiseError c).inputs = s.inputs := rfl

@[simp] theorem State.complete_params (s : State) : (s.complete).params = s.params := rfl
@[simp] theorem State.complete_range (s : State) : (s.complete).range = s.range := rfl
@[simp] theorem State.complete_rdbase (s : State) : (s.complete).rdbase = s.rdbase := rfl
@[simp] theorem State.complete_rdold (s : State) : (s.complete).rdold = s.rdold := rfl
@[simp] theorem State.complete_rdata (s : State) : (s.complete).rdata = s.rdata := rfl
@[simp] theorem State.complete_busy (s : State) : (s.complete).busy = false := rfl
@[simp] theorem State.complete_done (s : State) : (s.complete).done = true := rfl
@[simp] theorem State.complete_err (s : State) : (s.complete).err = (s.err || s.seq.code != .ok) := rfl
@[simp] theorem State.complete_overrun (s : State) : (s.complete).overrun = s.overrun := rfl
@[simp] theorem State.complete_errcode (s : State) : (s.complete).errcode = s.seq.code := rfl
@[simp] theorem State.complete_stage (s : State) : (s.complete).stage = s.stage := rfl
@[simp] theorem State.complete_passes (s : State) : (s.complete).passes = s.passes := rfl
@[simp] theorem State.complete_pwr (s : State) : (s.complete).pwr = s.pwr := rfl
@[simp] theorem State.complete_seg (s : State) : (s.complete).seg = s.seg := rfl
@[simp] theorem State.complete_tempC (s : State) : (s.complete).tempC = s.tempC := rfl
@[simp] theorem State.complete_factor (s : State) : (s.complete).factor = s.factor := rfl
@[simp] theorem State.complete_duration (s : State) : (s.complete).duration = s.duration := rfl
@[simp] theorem State.complete_res (s : State) : (s.complete).res = s.res := rfl
@[simp] theorem State.complete_old (s : State) : (s.complete).old = s.old := rfl
@[simp] theorem State.complete_lat (s : State) : (s.complete).lat = s.lat := rfl
@[simp] theorem State.complete_seq (s : State) : (s.complete).seq = Seq.idle := rfl
@[simp] theorem State.complete_acc (s : State) : (s.complete).acc = s.acc := rfl
@[simp] theorem State.complete_pins (s : State) : (s.complete).pins = s.pins := rfl
@[simp] theorem State.complete_tx (s : State) : (s.complete).tx = s.tx := rfl
@[simp] theorem State.complete_rd (s : State) : (s.complete).rd = s.rd := rfl
@[simp] theorem State.complete_ms (s : State) : (s.complete).ms = s.ms := rfl
@[simp] theorem State.complete_trace (s : State) : (s.complete).trace = s.trace ++ [.done s.seq.code] := rfl
@[simp] theorem State.complete_inputs (s : State) : (s.complete).inputs = s.inputs := rfl

@[simp] theorem State.dropCommand_params (s : State) : (s.dropCommand).params = s.params := rfl
@[simp] theorem State.dropCommand_range (s : State) : (s.dropCommand).range = s.range := rfl
@[simp] theorem State.dropCommand_rdbase (s : State) : (s.dropCommand).rdbase = s.rdbase := rfl
@[simp] theorem State.dropCommand_rdold (s : State) : (s.dropCommand).rdold = s.rdold := rfl
@[simp] theorem State.dropCommand_rdata (s : State) : (s.dropCommand).rdata = s.rdata := rfl
@[simp] theorem State.dropCommand_busy (s : State) : (s.dropCommand).busy = s.busy := rfl
@[simp] theorem State.dropCommand_done (s : State) : (s.dropCommand).done = s.done := rfl
@[simp] theorem State.dropCommand_err (s : State) : (s.dropCommand).err = s.err := rfl
@[simp] theorem State.dropCommand_overrun (s : State) : (s.dropCommand).overrun = true := rfl
@[simp] theorem State.dropCommand_errcode (s : State) : (s.dropCommand).errcode = s.errcode := rfl
@[simp] theorem State.dropCommand_stage (s : State) : (s.dropCommand).stage = s.stage := rfl
@[simp] theorem State.dropCommand_passes (s : State) : (s.dropCommand).passes = s.passes := rfl
@[simp] theorem State.dropCommand_pwr (s : State) : (s.dropCommand).pwr = s.pwr := rfl
@[simp] theorem State.dropCommand_seg (s : State) : (s.dropCommand).seg = s.seg := rfl
@[simp] theorem State.dropCommand_tempC (s : State) : (s.dropCommand).tempC = s.tempC := rfl
@[simp] theorem State.dropCommand_factor (s : State) : (s.dropCommand).factor = s.factor := rfl
@[simp] theorem State.dropCommand_duration (s : State) : (s.dropCommand).duration = s.duration := rfl
@[simp] theorem State.dropCommand_res (s : State) : (s.dropCommand).res = s.res := rfl
@[simp] theorem State.dropCommand_old (s : State) : (s.dropCommand).old = s.old := rfl
@[simp] theorem State.dropCommand_lat (s : State) : (s.dropCommand).lat = s.lat := rfl
@[simp] theorem State.dropCommand_seq (s : State) : (s.dropCommand).seq = s.seq := rfl
@[simp] theorem State.dropCommand_acc (s : State) : (s.dropCommand).acc = s.acc := rfl
@[simp] theorem State.dropCommand_pins (s : State) : (s.dropCommand).pins = s.pins := rfl
@[simp] theorem State.dropCommand_tx (s : State) : (s.dropCommand).tx = s.tx := rfl
@[simp] theorem State.dropCommand_rd (s : State) : (s.dropCommand).rd = s.rd := rfl
@[simp] theorem State.dropCommand_ms (s : State) : (s.dropCommand).ms = s.ms := rfl
@[simp] theorem State.dropCommand_trace (s : State) : (s.dropCommand).trace = s.trace := rfl
@[simp] theorem State.dropCommand_inputs (s : State) : (s.dropCommand).inputs = s.inputs := rfl

@[simp] theorem State.readReg_params (addr : BitVec 8) (s : State) : (s.readReg addr).params = s.params := rfl
@[simp] theorem State.readReg_range (addr : BitVec 8) (s : State) : (s.readReg addr).range = s.range := rfl
@[simp] theorem State.readReg_rdbase (addr : BitVec 8) (s : State) : (s.readReg addr).rdbase = s.rdbase := rfl
@[simp] theorem State.readReg_rdold (addr : BitVec 8) (s : State) : (s.readReg addr).rdold = s.rdold := rfl
@[simp] theorem State.readReg_rdata (addr : BitVec 8) (s : State) :
    (s.readReg addr).rdata = regRead addr s := rfl
@[simp] theorem State.readReg_busy (addr : BitVec 8) (s : State) : (s.readReg addr).busy = s.busy := rfl
@[simp] theorem State.readReg_done (addr : BitVec 8) (s : State) : (s.readReg addr).done = s.done := rfl
@[simp] theorem State.readReg_err (addr : BitVec 8) (s : State) : (s.readReg addr).err = s.err := rfl
@[simp] theorem State.readReg_overrun (addr : BitVec 8) (s : State) :
    (s.readReg addr).overrun = s.overrun := rfl
@[simp] theorem State.readReg_errcode (addr : BitVec 8) (s : State) :
    (s.readReg addr).errcode = s.errcode := rfl
@[simp] theorem State.readReg_stage (addr : BitVec 8) (s : State) : (s.readReg addr).stage = s.stage := rfl
@[simp] theorem State.readReg_passes (addr : BitVec 8) (s : State) : (s.readReg addr).passes = s.passes := rfl
@[simp] theorem State.readReg_pwr (addr : BitVec 8) (s : State) : (s.readReg addr).pwr = s.pwr := rfl
@[simp] theorem State.readReg_seg (addr : BitVec 8) (s : State) : (s.readReg addr).seg = s.seg := rfl
@[simp] theorem State.readReg_tempC (addr : BitVec 8) (s : State) : (s.readReg addr).tempC = s.tempC := rfl
@[simp] theorem State.readReg_factor (addr : BitVec 8) (s : State) : (s.readReg addr).factor = s.factor := rfl
@[simp] theorem State.readReg_duration (addr : BitVec 8) (s : State) :
    (s.readReg addr).duration = s.duration := rfl
@[simp] theorem State.readReg_res (addr : BitVec 8) (s : State) : (s.readReg addr).res = s.res := rfl
@[simp] theorem State.readReg_old (addr : BitVec 8) (s : State) : (s.readReg addr).old = s.old := rfl
@[simp] theorem State.readReg_lat (addr : BitVec 8) (s : State) : (s.readReg addr).lat = s.lat := rfl
@[simp] theorem State.readReg_seq (addr : BitVec 8) (s : State) : (s.readReg addr).seq = s.seq := rfl
@[simp] theorem State.readReg_acc (addr : BitVec 8) (s : State) : (s.readReg addr).acc = s.acc := rfl
@[simp] theorem State.readReg_pins (addr : BitVec 8) (s : State) : (s.readReg addr).pins = s.pins := rfl
@[simp] theorem State.readReg_tx (addr : BitVec 8) (s : State) : (s.readReg addr).tx = s.tx := rfl
@[simp] theorem State.readReg_rd (addr : BitVec 8) (s : State) : (s.readReg addr).rd = s.rd := rfl
@[simp] theorem State.readReg_ms (addr : BitVec 8) (s : State) : (s.readReg addr).ms = s.ms := rfl
@[simp] theorem State.readReg_trace (addr : BitVec 8) (s : State) : (s.readReg addr).trace = s.trace := rfl
@[simp] theorem State.readReg_inputs (addr : BitVec 8) (s : State) : (s.readReg addr).inputs = s.inputs := rfl

@[simp] theorem State.writeStatus_params (v : Word) (s : State) : (s.writeStatus v).params = s.params := rfl
@[simp] theorem State.writeStatus_range (v : Word) (s : State) : (s.writeStatus v).range = s.range := rfl
@[simp] theorem State.writeStatus_rdbase (v : Word) (s : State) : (s.writeStatus v).rdbase = s.rdbase := rfl
@[simp] theorem State.writeStatus_rdold (v : Word) (s : State) : (s.writeStatus v).rdold = s.rdold := rfl
@[simp] theorem State.writeStatus_rdata (v : Word) (s : State) : (s.writeStatus v).rdata = s.rdata := rfl
@[simp] theorem State.writeStatus_busy (v : Word) (s : State) : (s.writeStatus v).busy = s.busy := rfl
@[simp] theorem State.writeStatus_done (v : Word) (s : State) :
    (s.writeStatus v).done = (s.done && !bit v 1) := rfl
@[simp] theorem State.writeStatus_err (v : Word) (s : State) :
    (s.writeStatus v).err = (s.err && !bit v 2) := rfl
@[simp] theorem State.writeStatus_overrun (v : Word) (s : State) :
    (s.writeStatus v).overrun = (s.overrun && !bit v 3) := rfl
@[simp] theorem State.writeStatus_errcode (v : Word) (s : State) :
    (s.writeStatus v).errcode = s.errcode := rfl
@[simp] theorem State.writeStatus_stage (v : Word) (s : State) : (s.writeStatus v).stage = s.stage := rfl
@[simp] theorem State.writeStatus_passes (v : Word) (s : State) : (s.writeStatus v).passes = s.passes := rfl
@[simp] theorem State.writeStatus_pwr (v : Word) (s : State) : (s.writeStatus v).pwr = s.pwr := rfl
@[simp] theorem State.writeStatus_seg (v : Word) (s : State) : (s.writeStatus v).seg = s.seg := rfl
@[simp] theorem State.writeStatus_tempC (v : Word) (s : State) : (s.writeStatus v).tempC = s.tempC := rfl
@[simp] theorem State.writeStatus_factor (v : Word) (s : State) : (s.writeStatus v).factor = s.factor := rfl
@[simp] theorem State.writeStatus_duration (v : Word) (s : State) :
    (s.writeStatus v).duration = s.duration := rfl
@[simp] theorem State.writeStatus_res (v : Word) (s : State) : (s.writeStatus v).res = s.res := rfl
@[simp] theorem State.writeStatus_old (v : Word) (s : State) : (s.writeStatus v).old = s.old := rfl
@[simp] theorem State.writeStatus_lat (v : Word) (s : State) : (s.writeStatus v).lat = s.lat := rfl
@[simp] theorem State.writeStatus_seq (v : Word) (s : State) : (s.writeStatus v).seq = s.seq := rfl
@[simp] theorem State.writeStatus_acc (v : Word) (s : State) : (s.writeStatus v).acc = s.acc := rfl
@[simp] theorem State.writeStatus_pins (v : Word) (s : State) : (s.writeStatus v).pins = s.pins := rfl
@[simp] theorem State.writeStatus_tx (v : Word) (s : State) : (s.writeStatus v).tx = s.tx := rfl
@[simp] theorem State.writeStatus_rd (v : Word) (s : State) : (s.writeStatus v).rd = s.rd := rfl
@[simp] theorem State.writeStatus_ms (v : Word) (s : State) : (s.writeStatus v).ms = s.ms := rfl
@[simp] theorem State.writeStatus_trace (v : Word) (s : State) : (s.writeStatus v).trace = s.trace := rfl
@[simp] theorem State.writeStatus_inputs (v : Word) (s : State) : (s.writeStatus v).inputs = s.inputs := rfl

end Sys2Proof.Machine
end

