-- ==== Sys2Proof/Laws/Sequencer.lean ====
section
/-! SUPPORT. The sequencer: what a draw, a tick, a run of ticks, a launch and an access can do, each said
once. -/

namespace Sys2Proof.Machine

open Sys2Proof

/-! ### Draws change the inputs only, and `Now()` the counter too -/

theorem sampleBusy_state (s : State) : (sampleBusy s).2 = { s with inputs := (sampleBusy s).2.inputs } := by
  unfold sampleBusy; split <;> rfl

theorem sampleTxReady_state (s : State) :
    (sampleTxReady s).2 = { s with inputs := (sampleTxReady s).2.inputs } := by
  unfold sampleTxReady; split <;> rfl

theorem sampleRdReqReady_state (s : State) :
    (sampleRdReqReady s).2 = { s with inputs := (sampleRdReqReady s).2.inputs } := by
  unfold sampleRdReqReady; split <;> rfl

theorem sampleRdData_state (s : State) :
    (sampleRdData s).2 = { s with inputs := (sampleRdData s).2.inputs } := by
  unfold sampleRdData; split <;> rfl

theorem sampleTempIn_state (s : State) :
    (sampleTempIn s).2 = { s with inputs := (sampleTempIn s).2.inputs } := by
  unfold sampleTempIn; split <;> rfl

theorem sampleElapsed_state (s : State) :
    (sampleElapsed s).2 = { s with inputs := (sampleElapsed s).2.inputs } := by
  unfold sampleElapsed; split <;> rfl

theorem readNow_state (s : State) :
    (readNow s).2 = { s with ms := (readNow s).1, inputs := (sampleElapsed s).2.inputs } := by
  have h := sampleElapsed_state s
  simp only [readNow]
  rw [h]

/-! ### Outcomes -/

@[simp] theorem andThen_next (s : State) (f : State → Result) : andThen (.next s) f = f s := rfl

@[simp] theorem andThen_fault (r : Fault) (f : State → Result) : andThen (.fault r) f = .fault r := rfl

@[simp] theorem andThen_refused (r : Refusal) (f : State → Result) :
    andThen (.refused r) f = .refused r := rfl

/-- What it means that a sequence of two answers a next state. -/
theorem andThen_eq_next {o : Result} {f : State → Result} {t : State} :
    andThen o f = .next t ↔ ∃ u, o = .next u ∧ f u = .next t := by
  cases o <;> simp [andThen]

theorem andThen_assoc (o : Result) (f g : State → Result) :
    andThen (andThen o f) g = andThen o fun u => andThen (f u) g := by
  cases o <;> rfl

/-! ### Ticks -/

@[simp] theorem ticks_zero (s : State) : ticks 0 s = .next s := rfl

theorem ticks_succ (n : Nat) (s : State) : ticks (n + 1) s = andThen (tick s) (ticks n) := rfl

theorem ticks_add (m n : Nat) (s : State) : ticks (m + n) s = andThen (ticks m s) (ticks n) := by
  induction m generalizing s with
  | zero => simp
  | succ m ih =>
    rw [Nat.succ_add, ticks_succ, ticks_succ, andThen_assoc]
    congr 1
    funext u
    exact ih u

/-- An idle block stays as it is (R274). -/
@[simp] theorem tick_idle {s : State} (h : s.busy = false) : tick s = .next s := by simp [tick, h]

/-- An idle block stays as it is for any number of ticks (R274). -/
theorem ticks_idle {s : State} (h : s.busy = false) (n : Nat) : ticks n s = .next s := by
  induction n with
  | zero => rfl
  | succ n ih => simp [ticks_succ, h, ih]

/-- With nothing left to run, a tick completes the command (R237). -/
theorem tick_done {s : State} (hb : s.busy = true) (ht : s.seq.todo = []) : tick s = .next s.complete := by
  simp [tick, hb, ht]

/-- With something left to run, a tick runs its head. -/
theorem tick_head {s : State} {m : Micro} {rest : List Micro} (hb : s.busy = true)
    (ht : s.seq.todo = m :: rest) : tick s = runMicro m (s.setTodo rest) := by
  simp [tick, hb, ht]

/-- Everything a tick can do. -/
theorem tick_cases {s t : State} (h : tick s = .next t) :
    (s.busy = false ∧ t = s) ∨
      (s.busy = true ∧ s.seq.todo = [] ∧ t = s.complete) ∨
      (∃ m rest, s.busy = true ∧ s.seq.todo = m :: rest ∧
        runMicro m (s.setTodo rest) = .next t) := by
  cases hb : s.busy with
  | false => exact .inl ⟨rfl, by rw [tick_idle hb] at h; exact (Host.Outcome.next.inj h).symm⟩
  | true =>
    cases ht : s.seq.todo with
    | nil =>
      rw [tick_done hb ht] at h
      exact .inr (.inl ⟨rfl, rfl, (Host.Outcome.next.inj h).symm⟩)
    | cons m rest =>
      rw [tick_head hb ht] at h
      exact .inr (.inr ⟨m, rest, rfl, rfl, h⟩)

/-- What holds before and is kept by every tick holds after a run of ticks. -/
theorem ticks_keep {P : State → Prop} (hP : ∀ {s t : State}, P s → tick s = .next t → P t) :
    ∀ {n : Nat} {s t : State}, P s → ticks n s = .next t → P t := by
  intro n
  induction n with
  | zero => intro s t hs h; exact Host.Outcome.next.inj h ▸ hs
  | succ n ih =>
    intro s t hs h
    obtain ⟨u, hu, h⟩ := andThen_eq_next.mp (ticks_succ n s ▸ h)
    exact ih (hP hs hu) h

/-! ### The course of a micro-operation -/

/-- What a micro-operation puts in front of the position, and what it emits, unless it is a fatal busy poll
that times out (that one is the second case of `runMicro_course`). -/
def Course (p : Params) (pwr : Pwr) (m : Micro) (new : List Micro) (evs : List Event) : Prop :=
  match m with
  | .powerOn => new = p.powerOnSeq.map (fun a => .perform a true) ++ [.setPwr .on] ∧ evs = []
  | .powerOff =>
    new = (if pwr = .off then [] else p.powerOffSeq.map (fun a => .perform a false) ++ [.setPwr .off])
      ∧ evs = []
  | .perform (.pin q v) _ => new = [] ∧ evs = [.pin q v]
  | .perform (.sleep n) _ => (∃ t0, new = [.sleeping t0 n]) ∧ evs = [.sleep n]
  | .perform (.xfer bs) _ => new = [.setPin .cs false, .send bs, .setPin .cs true] ∧ evs = []
  | .perform .waitBusy fatal => new = [.pollStart fatal] ∧ evs = []
  | .sleeping t0 n => (new = [] ∨ new = [.sleeping t0 n]) ∧ evs = []
  | .setPin q v => new = [] ∧ evs = [.pin q v]
  | .send [] => new = [] ∧ evs = []
  | .send (b :: bs) => (new = [.send bs] ∧ evs = [.tx b]) ∨ (new = [.send (b :: bs)] ∧ evs = [])
  | .pollStart fatal => (∃ t0, new = [.polling t0 fatal]) ∧ evs = []
  | .polling t0 fatal =>
    (new = [] ∧ evs = [.busy .ok]) ∨ (new = [.polling t0 fatal] ∧ evs = []) ∨
      (fatal = false ∧ new = [] ∧ evs = [.busy .timeout])
  | .stage st sd first count => (∃ d, new = [.passStart st sd first count d 0]) ∧ evs = []
  | .passStart st sd first count d n =>
    (∃ t0, new = [.pass st sd first count, .passEnd st sd first count d (n + 1) t0]) ∧ evs = []
  | .passEnd st sd first count d n _ => (new = [] ∨ new = [.passStart st sd first count d n]) ∧ evs = []
  | .pass st sd first count => new = [.rows st sd first 0 count] ∧ evs = []
  | .rows _ _ _ _ 0 => new = [] ∧ evs = []
  | .rows st sd r k (n + 1) => new = [.row st sd r k, .rows st sd (r + 1) (k + 1) n] ∧ evs = []
  | .row st sd r k =>
    ((∃ src, new = [.setPin .cs false, .send (rowFrame p st r src), .setPin .cs true, .pollStart true]) ∨
      new = [.request st r (readerAddr p sd.base k)]) ∧ evs = []
  | .request st r addr =>
    (new = [.collect st r [] p.bpr] ∧ evs = [.rdReq addr p.bpr]) ∨ (new = [.request st r addr] ∧ evs = [])
  | .collect st r got 0 =>
    new = [.setPin .cs false, .send (rowFrame p st r got), .setPin .cs true, .pollStart true]
      ∧ evs = [.rdData got]
  | .collect st r got (n + 1) =>
    ((∃ b, new = [.collect st r (got ++ [b]) n]) ∨ new = [.collect st r got (n + 1)]) ∧ evs = []
  | .sampleTemp => new = [] ∧ (evs = [] ∨ ∃ t, evs = [.tempSample t])
  | .loadTemp _ => new = [] ∧ evs = []
  | .selectSegment _ => new = [] ∧ evs = []
  | .paint _ _ _ => new = [] ∧ evs = []
  | .setPwr _ => new = [] ∧ evs = []
  | .setPasses => new = [] ∧ evs = []
  | .clearRes => new = [] ∧ evs = []
  | .clearOld => new = [] ∧ evs = []
  | .copyOld => new = [] ∧ evs = []

/-- `pwr` after a micro-operation, with the same exception: only the last action of a power sequence writes
it (R50). -/
def pwrAfter (pwr : Pwr) : Micro → Pwr
  | .setPwr v => v
  | _ => pwr

/-- Everything a micro-operation can do to the position, the trace and the power state. -/
theorem runMicro_course {m : Micro} {s t : State} (h : runMicro m s = .next t) :
    (∃ new evs, Course s.params s.pwr m new evs ∧
      t.seq = ⟨new ++ s.seq.todo, s.seq.code, s.seq.onTimeout⟩ ∧ t.trace = s.trace ++ evs ∧
      t.pwr = pwrAfter s.pwr m) ∨
    (∃ t0, m = .polling t0 true ∧ t.seq = ⟨s.seq.onTimeout, .deviceTimeout, []⟩ ∧
      t.trace = s.trace ++ [.busy .timeout] ∧ t.pwr = .fault) := by
  cases m with
  | loadTemp x => cases h; exact .inl ⟨[], [], ⟨rfl, rfl⟩, rfl, by simp [State.loadTemp], rfl⟩
  | sampleTemp =>
    cases h
    unfold doSampleTemp
    split
    · dsimp only
      rw [sampleTempIn_state]
      exact .inl ⟨[], [_], ⟨rfl, .inr ⟨_, rfl⟩⟩, rfl, rfl, rfl⟩
    · exact .inl ⟨[], [], ⟨rfl, .inl rfl⟩, rfl, by simp [State.loadTemp], rfl⟩
  | selectSegment x => cases h; exact .inl ⟨[], [], ⟨rfl, rfl⟩, rfl, by simp [doSelectSegment], rfl⟩
  | paint a b c =>
    simp only [runMicro, paintRes] at h
    split at h
    · cases h; exact .inl ⟨[], [], ⟨rfl, rfl⟩, rfl, by simp, rfl⟩
    · cases h
  | powerOn => cases h; exact .inl ⟨_, [], ⟨rfl, rfl⟩, rfl, by simp [doPowerOn, State.push, State.setTodo], rfl⟩
  | powerOff =>
    cases h
    unfold doPowerOff
    split
    · exact .inl ⟨_, [], ⟨rfl, rfl⟩, by simp [*], by simp, rfl⟩
    · exact .inl ⟨_, [], ⟨rfl, rfl⟩, by simp [*, State.push, State.setTodo],
        by simp [State.push, State.setTodo], rfl⟩
  | setPwr v => cases h; exact .inl ⟨[], [], ⟨rfl, rfl⟩, rfl, by simp [State.setPwr], rfl⟩
  | perform a fatal =>
    cases h
    cases a with
    | pin q v => exact .inl ⟨[], [_], ⟨rfl, rfl⟩, rfl, rfl, rfl⟩
    | sleep n =>
      simp only [doPerform, doSleep]
      rw [readNow_state]
      exact .inl ⟨_, [_], ⟨⟨_, rfl⟩, rfl⟩, rfl, rfl, rfl⟩
    | xfer bs => exact .inl ⟨_, [], ⟨rfl, rfl⟩, rfl, by simp [doPerform, State.push, State.setTodo], rfl⟩
    | waitBusy => exact .inl ⟨_, [], ⟨rfl, rfl⟩, rfl, by simp [doPerform, State.push, State.setTodo], rfl⟩
  | sleeping t0 n =>
    cases h
    simp only [doSleeping]
    split
    · rw [readNow_state]; exact .inl ⟨[], [], ⟨.inl rfl, rfl⟩, rfl, by simp, rfl⟩
    · rw [readNow_state]
      exact .inl ⟨_, [], ⟨.inr rfl, rfl⟩, rfl, by simp [State.push, State.setTodo], rfl⟩
  | setPin q v => cases h; exact .inl ⟨[], [_], ⟨rfl, rfl⟩, rfl, rfl, rfl⟩
  | send bs =>
    cases h
    cases bs with
    | nil => exact .inl ⟨[], [], ⟨rfl, rfl⟩, rfl, by simp [doSend], rfl⟩
    | cons b bs =>
      simp only [doSend]
      split
      · rw [sampleTxReady_state]; exact .inl ⟨_, [_], .inl ⟨rfl, rfl⟩, rfl, rfl, rfl⟩
      · rw [sampleTxReady_state]
        exact .inl ⟨_, [], .inr ⟨rfl, rfl⟩, rfl, by simp [State.push, State.setTodo], rfl⟩
  | pollStart fatal =>
    cases h
    simp only [doPollStart]
    rw [readNow_state]
    exact .inl ⟨_, [], ⟨⟨_, rfl⟩, rfl⟩, rfl, by simp [State.push, State.setTodo], rfl⟩
  | polling t0 fatal =>
    cases h
    simp only [doPolling]
    split
    · split
      · cases fatal with
        | true =>
          simp only [busyTimeout]
          rw [readNow_state, sampleBusy_state]
          exact .inr ⟨_, rfl, rfl, rfl, rfl⟩
        | false =>
          simp only [busyTimeout]
          rw [readNow_state, sampleBusy_state]
          exact .inl ⟨[], [_], .inr (.inr ⟨rfl, rfl, rfl⟩), rfl, rfl, rfl⟩
      · rw [readNow_state, sampleBusy_state]
        exact .inl ⟨_, [], .inr (.inl ⟨rfl, rfl⟩), rfl, by simp [State.push, State.setTodo], rfl⟩
    · rw [sampleBusy_state]
      exact .inl ⟨[], [_], .inl ⟨rfl, rfl⟩, rfl, rfl, rfl⟩
  | setPasses => cases h; exact .inl ⟨[], [], ⟨rfl, rfl⟩, rfl, by simp, rfl⟩
  | stage st sd first count =>
    cases h
    exact .inl ⟨_, [], ⟨⟨_, rfl⟩, rfl⟩, rfl, by simp [doStage, State.push, State.setTodo], rfl⟩
  | passStart st sd first count d n =>
    cases h
    simp only [doPassStart]
    rw [readNow_state]
    exact .inl ⟨_, [], ⟨⟨_, rfl⟩, rfl⟩, rfl, by simp [State.push, State.setTodo], rfl⟩
  | passEnd st sd first count d n t0 =>
    cases h
    simp only [doPassEnd]
    split
    · rw [readNow_state]; exact .inl ⟨[], [], ⟨.inl rfl, rfl⟩, rfl, by simp, rfl⟩
    · rw [readNow_state]
      exact .inl ⟨_, [], ⟨.inr rfl, rfl⟩, rfl, by simp [State.push, State.setTodo], rfl⟩
  | pass st sd first count =>
    cases h; exact .inl ⟨_, [], ⟨rfl, rfl⟩, rfl, by simp [doPass, State.push, State.setTodo], rfl⟩
  | rows st sd r k left =>
    cases h
    cases left with
    | zero => exact .inl ⟨[], [], ⟨rfl, rfl⟩, rfl, by simp [doRows], rfl⟩
    | succ n => exact .inl ⟨_, [], ⟨rfl, rfl⟩, rfl, by simp [doRows, State.push, State.setTodo], rfl⟩
  | row st sd r k =>
    simp only [runMicro, doRow, readRes, readOld] at h
    split at h
    · cases h
      exact .inl ⟨_, [], ⟨.inl ⟨_, rfl⟩, rfl⟩, rfl, by simp [sendRow, State.push, State.setTodo], rfl⟩
    · split at h
      · cases h
        exact .inl ⟨_, [], ⟨.inl ⟨_, rfl⟩, rfl⟩, rfl, by simp [sendRow, State.push, State.setTodo], rfl⟩
      · cases h
    · split at h
      · cases h
        exact .inl ⟨_, [], ⟨.inl ⟨_, rfl⟩, rfl⟩, rfl, by simp [sendRow, State.push, State.setTodo], rfl⟩
      · cases h
    · cases h
      exact .inl ⟨_, [], ⟨.inr rfl, rfl⟩, rfl, by simp [State.push, State.setTodo], rfl⟩
  | request st r addr =>
    cases h
    simp only [doRequest]
    split
    · rw [sampleRdReqReady_state]; exact .inl ⟨_, [_], .inl ⟨rfl, rfl⟩, rfl, rfl, rfl⟩
    · rw [sampleRdReqReady_state]
      exact .inl ⟨_, [], .inr ⟨rfl, rfl⟩, rfl, by simp [State.push, State.setTodo], rfl⟩
  | collect st r got left =>
    cases h
    cases left with
    | zero => exact .inl ⟨_, [_], ⟨rfl, rfl⟩, rfl, rfl, rfl⟩
    | succ n =>
      simp only [doCollect]
      split
      · rw [sampleRdData_state]
        exact .inl ⟨_, [], ⟨.inl ⟨_, rfl⟩, rfl⟩, rfl, by simp [State.push, State.setTodo], rfl⟩
      · rw [sampleRdData_state]
        exact .inl ⟨_, [], ⟨.inr rfl, rfl⟩, rfl, by simp [State.push, State.setTodo], rfl⟩
  | clearRes => cases h; exact .inl ⟨[], [], ⟨rfl, rfl⟩, rfl, by simp [doClearRes], rfl⟩
  | clearOld => cases h; exact .inl ⟨[], [], ⟨rfl, rfl⟩, rfl, by simp [doClearOld], rfl⟩
  | copyOld => cases h; exact .inl ⟨[], [], ⟨rfl, rfl⟩, rfl, by simp [doCopyOld], rfl⟩

/-! ### What a micro-operation leaves alone -/

/-- The state with the fields that a micro-operation may write taken from `t`; all others are those of
`s`. -/
def State.workOf (s t : State) : State :=
  { s with
    stage := t.stage, passes := t.passes, pwr := t.pwr, seg := t.seg, tempC := t.tempC, factor := t.factor,
    duration := t.duration, res := t.res, old := t.old, seq := t.seq, acc := t.acc, pins := t.pins, tx := t.tx,
    rd := t.rd, ms := t.ms, trace := t.trace
    inputs :=
      { t.inputs with
        rstN := s.inputs.rstN, moves := s.inputs.moves, program := s.inputs.program, outOfBounds := s.inputs.outOfBounds
        gap := s.inputs.gap } }

theorem sampleBusy_workOf (s : State) : (sampleBusy s).2 = s.workOf (sampleBusy s).2 := by
  unfold sampleBusy; split <;> rfl

theorem sampleTxReady_workOf (s : State) : (sampleTxReady s).2 = s.workOf (sampleTxReady s).2 := by
  unfold sampleTxReady; split <;> rfl

theorem sampleRdReqReady_workOf (s : State) : (sampleRdReqReady s).2 = s.workOf (sampleRdReqReady s).2 := by
  unfold sampleRdReqReady; split <;> rfl

theorem sampleRdData_workOf (s : State) : (sampleRdData s).2 = s.workOf (sampleRdData s).2 := by
  unfold sampleRdData; split <;> rfl

theorem sampleTempIn_workOf (s : State) : (sampleTempIn s).2 = s.workOf (sampleTempIn s).2 := by
  unfold sampleTempIn; split <;> rfl

theorem readNow_workOf (s : State) : (readNow s).2 = s.workOf (readNow s).2 := by
  unfold readNow sampleElapsed; dsimp only; split <;> rfl

/-- A micro-operation writes no parameter, no host register, no flag, no latched copy, and nothing of
what the host does next (R57, R60, R62, R91). -/
theorem runMicro_keeps {m : Micro} {s t : State} (h : runMicro m s = .next t) : t = s.workOf t := by
  cases m with
  | loadTemp x => cases h; rfl
  | sampleTemp => 
    cases h
    unfold doSampleTemp
    split
    · dsimp only; rw [sampleTempIn_workOf]; rfl
    · rfl
  | selectSegment x => cases h; rfl
  | paint a b c =>
    simp only [runMicro, paintRes] at h
    split at h <;> cases h
    rfl
  | powerOn => cases h; rfl
  | powerOff => cases h; unfold doPowerOff; split <;> rfl
  | setPwr v => cases h; rfl
  | perform a fatal =>
    cases h
    cases a with
    | sleep n => simp only [doPerform, doSleep]; rw [readNow_workOf]; rfl
    | pin q v => rfl
    | xfer bs => rfl
    | waitBusy => rfl
  | sleeping t0 n => 
    cases h; simp only [doSleeping]; split <;> (rw [readNow_workOf]; rfl)
  | setPin q v => cases h; rfl
  | send bs =>
    cases h
    cases bs with
    | nil => rfl
    | cons b bs => simp only [doSend]; split <;> (rw [sampleTxReady_workOf]; rfl)
  | pollStart fatal => cases h; simp only [doPollStart]; rw [readNow_workOf]; rfl
  | polling t0 fatal =>
    cases h
    simp only [doPolling]
    split
    · split
      · unfold busyTimeout; split <;> (rw [readNow_workOf, sampleBusy_workOf]; rfl)
      · rw [readNow_workOf, sampleBusy_workOf]; rfl
    · rw [sampleBusy_workOf]; rfl
  | setPasses => cases h; rfl
  | stage st sd first count => cases h; rfl
  | passStart st sd first count d n =>
    cases h
    simp only [doPassStart]; rw [readNow_workOf]; rfl
  | passEnd st sd first count d n t0 =>
    cases h
    simp only [doPassEnd]; split <;> (rw [readNow_workOf]; rfl)
  | pass st sd first count => cases h; rfl
  | rows st sd r k left => cases h; cases left <;> rfl
  | row st sd r k =>
    simp only [runMicro, doRow, readRes, readOld] at h
    split at h <;> [cases h; (split at h <;> cases h); (split at h <;> cases h); cases h] <;> rfl
  | request st r addr => 
    cases h; simp only [doRequest]; split <;> (rw [sampleRdReqReady_workOf]; rfl)
  | collect st r got left =>
    cases h
    cases left with
    | zero => rfl
    | succ n => simp only [doCollect]; split <;> (rw [sampleRdData_workOf]; rfl)
  | clearRes => cases h; rfl
  | clearOld => cases h; rfl
  | copyOld => cases h; rfl

/-! ### Launch -/

/-- Everything a legal word can do at `CMD`: it is dropped, or launched and checked, and then the ticks
run. -/
theorem runCommand_cases {w : Word} {plan : State → Plan} {s t : State}
    (h : runCommand w plan s = .next t) :
    (s.busy = true ∧ ticks s.inputs.gap s.dropCommand = .next t) ∨
      (s.busy = false ∧ ticks s.inputs.gap ((s.launch w).follow (plan (s.launch w))) = .next t) := by
  unfold runCommand at h
  split at h
  · exact .inl ⟨‹_›, h⟩
  · exact .inr ⟨by simpa using ‹¬s.busy = true›, h⟩

/-- Everything an illegal word can do at `CMD`. -/
theorem runIllegal_cases {w : Word} {s t : State} (h : runIllegal w s = .next t) :
    (s.busy = true ∧ ticks s.inputs.gap s.dropCommand = .next t) ∨
      (s.busy = false ∧ t = ((s.launch w).raiseError .illegalCmd).complete) := by
  unfold runIllegal at h
  split at h
  · exact .inl ⟨‹_›, h⟩
  · rw [ticks_idle rfl] at h
    exact .inr ⟨by simpa using ‹¬s.busy = true›, (Host.Outcome.next.inj h).symm⟩

@[simp] theorem follow_fail (c : Code) (s : State) : s.follow (.fail c) = s.raiseError c := rfl

@[simp] theorem follow_run (todo onTimeout : List Micro) (s : State) :
    s.follow (.run todo onTimeout) = { s with seq := ⟨todo, .ok, onTimeout⟩ } := rfl

/-- A guarded plan fails with the first check that does, or runs. -/
theorem guarded_cases (checks : List (Bool × Code)) (todo onTimeout : List Micro) :
    (∃ c, firstError checks = some c ∧ guarded checks todo onTimeout = .fail c) ∨
      (firstError checks = none ∧ guarded checks todo onTimeout = .run todo onTimeout) := by
  cases h : firstError checks with
  | some c => exact .inl ⟨c, rfl, by simp [guarded, h]⟩
  | none => exact .inr ⟨rfl, by simp [guarded, h]⟩

/-- The code of a failing plan is that of a check that fails. -/
theorem firstError_mem {checks : List (Bool × Code)} {c : Code} (h : firstError checks = some c) :
    (true, c) ∈ checks := by
  induction checks with
  | nil => cases h
  | cons p rest ih =>
    obtain ⟨b, d⟩ := p
    cases b with
    | true => simp [firstError] at h; simp [h]
    | false => exact List.mem_cons_of_mem _ (ih (by simpa [firstError] using h))

end Sys2Proof.Machine
end

