-- ==== Sys2Proof/Laws/Host.lean ====
section
/-! SUPPORT. The host at the register port: what a step does for the access that is next, for the operation
that is next in the host's program, and with neither. -/

namespace Sys2Proof.Machine

open Sys2Proof

/-- Bit 0 of `STATUS` is `busy` (R40). -/
@[simp] theorem statusWord_busy (s : State) : (statusWord s).getLsbD 0 = s.busy := by
  rw [statusWord, BitVec.getLsbD_append]
  simp

@[simp] theorem State.goOnWith_nil (s : State) : s.goOnWith [] = s := rfl

@[simp] theorem State.goOnWith_program (ops : List HostOp) (s : State) :
    (s.goOnWith ops).inputs.program = paced s.inputs.gap ops ++ s.inputs.program := rfl

@[simp] theorem State.goOnWith_moves (ops : List HostOp) (s : State) :
    (s.goOnWith ops).inputs.moves = s.inputs.moves := rfl

@[simp] theorem State.goOnWith_busy (ops : List HostOp) (s : State) : (s.goOnWith ops).busy = s.busy := rfl

@[simp] theorem State.goOnWith_rdata (ops : List HostOp) (s : State) : (s.goOnWith ops).rdata = s.rdata := rfl

/-- A placed access goes before the host's program. -/
theorem step_of_move {s : State} {m : Move} {rest : List Move} (h : s.inputs.moves = m :: rest) :
    step s = access m.access { s with inputs := { s.inputs with moves := rest, gap := m.gap } } := by
  simp [step, nextMove, h]

/-- With no access placed, a step is the next operation of the host's program. -/
theorem step_of_line {s : State} {l : HostLine} {rest : List HostLine} (hm : s.inputs.moves = [])
    (hp : s.inputs.program = l :: rest) :
    step s = hostOp l.op { s with inputs := { s.inputs with program := rest, gap := l.gap } } := by
  simp [step, nextMove, hostTurn, hm, hp]

/-- With neither, a step is one tick. -/
theorem step_of_quiet {s : State} (hm : s.inputs.moves = []) (hp : s.inputs.program = []) :
    step s = tick s := by
  simp [step, nextMove, hostTurn, hm, hp]

/-- While reset is not asserted a host write is accepted (R255). -/
theorem hostWrite_accepted {s : State} (h : s.inputs.rstN = true) (addr : BitVec 8) (v : Word) :
    hostWrite addr v s =
      if addr = 0x00 then writeCmd v s else ticks s.inputs.gap (s.writeReg addr v) := by
  simp [hostWrite, h]

/-- While reset is asserted a host write does nothing (R270). -/
theorem hostWrite_in_reset {s : State} (h : s.inputs.rstN = false) (addr : BitVec 8) (v : Word) :
    hostWrite addr v s = ticks s.inputs.gap s := by
  simp [hostWrite, h]

/-- While reset is not asserted a host read is accepted (R255). -/
theorem hostRead_accepted {s : State} (h : s.inputs.rstN = true) (addr : BitVec 8) :
    s.hostRead addr = s.readReg addr := by
  simp [State.hostRead, h]

/-- While reset is asserted a host read does nothing (R270). -/
theorem hostRead_in_reset {s : State} (h : s.inputs.rstN = false) (addr : BitVec 8) :
    s.hostRead addr = s := by
  simp [State.hostRead, h]

/-- A host read writes `reg_rdata` at most. -/
theorem hostRead_eq (addr : BitVec 8) (s : State) :
    s.hostRead addr = { s with rdata := (s.hostRead addr).rdata } := by
  unfold State.hostRead
  split <;> rfl

/-- Reset leaves nothing for a second one to change. -/
@[simp] theorem applyReset_applyReset (s : State) : s.applyReset.applyReset = s.applyReset := rfl

/-- A block that was just reset is idle (R270). -/
@[simp] theorem applyReset_busy (s : State) : s.applyReset.busy = false := rfl

/-- Asserting reset leaves a state that reset has nothing to change in (R270). -/
theorem driveRst_low (s : State) : s.driveRst false = (s.driveRst false).applyReset := rfl

@[simp] theorem driveRst_rstN (level : Bool) (s : State) : (s.driveRst level).inputs.rstN = level := rfl

/-- One read of `wait` that finds `BUSY = 0`: the host goes on, and nothing but `reg_rdata` has changed. -/
theorem hostWait_idle {s : State} (hr : s.inputs.rstN = true) (h : s.busy = false) :
    hostWait s = .next (s.readReg 0x10) := by
  have hb : (s.readReg 0x10).rdata.getLsbD 0 = false := (statusWord_busy s).trans h
  rw [hostWait, hostRead_accepted hr, hb]
  exact ticks_idle (s := s.readReg 0x10) h _

/-- One read of `wait` that finds `BUSY = 1`: the host reads again after the ticks of its line and one more. -/
theorem hostWait_busy {s : State} (hr : s.inputs.rstN = true) (h : s.busy = true) :
    hostWait s = ticks (s.inputs.gap + 1) ((s.readReg 0x10).goOnWith [.wait]) := by
  have hb : (s.readReg 0x10).rdata.getLsbD 0 = true := (statusWord_busy s).trans h
  simp only [hostWait, hostRead_accepted hr, hb]
  rfl

/-- `draw_char` of a glyph that misses the columns makes no access (R215). -/
theorem hostDrawChar_reject {x : Int} {g : Glyph} {scale : Nat} {s : State}
    (h : missesColumns s.params x g scale = true) (y : Int) (fg bg : Bool) :
    hostDrawChar x y g fg bg scale s = ticks s.inputs.gap s := by
  simp [hostDrawChar, h]

/-- Everything an operation of the host's program can do: a write, or ticks after at most a read, a change
of what the host does next, and a count. -/
theorem hostOp_cases {op : HostOp} {s t : State} (h : hostOp op s = .next t) :
    (∃ addr v, op = .wr addr v ∧ hostWrite addr v s = .next t) ∨
    (∃ n rdata program outOfBounds,
      ticks n
        { s with
          rdata := rdata
          inputs := { s.inputs with program := program, outOfBounds := outOfBounds } } = .next t ∧
      (s.inputs.rstN = false → rdata = s.rdata)) := by
  have hread : ∀ addr, s.inputs.rstN = false → (s.hostRead addr).rdata = s.rdata := fun addr hr => by
    rw [hostRead_in_reset hr]
  cases op with
  | wr addr v => exact .inl ⟨addr, v, rfl, h⟩
  | rd addr =>
    refine .inr ⟨s.inputs.gap, (s.hostRead addr).rdata, s.inputs.program, s.inputs.outOfBounds, ?_, hread _⟩
    rw [← h]
    exact congrArg (ticks s.inputs.gap) (hostRead_eq addr s).symm
  | wait =>
    simp only [hostOp, hostWait] at h
    rw [hostRead_eq] at h
    split at h
    · exact .inr ⟨_, _, _, _, h, hread _⟩
    · exact .inr ⟨_, _, _, _, h, hread _⟩
  | drawChar x y g fg bg scale =>
    simp only [hostOp, hostDrawChar] at h
    split at h
    · exact .inr ⟨_, _, _, _, h, fun _ => rfl⟩
    · rw [hostRead_eq] at h
      exact .inr ⟨_, _, _, _, h, hread _⟩
  | countPixel => exact .inr ⟨_, _, _, _, h, fun _ => rfl⟩

/-- The host counts as many pixels as its calls leave unissued (R215). -/
theorem count_countPixel (calls : List HostCall) :
    (calls.flatMap HostCall.ops).count .countPixel = countUnissued calls := by
  induction calls with
  | nil => rfl
  | cons c calls ih =>
    cases c <;> simp [HostCall.ops, commandLine, countUnissued, hostCode, ih]

end Sys2Proof.Machine
end

