-- ==== Sys2Proof/Laws/PerInstr.lean ====
section
/-! SUPPORT. One statement about every command as syntax: its word carries its opcode in `[4:0]`, and every
reserved bit of its format is 0 (30_encoding.md R110 to R119, R123). -/

namespace Sys2Proof.Laws.ReservedBits

open Sys2Proof Sys2Proof.Machine

/-- The word of `i` has the opcode of `i`, the format of that opcode, and only zeros in its reserved
bits. Format N's mask is taken on `[31:5]`, which are its reserved bits (R112). -/
def Statement (i : Instr) : Prop :=
  (encode i).extractLsb' 0 5 = opcodeOf i ∧
  ∃ f, formatOf (opcodeOf i) = some f ∧ encode i &&& reservedMask f = 0

theorem nop : Statement .nop := ⟨by decide, .n, by decide, by decide⟩

theorem pwrOn : Statement .pwrOn := ⟨by decide, .n, by decide, by decide⟩

theorem pwrOff : Statement .pwrOff := ⟨by decide, .n, by decide, by decide⟩

theorem sampleTemp : Statement .sampleTemp := ⟨by decide, .n, by decide, by decide⟩

theorem fbClear : Statement .fbClear := ⟨by decide, .n, by decide, by decide⟩

/-- Formats C and T, bit by bit. -/
theorem wordC_bit (op : BitVec 5) (b : Byte) (k : Nat) :
    (wordC op b).getLsbD k =
      if k < 5 then op.getLsbD k
      else if k - 5 < 11 then false
      else if k - 5 - 11 < 8 then b.getLsbD (k - 5 - 11)
      else false := by
  refine BitVec.getLsbD_append.trans ?_
  rw [BitVec.getLsbD_append, BitVec.getLsbD_append]
  simp [-BitVec.getLsbD_ofBool]

/-- Formats C and T. -/
theorem wordC_clean (op : BitVec 5) (b : Byte) :
    (wordC op b).extractLsb' 0 5 = op ∧ wordC op b &&& 0xFF00FFE0 = 0 := by
  constructor <;> refine BitVec.eq_of_getLsbD_eq fun k hk => ?_
  · simp [-BitVec.getLsbD_eq_getElem, wordC_bit, hk]
  · rw [BitVec.getLsbD_and, wordC_bit]; interval_cases k <;> simp

/-- Format R, bit by bit. -/
theorem wordR_bit (op : BitVec 5) (stage : Stage) (src : Src) (fill : Byte) (k : Nat) :
    (wordR op stage src fill).getLsbD k =
      if k < 5 then op.getLsbD k
      else if k - 5 < 2 then (stageBits stage).getLsbD (k - 5)
      else if k - 5 - 2 < 2 then (srcBits src).getLsbD (k - 5 - 2)
      else if k - 5 - 2 - 2 < 7 then false
      else if k - 5 - 2 - 2 - 7 < 8 then fill.getLsbD (k - 5 - 2 - 2 - 7)
      else false := by
  refine BitVec.getLsbD_append.trans ?_
  rw [BitVec.getLsbD_append, BitVec.getLsbD_append, BitVec.getLsbD_append, BitVec.getLsbD_append]
  simp [-BitVec.getLsbD_ofBool]

/-- Format R. -/
theorem wordR_clean (op : BitVec 5) (stage : Stage) (src : Src) (fill : Byte) :
    (wordR op stage src fill).extractLsb' 0 5 = op ∧ wordR op stage src fill &&& 0xFF00FE00 = 0 := by
  constructor <;> refine BitVec.eq_of_getLsbD_eq fun k hk => ?_
  · simp [-BitVec.getLsbD_eq_getElem, wordR_bit, hk]
  · rw [BitVec.getLsbD_and, wordR_bit]; interval_cases k <;> simp

/-- Format S, bit by bit. -/
theorem wordS_bit (op : BitVec 5) (newSrc oldSrc : Src) (hasOld : Bool) (fill : Byte) (k : Nat) :
    (wordS op newSrc oldSrc hasOld fill).getLsbD k =
      if k < 5 then op.getLsbD k
      else if k - 5 < 2 then false
      else if k - 5 - 2 < 2 then (srcBits newSrc).getLsbD (k - 5 - 2)
      else if k - 5 - 2 - 2 < 2 then (srcBits oldSrc).getLsbD (k - 5 - 2 - 2)
      else if k - 5 - 2 - 2 - 2 < 1 then (BitVec.ofBool hasOld).getLsbD (k - 5 - 2 - 2 - 2)
      else if k - 5 - 2 - 2 - 2 - 1 < 4 then false
      else if k - 5 - 2 - 2 - 2 - 1 - 4 < 8 then fill.getLsbD (k - 5 - 2 - 2 - 2 - 1 - 4)
      else false := by
  refine BitVec.getLsbD_append.trans ?_
  rw [BitVec.getLsbD_append, BitVec.getLsbD_append, BitVec.getLsbD_append, BitVec.getLsbD_append, BitVec.getLsbD_append, BitVec.getLsbD_append]
  simp [-BitVec.getLsbD_ofBool]

/-- Format S. -/
theorem wordS_clean (op : BitVec 5) (newSrc oldSrc : Src) (hasOld : Bool) (fill : Byte) :
    (wordS op newSrc oldSrc hasOld fill).extractLsb' 0 5 = op ∧ wordS op newSrc oldSrc hasOld fill &&& 0xFF00F060 = 0 := by
  constructor <;> refine BitVec.eq_of_getLsbD_eq fun k hk => ?_
  · simp [-BitVec.getLsbD_eq_getElem, wordS_bit, hk]
  · rw [BitVec.getLsbD_and, wordS_bit]; interval_cases k <;> simp

/-- Format G, bit by bit. -/
theorem wordG_bit (op : BitVec 5) (index : BitVec 16) (k : Nat) :
    (wordG op index).getLsbD k =
      if k < 5 then op.getLsbD k
      else if k - 5 < 11 then false
      else index.getLsbD (k - 5 - 11) := by
  refine BitVec.getLsbD_append.trans ?_
  rw [BitVec.getLsbD_append]
  simp [-BitVec.getLsbD_ofBool]

/-- Format G. -/
theorem wordG_clean (op : BitVec 5) (index : BitVec 16) :
    (wordG op index).extractLsb' 0 5 = op ∧ wordG op index &&& 0x0000FFE0 = 0 := by
  constructor <;> refine BitVec.eq_of_getLsbD_eq fun k hk => ?_
  · simp [-BitVec.getLsbD_eq_getElem, wordG_bit, hk]
  · rw [BitVec.getLsbD_and, wordG_bit]; interval_cases k <;> simp

/-- Format P, bit by bit. -/
theorem wordP_bit (op : BitVec 5) (black : Bool) (x y : BitVec 12) (k : Nat) :
    (wordP op black x y).getLsbD k =
      if k < 5 then op.getLsbD k
      else if k - 5 < 1 then (BitVec.ofBool black).getLsbD (k - 5)
      else if k - 5 - 1 < 2 then false
      else if k - 5 - 1 - 2 < 12 then x.getLsbD (k - 5 - 1 - 2)
      else y.getLsbD (k - 5 - 1 - 2 - 12) := by
  refine BitVec.getLsbD_append.trans ?_
  rw [BitVec.getLsbD_append, BitVec.getLsbD_append, BitVec.getLsbD_append]
  simp [-BitVec.getLsbD_ofBool]

/-- Format P. -/
theorem wordP_clean (op : BitVec 5) (black : Bool) (x y : BitVec 12) :
    (wordP op black x y).extractLsb' 0 5 = op ∧ wordP op black x y &&& 0x000000C0 = 0 := by
  constructor <;> refine BitVec.eq_of_getLsbD_eq fun k hk => ?_
  · simp [-BitVec.getLsbD_eq_getElem, wordP_bit, hk]
  · rw [BitVec.getLsbD_and, wordP_bit]; interval_cases k <;> simp

/-- Format D, bit by bit. -/
theorem wordD_bit (op : BitVec 5) (clearFirst doPwrOn doPwrOff : Bool) (k : Nat) :
    (wordD op clearFirst doPwrOn doPwrOff).getLsbD k =
      if k < 5 then op.getLsbD k
      else if k - 5 < 1 then (BitVec.ofBool clearFirst).getLsbD (k - 5)
      else if k - 5 - 1 < 1 then (BitVec.ofBool doPwrOn).getLsbD (k - 5 - 1)
      else if k - 5 - 1 - 1 < 1 then (BitVec.ofBool doPwrOff).getLsbD (k - 5 - 1 - 1)
      else false := by
  refine BitVec.getLsbD_append.trans ?_
  rw [BitVec.getLsbD_append, BitVec.getLsbD_append, BitVec.getLsbD_append]
  simp [-BitVec.getLsbD_ofBool]

/-- Format D. -/
theorem wordD_clean (op : BitVec 5) (clearFirst doPwrOn doPwrOff : Bool) :
    (wordD op clearFirst doPwrOn doPwrOff).extractLsb' 0 5 = op ∧ wordD op clearFirst doPwrOn doPwrOff &&& 0xFFFFFF00 = 0 := by
  constructor <;> refine BitVec.eq_of_getLsbD_eq fun k hk => ?_
  · simp [-BitVec.getLsbD_eq_getElem, wordD_bit, hk]
  · rw [BitVec.getLsbD_and, wordD_bit]; interval_cases k <;> simp

theorem setTemp (temp : BitVec 8) : Statement (.setTemp temp) :=
  ⟨(wordC_clean _ _).1, .t, rfl, (wordC_clean _ _).2⟩

theorem drvClear (fill : Byte) : Statement (.drvClear fill) :=
  ⟨(wordC_clean _ _).1, .c, rfl, (wordC_clean _ _).2⟩

theorem refreshOnce (stage : Stage) (src : Src) (fill : Byte) : Statement (.refreshOnce stage src fill) :=
  ⟨(wordR_clean _ _ _ _).1, .r, rfl, (wordR_clean _ _ _ _).2⟩

theorem refreshRepeat (stage : Stage) (src : Src) (fill : Byte) :
    Statement (.refreshRepeat stage src fill) :=
  ⟨(wordR_clean _ _ _ _).1, .r, rfl, (wordR_clean _ _ _ _).2⟩

theorem showImage (newSrc oldSrc : Src) (hasOld : Bool) (fill : Byte) :
    Statement (.showImage newSrc oldSrc hasOld fill) :=
  ⟨(wordS_clean _ _ _ _ _).1, .s, rfl, (wordS_clean _ _ _ _ _).2⟩

theorem selSeg (index : BitVec 16) : Statement (.selSeg index) :=
  ⟨(wordG_clean _ _).1, .g, rfl, (wordG_clean _ _).2⟩

theorem setPixel (black : Bool) (x y : BitVec 12) : Statement (.setPixel black x y) :=
  ⟨(wordP_clean _ _ _ _).1, .p, rfl, (wordP_clean _ _ _ _).2⟩

theorem display (clearFirst doPwrOn doPwrOff : Bool) : Statement (.display clearFirst doPwrOn doPwrOff) :=
  ⟨(wordD_clean _ _ _ _).1, .d, rfl, (wordD_clean _ _ _ _).2⟩

end Sys2Proof.Laws.ReservedBits
end

