-- ==== Sys2Proof/Laws/Runs.lean ====
section
/-! SUPPORT. How a running command moves on when the collaborators give known answers: `Runs a s t` says
that a busy block in `s`, fed with exactly the answers `a`, gets to `t` in some number of ticks, whatever
else stands in the input queues. One lemma per micro-operation and per procedure of
40_stage_driver.md. -/

namespace Sys2Proof.Machine

open Sys2Proof

/-- `s` with other inputs. -/
def State.world (q : Inputs) (s : State) : State := { s with inputs := q }

/-- Fed with `a`, the block gets from `s` to `t` and has taken every answer of `a` and no other. -/
def Runs (a : Answers) (s t : State) : Prop :=
  ∃ n, ∀ q, ticks n ((s.world q).feed a) = .next (t.world q)

/-! ### Answers and their composition -/

@[simp] theorem feed_none (s : State) : s.feed Answers.none = s := rfl

theorem feed_append (a b : Answers) (s : State) : s.feed (a.append b) = (s.feed b).feed a := by
  simp [State.feed, Answers.append, List.append_assoc]

@[simp] theorem Answers.none_append (a : Answers) : Answers.none.append a = a := rfl

@[simp] theorem Answers.append_none (a : Answers) : a.append Answers.none = a := by
  simp [Answers.append, Answers.none]

theorem Answers.append_assoc (a b c : Answers) : (a.append b).append c = a.append (b.append c) := by
  simp [Answers.append, List.append_assoc]

theorem Runs.refl (s : State) : Runs Answers.none s s := ⟨0, fun _ => rfl⟩

theorem Runs.trans {a b : Answers} {s t u : State} (h : Runs a s t) (k : Runs b t u) :
    Runs (a.append b) s u := by
  obtain ⟨m, hm⟩ := h
  obtain ⟨n, hn⟩ := k
  refine ⟨m + n, fun q => ?_⟩
  rw [feed_append, ticks_add]
  have := hm ((t.world q).feed b).inputs
  exact andThen_eq_next.mpr ⟨_, this, hn q⟩

/-- A step that takes no answer. -/
theorem Runs.then {a : Answers} {s t u : State} (h : Runs Answers.none s t) (k : Runs a t u) :
    Runs a s u := by simpa using h.trans k

/-- One tick of a running command. -/
theorem Runs.tick {a : Answers} {s t : State} {m : Micro} {rest : List Micro} (hb : s.busy = true)
    (ht : s.seq.todo = m :: rest)
    (h : ∀ q, runMicro m (((s.world q).feed a).setTodo rest) = .next (t.world q)) : Runs a s t :=
  ⟨1, fun q => by
    rw [ticks_succ, tick_head (s := (s.world q).feed a) hb ht, h q]
    rfl⟩

/-- A command that has got to an idle state is there for every large number of ticks. -/
theorem Runs.settles {a : Answers} {s t : State} (h : Runs a s t) (ht : t.busy = false) :
    ∃ n, ∀ g ≥ n, ∀ q, ticks g ((s.world q).feed a) = .next (t.world q) := by
  obtain ⟨n, hn⟩ := h
  refine ⟨n, fun g hg q => ?_⟩
  obtain ⟨k, rfl⟩ := Nat.exists_eq_add_of_le hg
  rw [ticks_add, hn q, andThen_next]
  exact ticks_idle (s := t.world q) ht k

/-- A legal word written to `CMD` of an idle block whose collaborators are about to give the answers that
its plan runs with. -/
theorem runCommand_settles {w : Word} {plan : State → Plan} {a : Answers} {s t : State}
    (hplan : ∀ q, plan (((s.world q).launch w)) = plan (s.launch w))
    (hs : s.busy = false) (h : Runs a ((s.launch w).follow (plan (s.launch w))) t) (ht : t.busy = false) :
    ∃ n, ∀ g ≥ n, runCommand w plan ((s.feed a).withGap g) = .next (t.world (s.withGap g).inputs) := by
  obtain ⟨n, hn⟩ := h.settles ht
  refine ⟨n, fun g hg => ?_⟩
  have hp := hplan ((s.feed a).withGap g).inputs
  have := hn g hg (s.withGap g).inputs
  unfold runCommand
  rw [if_neg (by simpa [State.withGap, State.feed] using hs)]
  have e : ((s.feed a).withGap g) = s.world ((s.feed a).withGap g).inputs := rfl
  rw [e, hp]
  generalize plan (s.launch w) = pl at *
  cases pl <;> exact this

/-- The transport takes `n` bytes, each at once (R251). -/
def takes (n : Nat) : Answers := { Answers.none with txReady := List.replicate n true }

/-- The reader answers bytes, one at each look (R253). -/
def answers (bytes : List Byte) : Answers := { Answers.none with rdData := bytes.map some }

/-- The panel is ready at the first look of a busy poll (R155). -/
def pollOk : Answers := { Answers.none with busyIn := [false], elapsed := [0] }

/-- The panel is busy at the first look of a busy poll, when the bound has passed (R155). -/
def pollTimeout (p : Params) : Answers :=
  { Answers.none with busyIn := [true], elapsed := [0, p.busyTimeoutMs] }

theorem takes_succ (n : Nat) : takes (n + 1) = (takes 1).append (takes n) := by
  simp [takes, Answers.append, Answers.none, List.replicate_succ]

theorem answers_cons (b : Byte) (bs : List Byte) : answers (b :: bs) = (answers [b]).append (answers bs) := by
  simp [answers, Answers.append, Answers.none]

theorem pollOk_eq : pollOk = (timeAnswer 0).append { Answers.none with busyIn := [false] } := by
  simp [pollOk, timeAnswer, Answers.append, Answers.none]

theorem pollTimeout_eq (p : Params) :
    pollTimeout p =
      (timeAnswer 0).append { Answers.none with busyIn := [true], elapsed := [p.busyTimeoutMs] } := by
  simp [pollTimeout, timeAnswer, Answers.append, Answers.none]

/-! ### Single micro-operations -/

/-- `s` in the middle of a command: `todo` is left to run, `evs` have been emitted since `s`, and the pins
are `pins`. -/
def State.mid (todo : List Micro) (evs : List Event) (pins : Pins) (s : State) : State :=
  { s with
    seq := ⟨todo, s.seq.code, s.seq.onTimeout⟩
    trace := s.trace ++ evs
    pins := pins }

/-- `s` after a `DEVICE_TIMEOUT`, `evs` emitted since `s`: `FAULT`, and what is left is the catch (R236). -/
def State.timedOut (evs : List Event) (pins : Pins) (s : State) : State :=
  { s with
    seq := ⟨s.seq.onTimeout, .deviceTimeout, []⟩
    trace := s.trace ++ evs
    pins := pins
    pwr := .fault }

theorem mid_self (s : State) : s.mid s.seq.todo [] s.pins = s := by simp [State.mid]

section Micros

variable {s : State} {rest : List Micro} {evs : List Event} {pins : Pins}

theorem runs_setPin (p : Pin) (v : Bool) (hb : s.busy = true) :
    Runs Answers.none (s.mid (.setPin p v :: rest) evs pins)
      (s.mid rest (evs ++ [Event.pin p v]) (setLevel p v pins)) :=
  .tick hb rfl fun _ => by
    simp [runMicro, State.drive, State.emit, State.setTodo, State.mid, State.world, State.feed,
      List.append_assoc, Answers.none]

theorem runs_setPwr (v : Pwr) (hb : s.busy = true) :
    Runs Answers.none (s.mid (.setPwr v :: rest) evs pins) ({ s with pwr := v }.mid rest evs pins) :=
  .tick hb rfl fun _ => rfl

theorem runs_setPasses (hb : s.busy = true) :
    Runs Answers.none (s.mid (.setPasses :: rest) evs pins) ({ s with passes := 1 }.mid rest evs pins) :=
  .tick hb rfl fun _ => rfl

theorem runs_clearRes (hb : s.busy = true) :
    Runs Answers.none (s.mid (.clearRes :: rest) evs pins) ({ s with res := [] }.mid rest evs pins) :=
  .tick hb rfl fun _ => rfl

theorem runs_clearOld (hb : s.busy = true) :
    Runs Answers.none (s.mid (.clearOld :: rest) evs pins) ({ s with old := [] }.mid rest evs pins) :=
  .tick hb rfl fun _ => rfl

theorem runs_copyOld (hb : s.busy = true) :
    Runs Answers.none (s.mid (.copyOld :: rest) evs pins) ({ s with old := s.res }.mid rest evs pins) :=
  .tick hb rfl fun _ => rfl

theorem runs_loadTemp (t : BitVec 8) (hb : s.busy = true) :
    Runs Answers.none (s.mid (.loadTemp t :: rest) evs pins) ((s.loadTemp t).mid rest evs pins) :=
  .tick hb rfl fun _ => rfl

theorem runs_selectSegment (i : BitVec 16) (hb : s.busy = true) :
    Runs Answers.none (s.mid (.selectSegment i :: rest) evs pins)
      ({ s with seg := i, res := [] }.mid rest evs pins) :=
  .tick hb rfl fun _ => rfl

theorem runs_paint {byteIx : Nat} (mask : Byte) (black : Bool) (h : byteIx < resSize s.params)
    (hb : s.busy = true) :
    Runs Answers.none (s.mid (.paint byteIx mask black :: rest) evs pins)
      ({ s with res := memWrite s.res byteIx (paintByte mask black (memRead s.res byteIx)) }.mid rest evs
        pins) :=
  .tick hb rfl fun _ => by
    simp [runMicro, paintRes, State.setTodo, State.mid, State.world, State.feed, h, Answers.none]

/-- `Tx` of a list of bytes through a transport that takes each at once (R251). -/
theorem runs_send (bytes : List Byte) (hb : s.busy = true) (htx : s.tx = none) :
    Runs (takes bytes.length) (s.mid (.send bytes :: rest) evs pins)
      (s.mid rest (evs ++ bytes.map Event.tx) pins) := by
  induction bytes generalizing evs with
  | nil =>
    refine .tick hb rfl fun q => ?_
    simp [runMicro, doSend, State.setTodo, State.mid, State.world, State.feed, takes, Answers.none]
  | cons b bs ih =>
    have first : Runs (takes 1) (s.mid (.send (b :: bs) :: rest) evs pins)
        (s.mid (.send bs :: rest) (evs ++ [Event.tx b]) pins) :=
      .tick hb rfl fun q => by
        simp [runMicro, doSend, sampleTxReady, State.mid, State.world, State.feed, State.push, State.emit,
          State.setTodo, takes, Answers.none, htx]
    have next := first.trans ih
    rw [List.append_assoc, List.singleton_append] at next
    rw [List.length_cons, takes_succ]
    exact next

/-- A busy poll that finds the panel ready at its first look (R155). -/
theorem runs_poll_ok (fatal : Bool) (hb : s.busy = true) :
    Runs pollOk (s.mid (.pollStart fatal :: rest) evs pins)
      (s.mid rest (evs ++ [Event.busy .ok]) pins) := by
  have first : Runs (timeAnswer 0) (s.mid (.pollStart fatal :: rest) evs pins)
      (s.mid (.polling s.ms fatal :: rest) evs pins) :=
    .tick hb rfl fun q => by
      simp [runMicro, doPollStart, readNow, sampleElapsed, State.mid, State.world, State.feed, State.push,
        State.setTodo, timeAnswer, Answers.none]
  have next : Runs { Answers.none with busyIn := [false] } (s.mid (.polling s.ms fatal :: rest) evs pins)
      (s.mid rest (evs ++ [Event.busy .ok]) pins) :=
    .tick hb rfl fun q => by
      simp [runMicro, doPolling, sampleBusy, State.mid, State.world, State.feed, State.setTodo, State.emit,
        Answers.none]
  exact pollOk_eq ▸ first.trans next

/-- A fatal busy poll whose bound has passed at its first look (R155, R159). -/
theorem runs_poll_timeout (hb : s.busy = true) :
    Runs (pollTimeout s.params)
      (s.mid (.pollStart true :: rest) evs pins)
      ({ s with ms := s.ms + s.params.busyTimeoutMs }.timedOut (evs ++ [Event.busy .timeout]) pins) := by
  have first : Runs (timeAnswer 0) (s.mid (.pollStart true :: rest) evs pins)
      (s.mid (.polling s.ms true :: rest) evs pins) :=
    .tick hb rfl fun q => by
      simp [runMicro, doPollStart, readNow, sampleElapsed, State.mid, State.world, State.feed, State.push,
        State.setTodo, timeAnswer, Answers.none]
  have next : Runs { Answers.none with busyIn := [true], elapsed := [s.params.busyTimeoutMs] }
      (s.mid (.polling s.ms true :: rest) evs pins)
      ({ s with ms := s.ms + s.params.busyTimeoutMs }.timedOut (evs ++ [Event.busy .timeout]) pins) :=
    .tick hb rfl fun q => by
      have : s.ms + s.params.busyTimeoutMs - s.ms = s.params.busyTimeoutMs := by
        rw [BitVec.add_comm, BitVec.add_sub_cancel]
      simp [runMicro, doPolling, sampleBusy, readNow, sampleElapsed, busyTimeout, State.raiseError,
        State.timedOut, State.setPwr, State.mid, State.world, State.feed, State.setTodo, State.emit,
        Answers.none, this]
  exact pollTimeout_eq s.params ▸ first.trans next

theorem runs_complete (hb : s.busy = true) :
    Runs Answers.none (s.mid [] evs pins) (s.mid [] evs pins).complete :=
  ⟨1, fun q => by
    rw [ticks_succ, feed_none, tick_done (s := (s.mid [] evs pins).world q) hb rfl]
    rfl⟩

end Micros

/-! ### Commands -/

/-- `s` after the launch of `w` and its checks, with `onTimeout` as the catch (R237). -/
def State.started (w : Word) (onTimeout : List Micro) (s : State) : State :=
  { s.launch w with seq := ⟨[], .ok, onTimeout⟩ }

/-- A command whose checks pass, fed with answers that take it to an idle state: it is there for every
host that waits long enough. -/
theorem command_gets {w : Word} {plan : State → Plan} {a : Answers} {s t : State} {todo onTimeout : List Micro}
    (hplan : ∀ q, plan ((s.world q).launch w) = plan (s.launch w)) (hs : s.busy = false)
    (hp : plan (s.launch w) = .run todo onTimeout)
    (h : Runs a ((s.started w onTimeout).mid todo [] s.pins) t) (ht : t.busy = false) :
    ∃ n, ∀ g ≥ n, runCommand w plan ((s.feed a).withGap g) = .next (t.world (s.withGap g).inputs) := by
  refine runCommand_settles (t := t) hplan hs ?_ ht
  have e : (s.launch w).follow (.run todo onTimeout) = (s.started w onTimeout).mid todo [] s.pins := by
    simp [State.follow, State.started, State.mid, State.launch, State.emit]
  rw [hp, e]
  exact h

/-- A command whose micro-operations run to the end: it completes. -/
theorem command_settles {w : Word} {plan : State → Plan} {a : Answers} {s u : State}
    {todo onTimeout : List Micro} {evs : List Event} {pins : Pins}
    (hplan : ∀ q, plan ((s.world q).launch w) = plan (s.launch w)) (hs : s.busy = false)
    (hp : plan (s.launch w) = .run todo onTimeout)
    (h : Runs a ((s.started w onTimeout).mid todo [] s.pins) (u.mid [] evs pins)) (hu : u.busy = true) :
    ∃ n, ∀ g ≥ n, runCommand w plan ((s.feed a).withGap g) =
      .next ((u.mid [] evs pins).complete.world (s.withGap g).inputs) := by
  have k := h.trans (runs_complete hu)
  rw [Answers.append_none] at k
  exact command_gets hplan hs hp k rfl

/-- A command that a busy timeout ends, with no catch: it completes with `DEVICE_TIMEOUT` (R236). -/
theorem command_timesOut {w : Word} {plan : State → Plan} {a : Answers} {s u : State} {todo : List Micro}
    {evs : List Event} {pins : Pins}
    (hplan : ∀ q, plan ((s.world q).launch w) = plan (s.launch w)) (hs : s.busy = false)
    (hp : plan (s.launch w) = .run todo [])
    (h : Runs a ((s.started w []).mid todo [] s.pins) (u.timedOut evs pins)) (hu : u.busy = true)
    (hc : u.seq.onTimeout = []) :
    ∃ n, ∀ g ≥ n, runCommand w plan ((s.feed a).withGap g) =
      .next ((u.timedOut evs pins).complete.world (s.withGap g).inputs) := by
  have e : u.timedOut evs pins =
      State.mid [] evs pins { u with pwr := .fault, seq := ⟨[], .deviceTimeout, []⟩ } := by
    simp [State.timedOut, State.mid, hc]
  rw [e] at h ⊢
  exact command_settles hplan hs hp h hu

/-- The checks of the driver commands pass (R153, R154, R238). -/
theorem driverChecks_none {s : State} {w : Word} {src : Src} (hc : cfgOk s.params = true)
    (hr : rangeOk s.params (rangeFirst s) (rangeCount s) src = true) (hp : s.pwr = .on) :
    firstError [configCheck (s.launch w), rangeCheck src (s.launch w), pwrCheck .on (s.launch w)] = none := by
  have e : rangeCheck src (s.launch w) =
      (!rangeOk s.params (rangeFirst s) (rangeCount s) src, .invalidConfig) := rfl
  rw [e, hr]
  simp [firstError, configCheck, pwrCheck, State.launch, State.emit, hc, hp]

/-- A guarded plan whose checks pass runs. -/
theorem guarded_run {checks : List (Bool × Code)} {todo onTimeout : List Micro}
    (h : firstError checks = none) : guarded checks todo onTimeout = .run todo onTimeout := by
  simp [guarded, h]

/-! ### Rows -/

theorem setLevel_setLevel (p : Pin) (v w : Bool) (pins : Pins) :
    setLevel p w (setLevel p v pins) = setLevel p w pins := by
  cases p <;> rfl

/-- The answers of prompt collaborators to a row frame and its busy poll, without the reader's. -/
def frameAnswers (p : Params) (st : Stage) (r : Nat) (src : List Byte) (pr : PollResult) : Answers where
  busyIn := [pr == .timeout]
  txReady := List.replicate (rowFrame p st r src).length true
  rdReqReady := []
  rdData := []
  tempIn := []
  elapsed := if pr = .timeout then [0, p.busyTimeoutMs] else [0]

/-- The events of a row frame and its busy poll. -/
def frameEvents (p : Params) (st : Stage) (r : Nat) (src : List Byte) (pr : PollResult) : List Event :=
  [Event.pin .cs false] ++ (rowFrame p st r src).map Event.tx ++ [Event.pin .cs true, .busy pr]

/-- `src` are the bytes that `sd` yields for source row `k` (R147). -/
def yields (s : State) (sd : SrcDesc) (k : Nat) (src : List Byte) : Prop :=
  match sd.src with
  | .fixed => src = List.replicate s.params.bpr sd.fill
  | .res => k < s.params.segHeight ∧ src = memBytes s.res (k * s.params.bpr) s.params.bpr
  | .old => s.params.compMode = .dualBuffer ∧ k < s.params.rows ∧
      src = memBytes s.old (k * s.params.bpr) s.params.bpr
  | .reader => src.length = s.params.bpr

/-- A checked range reads rows that its source yields (R147, R153). -/
theorem yields_of_rangeOk {s : State} {sd : SrcDesc} {first count : Nat} {rowsRead : List (List Byte)}
    (h : sourceRows s sd count rowsRead) (hr : rangeOk s.params first count sd.src = true) :
    rowsRead.length = count ∧ ∀ i (h : i < rowsRead.length), yields s sd i rowsRead[i] := by
  obtain ⟨hl, h⟩ := h
  refine ⟨hl, fun i hi => ?_⟩
  unfold yields
  simp only [rangeOk, Bool.and_eq_true, decide_eq_true_eq] at hr
  cases hsd : sd.src <;> simp only [hsd] at h hr ⊢
  · exact h _ (List.getElem_mem hi)
  · have := h i (hl ▸ hi)
    rw [List.getElem?_eq_getElem hi] at this
    simp at hr
    exact ⟨by omega, Option.some.inj this⟩
  · have := h i (hl ▸ hi)
    rw [List.getElem?_eq_getElem hi] at this
    simp at hr
    exact ⟨hr.2.1, by omega, Option.some.inj this⟩
  · exact h _ (List.getElem_mem hi)

/-- A fixed source yields its fill (R147). -/
theorem yields_fillRows (s : State) (n : Nat) (fill : Byte) (base : Word) :
    (fillRows s.params n fill).length = n ∧
      ∀ i (h : i < (fillRows s.params n fill).length),
        yields s ⟨.fixed, fill, base⟩ i (fillRows s.params n fill)[i] :=
  ⟨by simp [fillRows], fun i h => by simp [yields, fillRows]⟩

/-- `RES` yields its rows (R85, R147). -/
theorem yields_resRows (s : State) (fill : Byte) (base : Word) :
    (resRows s).length = s.params.segHeight ∧
      ∀ i (h : i < (resRows s).length), yields s ⟨.res, fill, base⟩ i (resRows s)[i] := by
  refine ⟨by simp [resRows], fun i h => ?_⟩
  have : i < s.params.segHeight := by simpa [resRows] using h
  simp [yields, resRows, this]

/-- `OLD` yields its rows (R86, R147). -/
theorem yields_oldRows (s : State) (fill : Byte) (base : Word) (hd : s.params.compMode = .dualBuffer) :
    (oldRows s).length = s.params.rows ∧
      ∀ i (h : i < (oldRows s).length), yields s ⟨.old, fill, base⟩ i (oldRows s)[i] := by
  refine ⟨by simp [oldRows], fun i h => ?_⟩
  have : i < s.params.rows := by simpa [oldRows] using h
  simp [yields, oldRows, this, hd]

/-- The reader's answers before a row frame (R147). -/
def readerAnswers (sd : SrcDesc) (src : List Byte) : Answers :=
  { Answers.none with
    rdReqReady := if sd.src = .reader then [true] else []
    rdData := if sd.src = .reader then src.map some else [] }

/-- The events of a source before a row frame (R147). -/
def readerEvents (p : Params) (sd : SrcDesc) (k : Nat) (src : List Byte) : List Event :=
  if sd.src = .reader then [.rdReq (readerAddr p sd.base k) p.bpr, .rdData src] else []

theorem rowAnswers_eq (p : Params) (st : Stage) (sd : SrcDesc) (r : Nat) (src : List Byte) (pr : PollResult) :
    rowAnswers p st sd r src pr = (readerAnswers sd src).append (frameAnswers p st r src pr) := by
  simp [rowAnswers, readerAnswers, frameAnswers, Answers.append, Answers.none]

theorem rowEvents_eq (p : Params) (st : Stage) (sd : SrcDesc) (r k : Nat) (src : List Byte)
    (pr : PollResult) :
    rowEvents p st sd r k src pr = readerEvents p sd k src ++ frameEvents p st r src pr := by
  simp [rowEvents, readerEvents, frameEvents, List.append_assoc]

/-- The position of a row transaction whose source bytes are there (R152). -/
def frameTodo (p : Params) (st : Stage) (r : Nat) (src : List Byte) : List Micro :=
  [.setPin .cs false, .send (rowFrame p st r src), .setPin .cs true, .pollStart true]

section Rows

variable {s : State} {rest : List Micro} {evs : List Event} {pins : Pins} {st : Stage} {sd : SrcDesc}
  {r k : Nat} {src : List Byte}

theorem frameAnswers_ok (p : Params) (st : Stage) (r : Nat) (src : List Byte) :
    frameAnswers p st r src .ok = (takes (rowFrame p st r src).length).append pollOk := by
  simp [frameAnswers, takes, pollOk, Answers.append, Answers.none]

theorem frameAnswers_timeout (p : Params) (st : Stage) (r : Nat) (src : List Byte) :
    frameAnswers p st r src .timeout = (takes (rowFrame p st r src).length).append (pollTimeout p) := by
  simp [frameAnswers, takes, pollTimeout, Answers.append, Answers.none]

/-- A row frame up to its busy poll (R152). -/
theorem runs_frame (st : Stage) (r : Nat) (src : List Byte) (hb : s.busy = true) (htx : s.tx = none) :
    Runs (takes (rowFrame s.params st r src).length)
      (s.mid (frameTodo s.params st r src ++ rest) evs pins)
      (s.mid (.pollStart true :: rest)
        (evs ++ ([Event.pin .cs false] ++ (rowFrame s.params st r src).map Event.tx ++ [Event.pin .cs true]))
        (setLevel .cs true pins)) := by
  have h := ((runs_setPin (evs := evs) (pins := pins) .cs false hb).then
    (runs_send (rest := .setPin .cs true :: .pollStart true :: rest) (rowFrame s.params st r src)
      hb htx)).trans (runs_setPin .cs true hb)
  rw [setLevel_setLevel, List.append_assoc, List.append_assoc, ← List.append_assoc [_]] at h
  rw [Answers.append_none] at h
  exact h

theorem runs_frame_ok (st : Stage) (r : Nat) (src : List Byte) (hb : s.busy = true) (htx : s.tx = none) :
    Runs (frameAnswers s.params st r src .ok) (s.mid (frameTodo s.params st r src ++ rest) evs pins)
      (s.mid rest (evs ++ frameEvents s.params st r src .ok) (setLevel .cs true pins)) := by
  have h := (runs_frame (rest := rest) (evs := evs) (pins := pins) st r src hb htx).trans
    (runs_poll_ok true hb)
  rw [List.append_assoc, List.append_assoc _ _ [Event.busy _], ← frameAnswers_ok] at h
  exact h

theorem runs_frame_timeout (st : Stage) (r : Nat) (src : List Byte) (hb : s.busy = true)
    (htx : s.tx = none) :
    Runs (frameAnswers s.params st r src .timeout) (s.mid (frameTodo s.params st r src ++ rest) evs pins)
      ({ s with ms := s.ms + s.params.busyTimeoutMs }.timedOut
        (evs ++ frameEvents s.params st r src .timeout) (setLevel .cs true pins)) := by
  have h := (runs_frame (rest := rest) (evs := evs) (pins := pins) st r src hb htx).trans
    (runs_poll_timeout hb)
  rw [List.append_assoc, List.append_assoc _ _ [Event.busy _], ← frameAnswers_timeout] at h
  exact h

/-- Taking the answer to a reader request (R253). -/
theorem runs_collect (more got : List Byte) (hb : s.busy = true) :
    Runs (answers more) (s.mid (.collect st r got more.length :: rest) evs pins)
      (s.mid (frameTodo s.params st r (got ++ more) ++ rest) (evs ++ [Event.rdData (got ++ more)]) pins) := by
  induction more generalizing got with
  | nil =>
    refine .tick hb rfl fun q => ?_
    simp [runMicro, doCollect, State.mid, State.world, State.feed, State.emit, State.setTodo, sendRow,
      frameTodo, State.push, answers, Answers.none]
  | cons b bs ih =>
    have first : Runs (answers [b]) (s.mid (.collect st r got (b :: bs).length :: rest) evs pins)
        (s.mid (.collect st r (got ++ [b]) bs.length :: rest) evs pins) :=
      .tick hb rfl fun q => by
        simp [runMicro, doCollect, sampleRdData, State.mid, State.world, State.feed, State.push,
          State.setTodo, answers, Answers.none]
    have next := first.trans (ih (got ++ [b]))
    rw [List.append_assoc, List.singleton_append, ← answers_cons] at next
    exact next

/-- From the start of a row to its frame: the source yields its bytes (R147, R152). -/
theorem runs_readSource (hb : s.busy = true) (hrd : s.rd = none) (hy : yields s sd k src) :
    Runs (readerAnswers sd src) (s.mid (.row st sd r k :: rest) evs pins)
      (s.mid (frameTodo s.params st r src ++ rest) (evs ++ readerEvents s.params sd k src) pins) := by
  have size : ∀ n, k < n → k * s.params.bpr + s.params.bpr ≤ s.params.bpr * n := fun n hk => by
    calc k * s.params.bpr + s.params.bpr = s.params.bpr * (k + 1) := by ring
      _ ≤ s.params.bpr * n := Nat.mul_le_mul_left _ hk
  cases hsd : sd.src with
  | fixed =>
    simp only [yields, hsd] at hy
    refine .tick hb rfl fun q => ?_
    simp [runMicro, doRow, hsd, readerAnswers, readerEvents, Answers.none, State.mid, State.world, State.feed,
      State.setTodo, sendRow, frameTodo, State.push, hy]
  | res =>
    simp only [yields, hsd] at hy
    refine .tick hb rfl fun q => ?_
    simp [runMicro, doRow, hsd, readerAnswers, readerEvents, Answers.none, State.mid, State.world, State.feed,
      State.setTodo, sendRow, frameTodo, State.push, hy.2, readRes, resSize, size _ hy.1]
  | old =>
    simp only [yields, hsd] at hy
    refine .tick hb rfl fun q => ?_
    simp [runMicro, doRow, hsd, readerAnswers, readerEvents, Answers.none, State.mid, State.world, State.feed,
      State.setTodo, sendRow, frameTodo, State.push, hy.2.2, readOld, oldSize, hy.1, size _ hy.2.1]
  | reader =>
    simp only [yields, hsd] at hy
    have h1 : Runs Answers.none (s.mid (.row st sd r k :: rest) evs pins)
        (s.mid (.request st r (readerAddr s.params sd.base k) :: rest) evs pins) :=
      .tick hb rfl fun q => by
        simp [runMicro, doRow, hsd, State.mid, State.world, State.setTodo, State.push]
    have h2 : Runs { Answers.none with rdReqReady := [true] }
        (s.mid (.request st r (readerAddr s.params sd.base k) :: rest) evs pins)
        (s.mid (.collect st r [] src.length :: rest)
          (evs ++ [Event.rdReq (readerAddr s.params sd.base k) s.params.bpr]) pins) :=
      .tick hb rfl fun q => by
        simp [runMicro, doRequest, sampleRdReqReady, State.mid, State.world, State.feed, State.push,
          State.emit, State.setTodo, Answers.none, hrd, hy]
    have h3 := (h1.then h2).trans (runs_collect src [] hb)
    rw [List.append_assoc] at h3
    simpa [answers, readerAnswers, readerEvents, hsd, Answers.append, Answers.none] using h3

/-- A row transaction whose busy poll succeeds (R152). -/
theorem runs_row_ok (hb : s.busy = true) (htx : s.tx = none) (hrd : s.rd = none) (hy : yields s sd k src) :
    Runs (rowAnswers s.params st sd r src .ok) (s.mid (.row st sd r k :: rest) evs pins)
      (s.mid rest (evs ++ rowEvents s.params st sd r k src .ok) (setLevel .cs true pins)) := by
  rw [rowAnswers_eq, rowEvents_eq, ← List.append_assoc]
  exact (runs_readSource hb hrd hy).trans (runs_frame_ok st r src hb htx)

/-- A row transaction whose busy poll times out (R152, R159). -/
theorem runs_row_timeout (hb : s.busy = true) (htx : s.tx = none) (hrd : s.rd = none)
    (hy : yields s sd k src) :
    Runs (rowAnswers s.params st sd r src .timeout) (s.mid (.row st sd r k :: rest) evs pins)
      ({ s with ms := s.ms + s.params.busyTimeoutMs }.timedOut
        (evs ++ rowEvents s.params st sd r k src .timeout) (setLevel .cs true pins)) := by
  rw [rowAnswers_eq, rowEvents_eq, ← List.append_assoc]
  exact (runs_readSource hb hrd hy).trans (runs_frame_timeout st r src hb htx)

end Rows

/-! ### Passes and stages -/

theorem rowsPins_setLevel (n : Nat) (pins : Pins) :
    rowsPins n (setLevel .cs true pins) = setLevel .cs true pins := by
  unfold rowsPins
  split
  · rfl
  · exact setLevel_setLevel ..

theorem rowsPins_succ (n : Nat) (pins : Pins) : rowsPins (n + 1) pins = setLevel .cs true pins := by
  simp [rowsPins]

theorem rowsPins_pos {n : Nat} (h : 1 ≤ n) (pins : Pins) : rowsPins n pins = setLevel .cs true pins := by
  cases n with
  | zero => cases h
  | succ n => exact rowsPins_succ n pins

theorem rowsPins_rowsPins (n : Nat) (pins : Pins) : rowsPins n (rowsPins n pins) = rowsPins n pins := by
  cases n with
  | zero => rfl
  | succ n => rw [rowsPins_succ, rowsPins_succ, setLevel_setLevel]

theorem totalElapsed_append (a b : Answers) :
    totalElapsed (a.append b) = totalElapsed a + totalElapsed b := by
  have aux : ∀ (l : List Word) (x : Word), l.foldl (fun sum d => sum + d) x = x + l.foldl (fun sum d => sum + d) 0 := by
    intro l
    induction l with
    | nil => simp
    | cons d l ih =>
      intro x
      rw [List.foldl_cons, ih (x + d), List.foldl_cons, ih (0 + d)]
      simp [BitVec.add_assoc]
  simp only [totalElapsed, Answers.append, List.foldl_append]
  exact aux b.elapsed _

@[simp] theorem totalElapsed_none : totalElapsed Answers.none = 0 := rfl

@[simp] theorem totalElapsed_timeAnswer (d : Word) : totalElapsed (timeAnswer d) = d := by
  simp [totalElapsed, timeAnswer]

@[simp] theorem totalElapsed_rowAnswers_ok (p : Params) (st : Stage) (sd : SrcDesc) (r : Nat)
    (src : List Byte) : totalElapsed (rowAnswers p st sd r src .ok) = 0 := rfl

@[simp] theorem totalElapsed_rowsAnswers (p : Params) (st : Stage) (sd : SrcDesc) (rows : List (List Byte)) :
    ∀ r, totalElapsed (rowsAnswers p st sd r rows) = 0 := by
  induction rows with
  | nil => intro r; rfl
  | cons src rows ih => intro r; simp [rowsAnswers, totalElapsed_append, ih]

@[simp] theorem totalElapsed_passAnswers (p : Params) (st : Stage) (sd : SrcDesc) (first : Nat)
    (src : List (List Byte)) (d : Word) : totalElapsed (passAnswers p st sd first src d) = d := by
  simp [passAnswers, Answers.join, totalElapsed_append]

section Passes

variable {s : State} {rest : List Micro} {evs : List Event} {pins : Pins} {st : Stage} {sd : SrcDesc}

/-- The first rows of a pass, with `n` rows left after them (R156). -/
theorem runs_firstRows (hb : s.busy = true) (htx : s.tx = none) (hrd : s.rd = none) (n : Nat)
    (rowsRead : List (List Byte)) :
    ∀ (r k : Nat) {evs : List Event} {pins : Pins},
      (∀ i (h : i < rowsRead.length), yields s sd (k + i) rowsRead[i]) →
      Runs (rowsAnswers s.params st sd r rowsRead)
        (s.mid (.rows st sd r k (rowsRead.length + n) :: rest) evs pins)
        (s.mid (.rows st sd (r + rowsRead.length) (k + rowsRead.length) n :: rest)
          (evs ++ rowsEvents s.params st sd r k rowsRead) (rowsPins rowsRead.length pins)) := by
  induction rowsRead with
  | nil =>
    intro r k evs pins _
    simpa [rowsAnswers, rowsEvents, rowsPins] using Runs.refl (s.mid (.rows st sd r k n :: rest) evs pins)
  | cons src rowsRead ih =>
    intro r k evs pins hy
    have first : Runs Answers.none (s.mid (.rows st sd r k (rowsRead.length + n + 1) :: rest) evs pins)
        (s.mid (.row st sd r k :: .rows st sd (r + 1) (k + 1) (rowsRead.length + n) :: rest) evs pins) :=
      .tick hb rfl fun q => by
        simp [runMicro, doRows, State.mid, State.world, State.feed, State.push, State.setTodo, Answers.none]
    have row := first.then (runs_row_ok hb htx hrd (hy 0 (Nat.zero_lt_succ _)))
    have next := row.trans (ih (r + 1) (k + 1) fun i h => by
      have := hy (i + 1) (Nat.succ_lt_succ h)
      rwa [show k + (i + 1) = k + 1 + i by omega] at this)
    rw [rowsPins_setLevel, List.append_assoc] at next
    rw [List.length_cons, rowsPins_succ, Nat.add_right_comm, show r + (rowsRead.length + 1) =
      r + 1 + rowsRead.length by omega, show k + (rowsRead.length + 1) = k + 1 + rowsRead.length by omega]
    exact next

/-- The rows of a pass (R156). -/
theorem runs_rows (hb : s.busy = true) (htx : s.tx = none) (hrd : s.rd = none) (rowsRead : List (List Byte))
    (r k : Nat) (hy : ∀ i (h : i < rowsRead.length), yields s sd (k + i) rowsRead[i]) :
    Runs (rowsAnswers s.params st sd r rowsRead) (s.mid (.rows st sd r k rowsRead.length :: rest) evs pins)
      (s.mid rest (evs ++ rowsEvents s.params st sd r k rowsRead) (rowsPins rowsRead.length pins)) := by
  have last : Runs Answers.none
      (s.mid (.rows st sd (r + rowsRead.length) (k + rowsRead.length) 0 :: rest)
        (evs ++ rowsEvents s.params st sd r k rowsRead) (rowsPins rowsRead.length pins))
      (s.mid rest (evs ++ rowsEvents s.params st sd r k rowsRead) (rowsPins rowsRead.length pins)) :=
    .tick hb rfl fun q => by
      simp [runMicro, doRows, State.mid, State.world, State.feed, State.setTodo, Answers.none]
  have h := (runs_firstRows (rest := rest) (evs := evs) (pins := pins) hb htx hrd 0 rowsRead r k hy).trans last
  rw [Answers.append_none] at h
  exact h

/-- A pass that a busy timeout ends after the rows `good` and the row `bad` (R152, R159). -/
theorem runs_pass_timeout (hb : s.busy = true) (htx : s.tx = none) (hrd : s.rd = none)
    {good : List (List Byte)} {bad : List Byte} {first count m : Nat} (hn : count = good.length + (m + 1))
    (hy : ∀ i (h : i < good.length), yields s sd i good[i]) (hbad : yields s sd good.length bad) :
    Runs ((rowsAnswers s.params st sd first good).append
        (rowAnswers s.params st sd (first + good.length) bad .timeout))
      (s.mid (.pass st sd first count :: rest) evs pins)
      ({ s with stage := st, ms := s.ms + s.params.busyTimeoutMs }.timedOut
        (evs ++ rowsEvents s.params st sd first 0 good
          ++ rowEvents s.params st sd (first + good.length) good.length bad .timeout)
        (setLevel .cs true pins)) := by
  subst hn
  have start : Runs Answers.none (s.mid (.pass st sd first (good.length + (m + 1)) :: rest) evs pins)
      ({ s with stage := st }.mid (.rows st sd first 0 (good.length + (m + 1)) :: rest) evs pins) :=
    .tick hb rfl fun q => by
      simp [runMicro, doPass, State.mid, State.world, State.feed, State.push, State.setTodo, Answers.none]
  have rows := start.then (runs_firstRows (s := { s with stage := st }) hb htx hrd (m + 1) good first 0
    fun i h => by rw [Nat.zero_add]; exact hy i h)
  have next : Runs Answers.none
      ({ s with stage := st }.mid (.rows st sd (first + good.length) (0 + good.length) (m + 1) :: rest)
        (evs ++ rowsEvents s.params st sd first 0 good) (rowsPins good.length pins))
      ({ s with stage := st }.mid
        (.row st sd (first + good.length) good.length
          :: .rows st sd (first + good.length + 1) (good.length + 1) m :: rest)
        (evs ++ rowsEvents s.params st sd first 0 good) (rowsPins good.length pins)) :=
    .tick hb rfl fun q => by
      simp [runMicro, doRows, State.mid, State.world, State.feed, State.push, State.setTodo, Answers.none]
  have h := (rows.trans next).trans
    (runs_row_timeout (s := { s with stage := st }) (st := st) hb htx hrd hbad)
  have e : setLevel .cs true (rowsPins good.length pins) = setLevel .cs true pins := by
    cases good with
    | nil => rfl
    | cons _ _ => rw [List.length_cons, rowsPins_succ, setLevel_setLevel]
  rw [Answers.append_none, e] at h
  exact h

/-- One pass (R156). -/
theorem runs_pass (hb : s.busy = true) (htx : s.tx = none) (hrd : s.rd = none) {rowsRead : List (List Byte)}
    {first count : Nat} (hn : rowsRead.length = count)
    (hy : ∀ i (h : i < rowsRead.length), yields s sd i rowsRead[i]) :
    Runs (rowsAnswers s.params st sd first rowsRead) (s.mid (.pass st sd first count :: rest) evs pins)
      ({ s with stage := st }.mid rest (evs ++ rowsEvents s.params st sd first 0 rowsRead)
        (rowsPins count pins)) := by
  subst hn
  have start : Runs Answers.none (s.mid (.pass st sd first rowsRead.length :: rest) evs pins)
      ({ s with stage := st }.mid (.rows st sd first 0 rowsRead.length :: rest) evs pins) :=
    .tick hb rfl fun q => by
      simp [runMicro, doPass, State.mid, State.world, State.feed, State.push, State.setTodo, Answers.none]
  exact start.then (runs_rows (s := { s with stage := st }) hb htx hrd rowsRead first 0 fun i h => by
    rw [Nat.zero_add]; exact hy i h)

/-- One turn of the stage loop, a pass that takes `d` milliseconds (R157). -/
theorem runs_turn (hb : s.busy = true) (htx : s.tx = none) (hrd : s.rd = none) {rowsRead : List (List Byte)}
    {first count : Nat} (dur : Word) (n : Nat) (d : Word) (hn : rowsRead.length = count)
    (hy : ∀ i (h : i < rowsRead.length), yields s sd i rowsRead[i]) :
    Runs (passAnswers s.params st sd first rowsRead d)
      (s.mid (.passStart st sd first count dur n :: rest) evs pins)
      ({ s with
          passes := passesWord (n + 1)
          stage := st
          acc := accumulate s.acc d
          ms := s.ms + d }.mid
        (if dur.toNat ≤ (accumulate s.acc d).toNat then rest
         else .passStart st sd first count dur (n + 1) :: rest)
        (evs ++ rowsEvents s.params st sd first 0 rowsRead) (rowsPins count pins)) := by
  have start : Runs (timeAnswer 0) (s.mid (.passStart st sd first count dur n :: rest) evs pins)
      ({ s with passes := passesWord (n + 1) }.mid
        (.pass st sd first count :: .passEnd st sd first count dur (n + 1) s.ms :: rest) evs pins) :=
    .tick hb rfl fun q => by
      simp [runMicro, doPassStart, readNow, sampleElapsed, State.mid, State.world, State.feed, State.push,
        State.setTodo, timeAnswer, Answers.none]
  have mid := start.trans (runs_pass (st := st) (s := { s with passes := passesWord (n + 1) }) hb htx hrd hn hy)
  have foot : Runs (timeAnswer d)
      ({ s with passes := passesWord (n + 1), stage := st }.mid
        (.passEnd st sd first count dur (n + 1) s.ms :: rest)
        (evs ++ rowsEvents s.params st sd first 0 rowsRead) (rowsPins count pins))
      ({ s with
          passes := passesWord (n + 1)
          stage := st
          acc := accumulate s.acc d
          ms := s.ms + d }.mid
        (if dur.toNat ≤ (accumulate s.acc d).toNat then rest
         else .passStart st sd first count dur (n + 1) :: rest)
        (evs ++ rowsEvents s.params st sd first 0 rowsRead) (rowsPins count pins)) :=
    .tick hb rfl fun q => by
      have e : s.ms + d - s.ms = d := by rw [BitVec.add_comm, BitVec.add_sub_cancel]
      simp only [runMicro, doPassEnd, readNow, sampleElapsed, State.mid, State.world, State.feed, State.push,
        State.setTodo, timeAnswer, Answers.none, List.nil_append, List.singleton_append, e]
      split <;> rfl
  have h := mid.trans foot
  rw [Answers.append_assoc] at h
  simpa only [passAnswers, Answers.join, Answers.append_none] using h

theorem toNat_accumulate (acc d : Word) :
    (accumulate acc d).toNat = min (acc.toNat + d.toNat) (2 ^ 32 - 1) := by
  simp only [accumulate, BitVec.toNat_ofNat]
  exact Nat.mod_eq_of_lt (by omega)

/-- The stage loop: passes until their times add up to the duration (R157). -/
theorem runs_turns {first count : Nat} (dur : Word) (last : List (List Byte) × Word)
    (before : List (List (List Byte) × Word)) :
    ∀ {s : State} {evs : List Event} {pins : Pins} (n : Nat), s.busy = true → s.tx = none → s.rd = none →
      (∀ q ∈ before ++ [last], q.1.length = count ∧ ∀ i (h : i < q.1.length), yields s sd i q.1[i]) →
      (before = [] ∨ s.acc.toNat + totalTime before < dur.toNat) →
      dur.toNat ≤ s.acc.toNat + totalTime (before ++ [last]) →
      Runs (stageAnswers s.params st sd first (before ++ [last]))
        (s.mid (.passStart st sd first count dur n :: rest) evs pins)
        ({ s with
            stage := st
            passes := passesWord (n + before.length + 1)
            acc := BitVec.ofNat 32 (min (s.acc.toNat + totalTime (before ++ [last])) (2 ^ 32 - 1))
            ms := s.ms + totalElapsed (stageAnswers s.params st sd first (before ++ [last])) }.mid rest
          (evs ++ stageEvents s.params st sd first (before ++ [last])) (rowsPins count pins)) := by
  induction before with
  | nil =>
    intro s evs pins n hb htx hrd hy _ hd
    obtain ⟨hn, hy⟩ := hy last (by simp)
    have h := runs_turn (st := st) (first := first) (evs := evs) (pins := pins) (rest := rest) hb htx hrd dur n
      last.2 hn hy
    have he : dur.toNat ≤ (accumulate s.acc last.2).toNat := by
      have := dur.isLt
      simp [totalTime] at hd
      rw [toNat_accumulate]
      omega
    rw [if_pos he] at h
    simpa [stageAnswers, stageEvents, totalTime, accumulate] using h
  | cons q before ih =>
    intro s evs pins n hb htx hrd hy hlt hd
    obtain ⟨hn, hyq⟩ := hy q (by simp)
    have h := runs_turn (st := st) (first := first) (evs := evs) (pins := pins) (rest := rest) hb htx hrd dur n
      q.2 hn hyq
    have hlt : s.acc.toNat + totalTime (q :: before) < dur.toNat := hlt.resolve_left (by simp)
    have hdur := dur.isLt
    have hacc : (accumulate s.acc q.2).toNat = s.acc.toNat + q.2.toNat := by
      rw [toNat_accumulate]
      simp [totalTime] at hlt
      omega
    have he : ¬dur.toNat ≤ (accumulate s.acc q.2).toNat := by
      simp [totalTime] at hlt
      omega
    rw [if_neg he] at h
    have k := ih (s := { s with
        passes := passesWord (n + 1)
        stage := st
        acc := accumulate s.acc q.2
        ms := s.ms + q.2 })
      (evs := evs ++ rowsEvents s.params st sd first 0 q.1) (pins := rowsPins count pins) (n + 1) hb htx hrd
      (fun q' hq' => hy q' (List.mem_cons_of_mem _ hq'))
      (.inr (by simp [totalTime] at hlt; simp [totalTime, hacc]; omega))
      (by simp [totalTime] at hd; simp [totalTime, hacc]; omega)
    have j := h.trans k
    have e1 : s.acc.toNat + (q.2.toNat + ((before.map fun q => q.2.toNat).sum + last.2.toNat)) =
        s.acc.toNat + q.2.toNat + ((before.map fun q => q.2.toNat).sum + last.2.toNat) := by omega
    have e2 : n + (before.length + 1) + 1 = n + 1 + before.length + 1 := by omega
    simpa [stageAnswers, stageEvents, totalTime, hacc, rowsPins_rowsPins, totalElapsed_append, e1, e2,
      BitVec.add_assoc] using j

/-- One stage (R157). -/
theorem runs_stage (hb : s.busy = true) (htx : s.tx = none) (hrd : s.rd = none) {first count : Nat}
    {before : List (List (List Byte) × Word)} {last : List (List Byte) × Word}
    (hy : ∀ q ∈ before ++ [last], q.1.length = count ∧ ∀ i (h : i < q.1.length), yields s sd i q.1[i])
    (hlt : before = [] ∨ totalTime before < s.duration.toNat)
    (hd : s.duration.toNat ≤ totalTime (before ++ [last])) :
    Runs (stageAnswers s.params st sd first (before ++ [last]))
      (s.mid (.stage st sd first count :: rest) evs pins)
      ({ s with
          stage := st
          passes := passesWord (before.length + 1)
          acc := BitVec.ofNat 32 (min (totalTime (before ++ [last])) (2 ^ 32 - 1))
          ms := s.ms + totalElapsed (stageAnswers s.params st sd first (before ++ [last])) }.mid rest
        (evs ++ stageEvents s.params st sd first (before ++ [last])) (rowsPins count pins)) := by
  have start : Runs Answers.none (s.mid (.stage st sd first count :: rest) evs pins)
      ({ s with acc := 0 }.mid (.passStart st sd first count s.duration 0 :: rest) evs pins) :=
    .tick hb rfl fun q => by
      simp [runMicro, doStage, State.mid, State.world, State.feed, State.push, State.setTodo, Answers.none]
  have h := start.then (runs_turns (st := st) (s := { s with acc := 0 }) s.duration last before 0 hb htx hrd hy
    (by simpa using hlt) (by simpa using hd))
  simpa using h

/-- A stage of one pass that takes at least the duration (R157). -/
theorem runs_stage_once (hb : s.busy = true) (htx : s.tx = none) (hrd : s.rd = none) {first count : Nat}
    {rowsRead : List (List Byte)} {d : Word} (hn : rowsRead.length = count)
    (hy : ∀ i (h : i < rowsRead.length), yields s sd i rowsRead[i]) (hd : s.duration.toNat ≤ d.toNat) :
    Runs (passAnswers s.params st sd first rowsRead d) (s.mid (.stage st sd first count :: rest) evs pins)
      ({ s with stage := st, passes := 1, acc := d, ms := s.ms + d }.mid rest
        (evs ++ rowsEvents s.params st sd first 0 rowsRead) (rowsPins count pins)) := by
  have h := runs_stage (st := st) (first := first) (rest := rest) (evs := evs) (pins := pins)
    (before := []) (last := (rowsRead, d)) hb htx hrd (by simpa using ⟨hn, hy⟩) (.inl rfl)
    (by simpa [totalTime] using hd)
  have e : BitVec.ofNat 32 (min d.toNat 4294967295) = d := by
    rw [Nat.min_eq_left (by have := d.isLt; omega)]
    simp
  simpa [stageAnswers, stageEvents, totalTime, passesWord, e] using h

/-- A four-stage sequence of one pass per stage (R158). -/
theorem runs_sequence (hb : s.busy = true) (htx : s.tx = none) (hrd : s.rd = none) {sdOld sdNew : SrcDesc}
    {first count : Nat} {f : FourPasses} {d : Word}
    (hc : f.compensate.length = count ∧ ∀ i (h : i < f.compensate.length), yields s sdOld i f.compensate[i])
    (hw : f.white.length = count ∧ ∀ i (h : i < f.white.length), yields s sdOld i f.white[i])
    (hi : f.inverse.length = count ∧ ∀ i (h : i < f.inverse.length), yields s sdNew i f.inverse[i])
    (hn : f.normal.length = count ∧ ∀ i (h : i < f.normal.length), yields s sdNew i f.normal[i])
    (hd : s.duration.toNat ≤ d.toNat) :
    Runs (sequenceAnswers s.params sdOld sdNew first f d)
      (s.mid (stageSequence sdOld sdNew first count ++ rest) evs pins)
      ({ s with
          stage := .normal
          passes := 1
          acc := d
          ms := s.ms + totalElapsed (sequenceAnswers s.params sdOld sdNew first f d) }.mid rest
        (evs ++ sequenceEvents s.params sdOld sdNew first f) (rowsPins count pins)) := by
  have h1 := runs_stage_once (st := .compensate) (first := first) (evs := evs) (pins := pins)
    (rest := .stage .white sdOld first count :: .stage .inverse sdNew first count ::
      .stage .normal sdNew first count :: rest) hb htx hrd hc.1 hc.2 hd
  have h2 := h1.trans (runs_stage_once (st := .white) (first := first)
    (s := { s with stage := .compensate, passes := 1, acc := d, ms := s.ms + d }) hb htx hrd hw.1 hw.2 hd)
  have h3 := h2.trans (runs_stage_once (st := .inverse) (first := first)
    (s := { s with stage := .white, passes := 1, acc := d, ms := s.ms + d + d }) hb htx hrd hi.1 hi.2 hd)
  have h4 := h3.trans (runs_stage_once (st := .normal) (first := first)
    (s := { s with stage := .inverse, passes := 1, acc := d, ms := s.ms + d + d + d })
    hb htx hrd hn.1 hn.2 hd)
  simpa [stageSequence, sequenceAnswers, sequenceEvents, Answers.join, Answers.append_assoc,
    totalElapsed_append, List.append_assoc, rowsPins_rowsPins, BitVec.add_assoc] using h4

end Passes

/-! ### Power sequences -/

section Power

variable {s : State} {rest : List Micro} {evs : List Event} {pins : Pins}

/-- A `SLEEP` that ends at its first look at the counter (R160). -/
theorem runs_sleep (n : Nat) (fatal : Bool) (hn : n < 2 ^ 32) (hb : s.busy = true) :
    Runs (actionAnswers (.sleep n)) (s.mid (.perform (.sleep n) fatal :: rest) evs pins)
      ({ s with ms := s.ms + BitVec.ofNat 32 n }.mid rest (evs ++ [Event.sleep n]) pins) := by
  have first : Runs (timeAnswer 0) (s.mid (.perform (.sleep n) fatal :: rest) evs pins)
      (s.mid (.sleeping s.ms n :: rest) (evs ++ [Event.sleep n]) pins) :=
    .tick hb rfl fun q => by
      simp [runMicro, doPerform, doSleep, readNow, sampleElapsed, State.mid, State.world, State.feed,
        State.push, State.emit, State.setTodo, timeAnswer, Answers.none]
  have next : Runs (timeAnswer (BitVec.ofNat 32 n))
      (s.mid (.sleeping s.ms n :: rest) (evs ++ [Event.sleep n]) pins)
      ({ s with ms := s.ms + BitVec.ofNat 32 n }.mid rest (evs ++ [Event.sleep n]) pins) :=
    .tick hb rfl fun q => by
      have e : s.ms + BitVec.ofNat 32 n - s.ms = BitVec.ofNat 32 n := by
        rw [BitVec.add_comm, BitVec.add_sub_cancel]
      have hle : n ≤ n % 4294967296 := by omega
      simp [runMicro, doSleeping, readNow, sampleElapsed, State.mid, State.world, State.feed, State.setTodo,
        timeAnswer, Answers.none, e, hle]
  have h := first.trans next
  simpa [timeAnswer, actionAnswers, Answers.append, Answers.none] using h

/-- One action of a power sequence with prompt collaborators (R160). -/
theorem runs_action (a : PowerAction) (fatal : Bool) (ha : sleepsFit [a] = true) (hb : s.busy = true)
    (htx : s.tx = none) :
    Runs (actionAnswers a) (s.mid (.perform a fatal :: rest) evs pins)
      ({ s with ms := s.ms + totalElapsed (actionAnswers a) }.mid rest (evs ++ actionEvents a)
        (actionPins pins a)) := by
  cases a with
  | pin p v =>
    refine .tick hb rfl fun q => ?_
    simp [runMicro, doPerform, State.drive, State.emit, State.mid, State.world, State.feed, State.setTodo,
      actionAnswers, actionEvents, actionPins, Answers.none, totalElapsed]
  | sleep n =>
    have h := runs_sleep (s := s) (rest := rest) (evs := evs) (pins := pins) n fatal
      (by simpa [sleepsFit] using ha) hb
    simpa [totalElapsed, actionAnswers, actionEvents, actionPins] using h
  | xfer bs =>
    have start : Runs Answers.none (s.mid (.perform (.xfer bs) fatal :: rest) evs pins)
        (s.mid (.setPin .cs false :: .send bs :: .setPin .cs true :: rest) evs pins) :=
      .tick hb rfl fun q => by
        simp [runMicro, doPerform, State.mid, State.world, State.feed, State.push, State.setTodo, Answers.none]
    have h := ((start.then (runs_setPin .cs false hb)).then
      (runs_send (rest := .setPin .cs true :: rest) bs hb htx)).trans (runs_setPin .cs true hb)
    rw [setLevel_setLevel, Answers.append_none, List.append_assoc, List.append_assoc] at h
    have e : ({ s with ms := s.ms + totalElapsed (actionAnswers (.xfer bs)) } : State) = s := by
      simp [totalElapsed, actionAnswers, Answers.none]
    rw [e]
    exact h
  | waitBusy =>
    have start : Runs Answers.none (s.mid (.perform .waitBusy fatal :: rest) evs pins)
        (s.mid (.pollStart fatal :: rest) evs pins) :=
      .tick hb rfl fun q => by
        simp [runMicro, doPerform, State.mid, State.world, State.feed, State.push, State.setTodo, Answers.none]
    have h := start.then (runs_poll_ok fatal hb)
    have e : ({ s with ms := s.ms + totalElapsed (actionAnswers .waitBusy) } : State) = s := by
      simp [totalElapsed, actionAnswers, Answers.none]
    rw [e]
    exact h

/-- A list of actions with prompt collaborators (R161, R162). -/
theorem runs_actions (fatal : Bool) (actions : List PowerAction) :
    ∀ {s : State} {evs : List Event} {pins : Pins}, sleepsFit actions = true → s.busy = true → s.tx = none →
      Runs (powerAnswers actions) (s.mid (actions.map (fun a => .perform a fatal) ++ rest) evs pins)
        ({ s with ms := s.ms + totalElapsed (powerAnswers actions) }.mid rest
          (evs ++ actions.flatMap actionEvents) (actions.foldl actionPins pins)) := by
  induction actions with
  | nil =>
    intro s evs pins _ _ _
    simpa [powerAnswers, Answers.join] using Runs.refl (s.mid rest evs pins)
  | cons a actions ih =>
    intro s evs pins ha hb htx
    obtain ⟨ha, hr⟩ : sleepsFit [a] = true ∧ sleepsFit actions = true := by
      simpa [sleepsFit] using ha
    have h1 := runs_action (rest := actions.map (fun a => .perform a fatal) ++ rest) (evs := evs)
      (pins := pins) a fatal ha hb htx
    have h2 := ih (s := { s with ms := s.ms + totalElapsed (actionAnswers a) })
      (evs := evs ++ actionEvents a) (pins := actionPins pins a) hr hb htx
    have h := h1.trans h2
    simpa [powerAnswers, Answers.join, totalElapsed_append, List.append_assoc, BitVec.add_assoc] using h

/-- `PowerOn()` with prompt collaborators (R161). -/
theorem runs_powerOn (ha : sleepsFit s.params.powerOnSeq = true) (hb : s.busy = true) (htx : s.tx = none) :
    Runs (powerAnswers s.params.powerOnSeq) (s.mid (.powerOn :: rest) evs pins)
      ({ s with pwr := .on, ms := s.ms + totalElapsed (powerAnswers s.params.powerOnSeq) }.mid rest
        (evs ++ s.params.powerOnSeq.flatMap actionEvents) (s.params.powerOnSeq.foldl actionPins pins)) := by
  have start : Runs Answers.none (s.mid (.powerOn :: rest) evs pins)
      (s.mid (s.params.powerOnSeq.map (fun a => .perform a true) ++ .setPwr .on :: rest) evs pins) :=
    .tick hb rfl fun q => by
      simp [runMicro, doPowerOn, State.mid, State.world, State.feed, State.push, State.setTodo, Answers.none]
  have h := (start.then (runs_actions (rest := .setPwr .on :: rest) true s.params.powerOnSeq ha hb htx))
  have k := h.trans (runs_setPwr .on hb)
  rw [Answers.append_none] at k
  exact k

/-- `PowerOff()` from `ON` or `FAULT` with prompt collaborators (R162). -/
theorem runs_powerOff (hp : s.pwr ≠ .off) (ha : sleepsFit s.params.powerOffSeq = true) (hb : s.busy = true)
    (htx : s.tx = none) :
    Runs (powerAnswers s.params.powerOffSeq) (s.mid (.powerOff :: rest) evs pins)
      ({ s with pwr := .off, ms := s.ms + totalElapsed (powerAnswers s.params.powerOffSeq) }.mid rest
        (evs ++ s.params.powerOffSeq.flatMap actionEvents) (s.params.powerOffSeq.foldl actionPins pins)) := by
  have start : Runs Answers.none (s.mid (.powerOff :: rest) evs pins)
      (s.mid (s.params.powerOffSeq.map (fun a => .perform a false) ++ .setPwr .off :: rest) evs pins) :=
    .tick hb rfl fun q => by
      simp [runMicro, doPowerOff, State.mid, State.world, State.feed, State.push, State.setTodo, Answers.none,
        hp]
  have h := (start.then (runs_actions (rest := .setPwr .off :: rest) false s.params.powerOffSeq ha hb htx))
  have k := h.trans (runs_setPwr .off hb)
  rw [Answers.append_none] at k
  exact k

end Power

end Sys2Proof.Machine
end

