-- ==== Sys2Proof/Tests/Slice0.lean ====
section
/-! SUPPORT. The model's own tests: what WellFormed refuses, words written out bit by bit from 30_encoding.md,
single steps whose results stand in 95_test_vectors.md, and for every statement with premises a witness
that meets them. -/

namespace Sys2Proof.Tests

open Sys2Proof Sys2Proof.Machine

/-! ### Well-formedness (R115, R125) -/

theorem test_wellFormed_refuses_old_source_without_old_image :
    WellFormed (.showImage .res .reader false 0) = false ∧ WellFormed (.showImage .res .res false 0) = false ∧
      WellFormed (.showImage .res .old false 0) = false := by decide

theorem test_wellFormed_takes_fixed_old_source :
    WellFormed (.showImage .reader .fixed false 0xFF) = true ∧
      WellFormed (.showImage .reader .reader true 0xFF) = true := by decide

/-! ### Words bit by bit (R112 to R123) -/

theorem test_word_nop : decode 0b000000000000000000000000000_00000 = .command .nop := by decide

theorem test_word_pwrOn : decode 0b000000000000000000000000000_00001 = .command .pwrOn := by decide

theorem test_word_pwrOff : decode 0b000000000000000000000000000_00010 = .command .pwrOff := by decide

/-- TEMP is `[23:16]`; -7 is `11111001`. -/
theorem test_word_setTemp :
    decode 0b00000000_11111001_00000000000_00011 = .command (.setTemp (-7)) := by decide

theorem test_word_sampleTemp : decode 0b000000000000000000000000000_00100 = .command .sampleTemp := by decide

/-- FILL `[23:16]`, SRC `[8:7]`, STAGE `[6:5]`. -/
theorem test_word_refreshOnce :
    decode 0b00000000_01011010_0000000_10_11_00101 = .command (.refreshOnce .normal .old 0x5A) := by decide

theorem test_word_refreshRepeat :
    decode 0b00000000_11111111_0000000_01_10_00110 = .command (.refreshRepeat .inverse .res 0xFF) := by decide

theorem test_word_drvClear :
    decode 0b00000000_10000001_00000000000_00111 = .command (.drvClear 0x81) := by decide

/-- FILL `[23:16]`, HAS_OLD `[11]`, OLDSRC `[10:9]`, NEWSRC `[8:7]`. -/
theorem test_word_showImage :
    decode 0b00000000_00001111_0000_1_10_01_00_01000 = .command (.showImage .res .old true 0x0F) := by decide

/-- INDEX `[31:16]`. -/
theorem test_word_selSeg :
    decode 0b1000000000000001_00000000000_01001 = .command (.selSeg 0x8001) := by decide

/-- Y `[31:20]`, X `[19:8]`, COLOR `[5]`. -/
theorem test_word_setPixel :
    decode 0b000000000101_111111111111_00_1_01010 = .command (.setPixel true (-1) 5) := by decide

/-- DO_PWR_OFF `[7]`, DO_PWR_ON `[6]`, CLEAR_FIRST `[5]`. -/
theorem test_word_display :
    decode 0b000000000000000000000000_1_0_0_01011 = .command (.display false false true) := by decide

theorem test_word_fbClear : decode 0b000000000000000000000000000_01100 = .command .fbClear := by decide

/-- The illegal words of 95_test_vectors.md 3.1. -/
theorem test_illegal_words :
    decode 0x0000000D = .illegal .reservedOpcode ∧ decode 0x0000001F = .illegal .reservedOpcode ∧
    decode 0x00000020 = .illegal .reservedBits ∧ decode 0x80000001 = .illegal .reservedBits ∧
    decode 0x00F90023 = .illegal .reservedBits ∧ decode 0x000003E5 = .illegal .reservedBits ∧
    decode 0x010000E5 = .illegal .reservedBits ∧ decode 0x00000027 = .illegal .reservedBits ∧
    decode 0x00000208 = .illegal .reservedForm ∧ decode 0x00001088 = .illegal .reservedBits ∧
    decode 0x00000028 = .illegal .reservedBits ∧ decode 0x00000029 = .illegal .reservedBits ∧
    decode 0x0050036A = .illegal .reservedBits ∧ decode 0x0050038A = .illegal .reservedBits ∧
    decode 0x0000010B = .illegal .reservedBits ∧ decode 0x0000002C = .illegal .reservedBits := by decide

/-- The words of the assembler lines of 95_test_vectors.md 3.1 and 30_encoding.md R128. -/
theorem test_assembled_words :
    (assemble (.setTemp (-7))).map encode = some 0x00F90003 ∧
    (assemble (.setTemp (-129))).map encode = none ∧
    (assemble (.refreshOnce .normal .reader none)).map encode = some 0x000001E5 ∧
    (assemble (.refreshRepeat .white .fixed (some 0xFF))).map encode = some 0x00FF0026 ∧
    (assemble (.showImage .res (some .fixed) (some 0xFF))).map encode = some 0x00FF0888 ∧
    (assemble (.showImage .res none none)).map encode = some 0x00000088 ∧
    (assemble (.setPixel (-2048) (-2048) true)).map encode = some 0x8008002A ∧
    (assemble (.setPixel 2048 0 true)).map encode = none ∧
    (assemble (.display true true true)).map encode = some 0x000000EB := by decide

/-! ### Helpers -/

/-- What holds of the state that an outcome gives; false where it gives none. -/
def gives (o : Result) (p : State → Bool) : Bool :=
  match o with
  | .next t => p t
  | .fault _ => false
  | .refused _ => false

theorem next_of_gives {o : Result} {p : State → Bool} (h : gives o p = true) :
    ∃ t, o = .next t ∧ p t = true := by
  cases o with
  | next t => exact ⟨t, rfl, h⟩
  | fault _ => exact absurd h (by simp [gives])
  | refused _ => exact absurd h (by simp [gives])

/-- Collaborators that are always ready, and time that advances 100 ms a look. -/
def prompt : Answers where
  busyIn := List.replicate 40 false
  txReady := List.replicate 400 true
  rdReqReady := List.replicate 4 true
  rdData := [some 0x01, some 0x80, some 0xFF, some 0x00]
  tempIn := [0xF6]
  elapsed := List.replicate 100 100

/-- TC and TC2 after reset (95_test_vectors.md 1.1, 1.2). -/
def tc : State := State.resetOf paramsTC
def tc2 : State := State.resetOf paramsTC2

/-- TC and TC2 with the panel on. -/
def tcOn : State := { tc with pwr := .on }
def tc2On : State := { tc2 with pwr := .on }

/-- TC with a sensor. -/
def tcSensor : State := State.resetOf { paramsTC with tempSrc := .sensor }

/-- A block with `BPR = 3`, whose `CFG_OK` is 0 (95_test_vectors.md E1). -/
def misconfigured : State := State.resetOf { paramsTC with bpr := 3 }

/-- `s` with a value in `RANGE`. -/
def rows (v : Word) (s : State) : State := { s with range := v }

/-- The state `s` with `w` as the host's next word for `CMD`, prompt answers and `g` ticks after it. -/
def offered (w g : Nat) (s : State) : State := ((s.feed prompt).withGap g).withFetchWord 32 w

/-- The bytes of a trace's `Tx` events. -/
def sentBytes (t : State) : List Byte :=
  t.trace.filterMap fun e => match e with
    | .tx b => some b
    | _ => none

/-! ### Configurations and registers -/

/-- 95_test_vectors.md 1.1: the constants and the reset values of TC, and GEOM2 of TC2. `SEGMENT` is R44's,
with `SEG_COUNT` in `[31:16]` (log entry 20). -/
theorem test_registers_after_reset :
    regRead 0x24 tc = 0x00100008 ∧ regRead 0x28 tc = 0x00020002 ∧ regRead 0x2C tc = 0x00000004 ∧
    regRead 0x30 tc = 0x64 ∧ regRead 0x10 tc = 0x400 ∧ regRead 0x14 tc = 0x000A0019 ∧
    regRead 0x18 tc = 0x64 ∧ regRead 0x1C tc = 0x00020000 ∧ regRead 0x20 tc = 0 ∧
    regRead 0x2C tc2 = 0x00010008 := by decide

/-- R10 and R163: the three panels with the default tables are valid configurations. -/
theorem test_panels_are_valid :
    cfgOk (panelParams epd144 96 .dualBuffer .sensor 100 1000) = true ∧
    cfgOk (panelParams epd20 8 .alwaysClear .fixed 100 1000) = true ∧
    cfgOk (panelParams epd27 8 .alwaysClear .sensor 100 1000) = true ∧
    cfgOk (panelParams epd27 8 .dualBuffer .sensor 100 1000) = false := by decide

/-- 95_test_vectors.md E1. -/
theorem test_misconfigured_block :
    cfgOk { paramsTC with bpr := 3 } = false ∧ cfgOk { paramsTC with segHeight := 3 } = false ∧
    gives (step (offered 0x01 5 misconfigured)) (fun t => regRead 0x10 t == 0x16) = true ∧
    gives (step (offered 0x0D 5 misconfigured)) (fun t => t.errcode == .illegalCmd) = true ∧
    gives (step (offered 0x00 5 misconfigured)) (fun t => t.errcode == .ok) = true := by decide +kernel

/-! ### Commands (95_test_vectors.md 3.3 to 3.12 and section 4) -/

theorem test_nop :
    gives (step (offered 0x00 2 tc)) (fun t => t.trace == [.cmd 0, .done .ok] && regRead 0x10 t == 0x402) = true := by
  decide +kernel

/-- 3.9. -/
theorem test_pwrOn :
    gives (step (offered 0x01 12 tc)) (fun t =>
      t.trace == [.cmd 1, .pin .panelOn true, .sleep 10, .pin .cs true, .busy .ok, .done .ok]
        && t.pwr == .on) = true := by
  decide +kernel

/-- 3.9. -/
theorem test_pwrOn_when_on :
    gives (step (offered 0x01 12 tcOn)) (fun t => t.trace == [.cmd 1, .done .illegalState]) = true := by
  decide +kernel

/-- 3.9: `pwr_off` from `FAULT`. -/
theorem test_pwrOff :
    gives (step (offered 0x02 12 { tc with pwr := .fault })) (fun t =>
      t.trace == [.cmd 2, .pin .panelOn false, .pin .cs false, .done .ok] && t.pwr == .off) = true := by
  decide +kernel

/-- 3.3: three of the temperatures. -/
theorem test_setTemp :
    gives (step (offered 0x00F90003 3 tc)) (fun t => regRead 0x14 t == 0x007800F9 && regRead 0x18 t == 1200) = true ∧
    gives (step (offered 0x00F60003 3 tc)) (fun t => regRead 0x14 t == 0x00AA00F6 && regRead 0x18 t == 1700) = true ∧
    gives (step (offered 0x00290003 3 tc)) (fun t => regRead 0x14 t == 0x00070029 && regRead 0x18 t == 70) = true := by
  decide +kernel

/-- 3.3: floor division with `STAGE_TIME_MS = 105`. -/
theorem test_setTemp_floor :
    gives (step (offered 0x00290003 3 (State.resetOf { paramsTC with stageTimeMs := 105 }))) (fun t =>
      t.duration == 73) = true := by
  decide +kernel

/-- 3.3: the sensor draws `0xF6`. -/
theorem test_sampleTemp_sensor :
    gives (step (offered 0x04 3 tcSensor)) (fun t =>
      t.trace == [.cmd 4, .tempSample 0xF6, .done .ok] && regRead 0x14 t == 0x00AA00F6 && t.duration == 1700) = true := by
  decide +kernel

/-- P2 line 5. -/
theorem test_sampleTemp_fixed :
    gives (step (offered 0x04 3 { tc with tempC := 50 })) (fun t =>
      t.trace == [.cmd 4, .done .ok] && regRead 0x14 t == 0x000A0019) = true := by
  decide +kernel

/-- P3: rows 4 and 5 from `RES`, whose rows 0 and 1 are `00 00` and `01 80`. -/
theorem test_refreshOnce_res :
    gives (step (offered 0xE5 60 { tcOn with range := 0x00020004, res := [(2, 0x01), (3, 0x80)] })) (fun t =>
      sentBytes t == [0x72, 0x03, 0xAA, 0xAA, 0x00, 0xC0, 0xAA, 0xAA, 0x72, 0x00, 0x0F]
          ++ [0x72, 0x03, 0xEA, 0xAA, 0x00, 0x30, 0xEA, 0xAA, 0x72, 0x00, 0x0F]
        && regRead 0x10 t == 0x3502 && t.passes == 1) = true := by
  decide +kernel

/-- P6: rows 2 and 3 from the reader. -/
theorem test_refreshOnce_reader :
    gives (step (offered 0x1E5 70 { tcOn with range := 0x00020002, rdbase := 0x1000 })) (fun t =>
      sentBytes t == [0x72, 0x03, 0xEA, 0xAA, 0x0C, 0x00, 0xEA, 0xAA, 0x72, 0x00, 0x0F]
          ++ [0x72, 0x03, 0xAA, 0xFF, 0x03, 0x00, 0xFF, 0xAA, 0x72, 0x00, 0x0F]
        && t.trace.take 3 == [.cmd 0x1E5, .rdReq 0x1000 2, .rdData [0x01, 0x80]]
        && t.trace.contains (.rdReq 0x1002 2)) = true := by
  decide +kernel

/-- 3.5: pass times 40, 40, 40 against a duration of 100. The three looks at the counter of a pass are its
start, the poll's start and its end. -/
theorem test_refreshRepeat :
    gives (step (((rows 0x00010000 tcOn).feed
        { prompt with elapsed := [0, 0, 40, 0, 0, 40, 0, 0, 40] }).withGap 80 |>.withFetchWord 32 0x66)) (fun t =>
      t.passes == 3 && t.acc == 120 && (sentBytes t).length == 33 && !t.busy) = true := by
  decide +kernel

/-- 3.5: an empty range and pass times 60, 60. -/
theorem test_refreshRepeat_empty_range :
    gives (step (((rows 0x00000008 tcOn).feed { prompt with elapsed := [0, 60, 0, 60] }).withGap 20
        |>.withFetchWord 32 0x66)) (fun t =>
      t.passes == 2 && sentBytes t == [] && t.errcode == .ok && !t.busy) = true := by
  decide +kernel

/-- 3.6: `drv_clear 0xFF` on row 0. -/
theorem test_drvClear :
    gives (step (offered 0x00FF0007 100 (rows 0x00010000 tcOn))) (fun t =>
      sentBytes t ==
          [0x72, 0x03, 0xAA, 0xAA, 0xC0, 0x00, 0xAA, 0xAA, 0x72, 0x00, 0x0F]
          ++ [0x72, 0x03, 0xAA, 0xAA, 0xC0, 0x00, 0xAA, 0xAA, 0x72, 0x00, 0x0F]
          ++ [0x72, 0x03, 0xAA, 0xAA, 0xC0, 0x00, 0xAA, 0xAA, 0x72, 0x00, 0x0F]
          ++ [0x72, 0x03, 0xFF, 0xFF, 0xC0, 0x00, 0xFF, 0xFF, 0x72, 0x00, 0x0F]
        && regRead 0x10 t == 0x3502 && t.passes == 1) = true := by
  decide +kernel

/-- 3.6: `show_image res, fixed, fill=0xFF` with `RES` row 0 `01 00`. -/
theorem test_showImage :
    gives (step (offered 0x00FF0888 100 { tcOn with range := 0x00010000, res := [(0, 0x01)] })) (fun t =>
      sentBytes t ==
          [0x72, 0x03, 0xAA, 0xAA, 0xC0, 0x00, 0xAA, 0xAA, 0x72, 0x00, 0x0F]
          ++ [0x72, 0x03, 0xAA, 0xAA, 0xC0, 0x00, 0xAA, 0xAA, 0x72, 0x00, 0x0F]
          ++ [0x72, 0x03, 0xFF, 0xFF, 0xC0, 0x00, 0xBF, 0xFF, 0x72, 0x00, 0x0F]
          ++ [0x72, 0x03, 0xAA, 0xAA, 0xC0, 0x00, 0xEA, 0xAA, 0x72, 0x00, 0x0F]
        && regRead 0x10 t == 0x3502) = true := by
  decide +kernel

/-- 3.6: `show_image res` compensates with itself. -/
theorem test_showImage_self :
    gives (step (offered 0x88 100 { tcOn with range := 0x00010000, res := [(0, 0x01)] })) (fun t =>
      (sentBytes t).take 11 == [0x72, 0x03, 0xFF, 0xFF, 0xC0, 0x00, 0xBF, 0xFF, 0x72, 0x00, 0x0F]) = true := by
  decide +kernel

/-- 3.8 and P1. -/
theorem test_selSeg :
    gives (step (offered 0x00000009 3 { tc with res := [(0, 0x01), (7, 0x80)] })) (fun t => t.res == [] && t.seg == 0) = true ∧
    gives (step (offered 0x00010009 3 tc)) (fun t => regRead 0x1C t == 0x00020001) = true ∧
    gives (step (offered 0x00020009 3 { tc with res := [(0, 0x01)] })) (fun t =>
      regRead 0x10 t == 0x416 && t.res == [(0, 0x01)]) = true ∧
    gives (step (offered 0x00010009 3 tc2)) (fun t => t.errcode == .invalidConfig) = true := by
  decide +kernel

/-- P1 lines 2, 5, 6 and 8. -/
theorem test_setPixel :
    gives (step (offered 0x0050032A 3 { tc with seg := 1 })) (fun t => t.res == [(2, 0x08)]) = true ∧
    gives (step (offered 0x0010032A 3 { tc with seg := 1 })) (fun t => t.res == [] && regRead 0x10 t == 0x402) = true ∧
    gives (step (offered 0x0050102A 3 { tc with seg := 1 })) (fun t => regRead 0x10 t == 0x436) = true ∧
    gives (step (offered 0x0050030A 3 { tc with seg := 1, res := [(1, 0x01), (2, 0x08), (7, 0x80)] })) (fun t =>
      t.res == [(1, 0x01), (7, 0x80)]) = true := by
  decide +kernel

/-- P4: the number of frames, and row 0 of the image's I and N stages. -/
theorem test_display_clear_first :
    gives (step (offered 0xEB 800 { tc with res := [(0, 0x01)] })) (fun t =>
      (sentBytes t).length == 352
        && ((sentBytes t).drop 264).take 11 == [0x72, 0x03, 0xFF, 0xFF, 0xC0, 0x00, 0xBF, 0xFF, 0x72, 0x00, 0x0F]
        && ((sentBytes t).drop 308).take 11 == [0x72, 0x03, 0xAA, 0xAA, 0xC0, 0x00, 0xEA, 0xAA, 0x72, 0x00, 0x0F]
        && regRead 0x10 t == 0x3402 && t.res == [(0, 0x01)]) = true := by
  decide +kernel

/-- P7, second `display`: row 0 of each stage, and `OLD <- RES`. -/
theorem test_display_dual_buffer :
    gives (step (offered 0xEB 800 { tc2 with res := [(0, 0x02)], old := [(0, 0x01)] })) (fun t =>
      (sentBytes t).length == 352
        && (sentBytes t).take 11 == [0x72, 0x03, 0xFF, 0xFF, 0xC0, 0x00, 0xBF, 0xFF, 0x72, 0x00, 0x0F]
        && ((sentBytes t).drop 176).take 11 == [0x72, 0x03, 0xFF, 0xFE, 0xC0, 0x00, 0xFF, 0xFF, 0x72, 0x00, 0x0F]
        && ((sentBytes t).drop 264).take 11 == [0x72, 0x03, 0xAA, 0xAB, 0xC0, 0x00, 0xAA, 0xAA, 0x72, 0x00, 0x0F]
        && t.old == [(0, 0x02)]) = true := by
  decide +kernel

/-- 3.11. -/
theorem test_fbClear :
    gives (step (offered 0x0C 800 { tc2On with res := [(0, 0x02)], old := [(1, 0x01)] })) (fun t =>
      (sentBytes t).length == 352 && t.res == [] && t.old == [] && regRead 0x10 t == 0x3502) = true ∧
    gives (step (offered 0x0C 5 tc2)) (fun t => t.trace == [.cmd 0x0C, .done .illegalState]) = true := by
  decide +kernel

/-! ### Errors, overrun, reset, drawing -/

/-- 3.7. -/
theorem test_order_of_checks :
    gives (step (offered 0xE5 3 (rows 0x00010008 tc))) (fun t => t.errcode == .invalidConfig) = true ∧
    gives (step (offered 0x3E5 3 (rows 0x00010008 tc))) (fun t => t.errcode == .illegalCmd) = true ∧
    gives (step (offered 0x208 3 (rows 0x00010008 tc))) (fun t => t.errcode == .illegalCmd) = true ∧
    gives (step (offered 0xE5 3 (rows 0x00050000 tc))) (fun t => t.errcode == .invalidConfig) = true ∧
    gives (step (offered 0x65 3 (rows 0x00050000 tc))) (fun t => t.errcode == .illegalState) = true ∧
    gives (step (offered 0x65 3 (rows 0x00000008 tc))) (fun t => t.errcode == .illegalState) = true ∧
    gives (step (offered 0x105 3 tc)) (fun t => t.errcode == .invalidConfig) = true := by
  decide +kernel

/-- P5: the second row's poll times out (`BUSY_TIMEOUT_MS` is 50). -/
theorem test_row_timeout :
    gives (step (((rows 0x00020000 tcOn).feed { prompt with busyIn := [false, true], elapsed := [0, 0, 50] }).withGap 60
        |>.withFetchWord 32 0xE5)) (fun t =>
      regRead 0x10 t == 0x3626 && (sentBytes t).length == 22
        && t.trace.getLast? == some (.done .deviceTimeout)) = true := by
  decide +kernel

/-- 3.9: a `display` with `DO_PWR_OFF` that times out powers off and reports the timeout. -/
theorem test_display_timeout_powers_off :
    gives (step (((rows 0 tc2On).feed { prompt with busyIn := [true] }).withGap 60 |>.withFetchWord 32 0x8B)) (fun t =>
      t.pwr == .off && t.errcode == .deviceTimeout && t.old == []
        && t.trace.drop (t.trace.length - 4)
            == [.busy .timeout, .pin .panelOn false, .pin .cs false, .done .deviceTimeout]) = true := by
  decide +kernel

/-- 3.7: a second command while a refresh runs is dropped. -/
theorem test_overrun :
    gives (step (offered 0xE5 0 (rows 0x00010000 tcOn))) (fun s =>
      gives (step (s.withGap 60 |>.withFetchWord 32 0x01)) fun t => regRead 0x10 t == 0x350A) = true := by
  decide +kernel

/-- 3.10. -/
def diagonal : Glyph := ⟨2, 2, [[true, false], [false, true]]⟩

theorem test_drawChar :
    issued (drawChar paramsTC 0 0 0 diagonal true true 1) = [.setPixel true 0 0, .setPixel true 1 1] ∧
    issued (drawChar paramsTC 0 0 0 diagonal false true 1) =
      [.setPixel false 0 0, .setPixel true 0 1, .setPixel true 1 0, .setPixel false 1 1] ∧
    drawChar paramsTC 0 16 0 diagonal true true 1 = [] ∧ drawChar paramsTC 0 (-2) 0 diagonal true true 1 = [] ∧
    drawChar paramsTC 1 0 0 diagonal true true 1 = [] ∧
    issued (drawChar paramsTC 0 15 3 diagonal true true 1) = [.setPixel true 15 3, .setPixel true 16 4] := by decide

/-- R215: of a block of 3 by 3 pixels from (-2050, 0), the first two columns cannot be encoded; the third is
issued. -/
theorem test_unencodable_pixels_are_counted :
    countUnissued (paintBlock (-2050) 0 true 3) = 6 ∧
    issued (paintBlock (-2050) 0 true 3) = [.setPixel true (-2048) 0, .setPixel true (-2048) 1, .setPixel true (-2048) 2] := by
  decide

/-- R216 in TC (95_test_vectors.md E12): `sel_seg 0; draw; display 0, 1, 0; sel_seg 1; draw; display 0, 0, 1`. -/
theorem test_frameUpdate :
    frameUpdate paramsTC false [.pixel 3 5 true] =
      [.selSeg 0, .setPixel true 3 5, .display false true false, .selSeg 1, .setPixel true 3 5,
        .display false false true].flatMap commandLine := by decide

/-- `s` with one line of the host's program to come, and one tick after each of its accesses. -/
def programmed (op : HostOp) (s : State) : State :=
  { s with inputs := { s.inputs with program := [⟨op, 1⟩] } }

/-- R130: `wait` at an idle block reads `STATUS`, 0x400 after reset (R63), and is over. -/
theorem test_wait_ends :
    gives (step (programmed .wait tc)) (fun t => t.rdata == 0x400 && t.inputs.program == []) = true := by
  decide +kernel

/-- R130: while a refresh runs, `wait` reads `STATUS` with `BUSY = 1` and is still to come. -/
theorem test_wait_goes_on :
    gives (step (offered 0xE5 0 (rows 0x00010000 tcOn))) (fun s =>
      gives (step (programmed .wait s)) fun t =>
        t.busy && t.rdata.getLsbD 0 && t.inputs.program == [⟨.wait, 1⟩]) = true := by
  decide +kernel

/-- 3.10: `draw_char 0, 0, glyph, black, black, 1` reads `SEGMENT` and becomes two pixels, each with its
`wait`. -/
theorem test_drawChar_runs :
    gives (step (programmed (.drawChar 0 0 diagonal true true 1) tc)) (fun t =>
      t.rdata == regRead 0x1C tc &&
        t.inputs.program
          == [⟨.wr 0x00 0x0000002A, 1⟩, ⟨.wait, 1⟩, ⟨.wr 0x00 0x0010012A, 1⟩, ⟨.wait, 1⟩]) = true := by
  decide +kernel

/-- `s` with one access to come. -/
def moved (a : Access) (g : Nat) (s : State) : State :=
  { s with inputs := { s.inputs with moves := [⟨a, g⟩] } }

/-- R215: `draw_char 16, 0, ...` returns before the host reads `SEGMENT`; `draw_char 15, 4, ...` reads it. -/
theorem test_drawChar_rejects_before_reading :
    gives (step (programmed (.drawChar 16 0 diagonal true true 1) tc))
      (fun t => t.rdata == 0 && t.inputs.program == []) = true ∧
    gives (step (programmed (.drawChar 15 4 diagonal true true 1) tc))
      (fun t => t.rdata == regRead 0x1C tc && t.inputs.program == []) = true := by
  decide +kernel

/-- R270: a `PWR_ON` written while reset is asserted does nothing, and one after the release runs. -/
theorem test_reset_accepts_no_command :
    gives (step (moved (.write 0x00 0x01) 40 (tc.driveRst false))) (fun t => t.trace == [] && !t.busy) = true ∧
    gives (step (moved (.write 0x00 0x00) 1 ((tc.driveRst false).driveRst true)))
      (fun t => t.trace == [.cmd 0, .done .ok]) = true := by
  decide +kernel

/-! ### Witnesses: for each statement with premises, values that meet them -/

/-- TC while a refresh runs: a busy poll is about to begin. -/
def running : State :=
  { tcOn with
    busy := true
    seq := ⟨[.pollStart true], .ok, []⟩
    trace := [.cmd 0xE5] }

/-- TC while reset is asserted. -/
def held : State := tc.driveRst false

/-- TC while the bytes of a row are on the stream. -/
def sending : State := { running with seq := ⟨[.send [0x72, 0x03], .setPin .cs true], .ok, []⟩ }

theorem witness_DecodeOfEncodeIsTheCommand :
    WellFormed (.showImage .reader .reader true 0xFF) = true ∧ WellFormed .fbClear = true := by decide

theorem witness_EncodeOfDecodeIsTheWord :
    decode 0x0050032A = .command (.setPixel true 3 5) ∧ decode 0xFFFF0009 = .command (.selSeg 65535) := by decide

/-- First and last row, and the first and last reserved opcode. -/
theorem witness_WordsDecodeByMatchAndMask :
    (0x00, 0xFFFFFFFF) ∈ commandTable ∧ (0x0C, 0xFFFFFFFF) ∈ commandTable ∧
    0x0D ≤ ((0x0000000D : Word).extractLsb' 0 5).toNat ∧ 0x0D ≤ ((0xFFFFFFFF : Word).extractLsb' 0 5).toNat := by
  decide

theorem witness_StepRunsTheDecodedCommand :
    decode 0xE5 = .command (.refreshOnce .normal .res 0) ∧ tcOn.inputs.rstN = true ∧
      (moved (.write 0x00 0xE5) 5 tcOn).inputs.moves = ⟨.write 0x00 0xE5, 5⟩ :: [] ∧
      ((programmed (.wr 0x00 0xE5) tcOn).inputs.moves = [] ∧
        (programmed (.wr 0x00 0xE5) tcOn).inputs.program = ⟨.wr 0x00 0xE5, 1⟩ :: []) := by decide

/-- The boundary of each reason, and an illegal word written to an idle block. -/
theorem witness_IllegalWordCompletesAtOnce :
    0x0D ≤ ((0x0000000D : Word).extractLsb' 0 5).toNat ∧
    (formatOf ((0x0000002C : Word).extractLsb' 0 5) = some .n ∧ (0x0000002C : Word) &&& reservedMask .n ≠ 0) ∧
    (formatOf ((0x0050036A : Word).extractLsb' 0 5) = some .p ∧ (0x0050036A : Word) &&& reservedMask .p ≠ 0) ∧
    ((0x00000208 : Word).extractLsb' 0 5 = 0x08 ∧ (0x00000208 : Word) &&& 0xFF00F060 = 0 ∧
      (0x00000208 : Word).getLsbD 11 = false ∧ (0x00000208 : Word).extractLsb' 9 2 ≠ 0) ∧
    (decode 0x0000000D = .illegal .reservedOpcode ∧ (moved (.write 0x00 0x0D) 5 tc).inputs.rstN = true ∧
      (moved (.write 0x00 0x0D) 5 tc).inputs.moves = ⟨.write 0x00 0x0D, 5⟩ :: [] ∧ tc.busy = false) ∧
    Src.res ≠ .fixed := by decide

theorem witness_CommandWhileBusyIsDropped :
    ((moved (.write 0x00 0x01) 0 running).inputs.moves = ⟨.write 0x00 0x01, 0⟩ :: [] ∧
      (moved (.write 0x00 0x01) 0 running).inputs.rstN = true) ∧
    (moved (.write 0x00 0x01) 0 running).busy = true ∧
    ∃ t, step (moved (.write 0x00 0x01) 0 running) = .next t ∧ t.overrun = true :=
  ⟨by decide, by decide, next_of_gives (by decide +kernel)⟩

theorem witness_HostReadHasNoSideEffect :
    (tc.inputs.rstN = true ∧ running.inputs.rstN = true) ∧
    ((moved (.read 0x10) 7 tc).inputs.moves = ⟨.read 0x10, 7⟩ :: [] ∧ tc.busy = false) ∧
    (moved (.read 0x00) 7 tc).inputs.moves = ⟨.read 0x00, 7⟩ :: [] ∧
    ((programmed .wait running).inputs.moves = [] ∧
      (programmed .wait running).inputs.program = ⟨.wait, 1⟩ :: [] ∧ running.busy = true) ∧
    ((programmed .wait tc).inputs.moves = [] ∧
      (programmed .wait tc).inputs.program = ⟨.wait, 1⟩ :: [] ∧ tc.busy = false) := by decide

theorem witness_ReadOnlyRegistersShowTheirFields :
    tc.params.segHeight ≠ 0 ∧ tc.inputs.rstN = true ∧
    (moved (.write 0x14 0xFFFFFFFF) 0 tc).inputs.moves = ⟨.write 0x14 0xFFFFFFFF, 0⟩ :: [] ∧
    (moved (.write 0x30 0xFFFFFFFF) 0 tc).inputs.moves = ⟨.write 0x30 0xFFFFFFFF, 0⟩ :: [] := by decide

theorem witness_WritesReachTheReadWriteRegisters :
    (tc.inputs.rstN = true ∧ running.inputs.rstN = true) ∧
    (moved (.write 0x04 0x00020004) 0 tc).inputs.moves = ⟨.write 0x04 0x00020004, 0⟩ :: [] ∧
    (moved (.write 0x08 0xFFFFFFFF) 0 running).inputs.moves = ⟨.write 0x08 0xFFFFFFFF, 0⟩ :: [] ∧
    (moved (.write 0x0C 0x1000) 0 tc).inputs.moves = ⟨.write 0x0C 0x1000, 0⟩ :: [] := by decide

theorem witness_StatusWriteClearsTheNamedFlags :
    tc.inputs.rstN = true ∧
    (moved (.write 0x10 0x0000000E) 0 tc).inputs.moves = ⟨.write 0x10 0x0000000E, 0⟩ :: [] ∧
    (moved (.read 0x10) 0 tc).inputs.moves = ⟨.read 0x10, 0⟩ :: [] ∧
    ({ running with seq := Seq.idle }.busy = true ∧ { running with seq := Seq.idle }.seq.todo = []) := by decide

/-- A misaligned address, the first and last reserved offset, and the last address. -/
theorem witness_MisalignedAndReservedAccessesDoNothing :
    (0x11 : BitVec 8).extractLsb' 0 2 ≠ 0 ∧ 0x34 ≤ (0x34 : BitVec 8).toNat ∧ 0x34 ≤ (0xFC : BitVec 8).toNat ∧
    (0xFF : BitVec 8).extractLsb' 0 2 ≠ 0 ∧ tc.inputs.rstN = true ∧
    (moved (.read 0x34) 0 tc).inputs.moves = ⟨.read 0x34, 0⟩ :: [] ∧
    (moved (.write 0x11 0xFF) 0 tc).inputs.moves = ⟨.write 0x11 0xFF, 0⟩ :: [] := by decide

theorem witness_RunningCommandUsesLatchedArguments :
    (tcOn.busy = false ∧ ∃ t, exec (.refreshOnce .normal .res 0) ((tcOn.feed prompt).withGap 1) = .next t ∧ t.busy = true) ∧
    ∃ t, ticks 3 (running.feed prompt) = .next t ∧ (!t.busy) = true :=
  ⟨⟨by decide, next_of_gives (by decide +kernel)⟩, next_of_gives (by decide +kernel)⟩

theorem witness_FlagsDoNotSteerCommands : ∃ t, exec (.selSeg 1) (tc.withGap 2) = .next t ∧ (t.done == true) = true :=
  next_of_gives (by decide +kernel)

/-- Reset asserted while a refresh runs, accesses while it is asserted, and its release. -/
theorem witness_ResetAbandonsTheCommand :
    ((moved (.rstN false) 0 running).inputs.moves = ⟨.rstN false, 0⟩ :: [] ∧ running.busy = true) ∧
    (held.inputs.rstN = false ∧ held.busy = false ∧
      (moved (.write 0x00 0x01) 5 held).inputs.moves = ⟨.write 0x00 0x01, 5⟩ :: [] ∧
      (moved (.read 0x10) 5 held).inputs.moves = ⟨.read 0x10, 5⟩ :: [] ∧
      (programmed (.wr 0x04 0x01) held).inputs.moves = [] ∧
      (programmed (.wr 0x04 0x01) held).inputs.program = ⟨.wr 0x04 0x01, 1⟩ :: [] ∧
      (programmed (.rd 0x10) held).inputs.program = ⟨.rd 0x10, 1⟩ :: []) ∧
    (moved (.rstN true) 5 held).inputs.moves = ⟨.rstN true, 5⟩ :: [] := by decide

theorem witness_NopCompletes :
    (misconfigured.withGap 1).busy = false ∧ 1 ≤ (misconfigured.withGap 1).inputs.gap := by decide

theorem witness_SetTempCompletes :
    (tc.withGap 2).busy = false ∧ cfgOk (tc.withGap 2).params = true ∧ 2 ≤ (tc.withGap 2).inputs.gap := by decide

/-- For both sources. -/
theorem witness_SampleTempCompletes :
    ((tc.withGap 2).busy = false ∧ cfgOk (tc.withGap 2).params = true ∧ 2 ≤ (tc.withGap 2).inputs.gap ∧
      (tc.withGap 2).params.tempSrc = .fixed) ∧
    ((tcSensor.withGap 2).busy = false ∧ cfgOk (tcSensor.withGap 2).params = true ∧
      2 ≤ (tcSensor.withGap 2).inputs.gap ∧ (tcSensor.withGap 2).params.tempSrc = .sensor) := by decide

/-- The last index that exists and the first that does not. -/
theorem witness_SelSegSelectsAndClears :
    ((tc.withGap 2).busy = false ∧ cfgOk (tc.withGap 2).params = true ∧ 2 ≤ (tc.withGap 2).inputs.gap) ∧
    (1 : BitVec 16).toNat < tc.params.rows / tc.params.segHeight ∧
    tc.params.rows / tc.params.segHeight ≤ (2 : BitVec 16).toNat := by decide

/-- The last pixel of segment 1. -/
theorem witness_SetPixelPaintsOneBit :
    let s : State := { tc.withGap 2 with seg := 1 }
    let x : BitVec 12 := 15
    let y : BitVec 12 := 7
    s.busy = false ∧ cfgOk s.params = true ∧ 0 ≤ x.toInt ∧ x.toInt < s.params.columns ∧ 0 ≤ y.toInt ∧
      y.toInt < s.params.rows ∧ (s.seg.toNat * s.params.segHeight : Nat) ≤ y.toInt ∧
      y.toInt < (s.seg.toNat * s.params.segHeight + s.params.segHeight : Nat) ∧ 2 ≤ s.inputs.gap := by decide

/-- Each side of the canvas, and each side of a segment. -/
theorem witness_SetPixelOutsideTheSegmentPaintsNothing :
    let s : State := { tc.withGap 1 with seg := 1 }
    (s.busy = false ∧ cfgOk s.params = true ∧ 1 ≤ s.inputs.gap) ∧
    (-1 : BitVec 12).toInt < 0 ∧ (s.params.columns : Int) ≤ (16 : BitVec 12).toInt ∧
    (s.params.rows : Int) ≤ (8 : BitVec 12).toInt ∧
    ((3 : BitVec 12).toInt < (s.seg.toNat * s.params.segHeight : Nat)) ∧
    ((tc.seg.toNat * tc.params.segHeight + tc.params.segHeight : Nat) ≤ (4 : BitVec 12).toInt ∧
      (4 : BitVec 12).toInt < tc.params.rows) := by decide

theorem witness_PwrOnCompletes : Ready tc ∧ tc.pwr = .off ∧ sleepsFit tc.params.powerOnSeq = true := by decide

theorem witness_PwrOnTimeoutLeavesFault :
    Ready tc ∧ tc.pwr = .off ∧
    tc.params.powerOnSeq = [.pin .panelOn true, .sleep 10, .pin .cs true] ++ .waitBusy :: [] ∧
    sleepsFit [.pin .panelOn true, .sleep 10, .pin .cs true] = true := by decide

theorem witness_PwrOffTearsDown :
    (Ready tcOn ∧ tcOn.pwr ≠ .off ∧ sleepsFit tcOn.params.powerOffSeq = true) ∧
    (Ready { tcOn with pwr := .fault } ∧ { tcOn with pwr := .fault }.pwr ≠ .off) ∧
    (Ready (tc.withGap 2) ∧ (tc.withGap 2).pwr = .off ∧ 2 ≤ (tc.withGap 2).inputs.gap) := by decide

theorem witness_PwrOffNeverFails :
    tcOn.busy = false ∧ cfgOk tcOn.params = true ∧ ∃ t, exec .pwrOff (tcOn.withGap 9) = .next t ∧ (!t.busy) = true :=
  ⟨by decide, by decide, next_of_gives (by decide +kernel)⟩

/-- For each clause: a fatal poll that runs out of time, the last actions of `PowerOn` and of `PowerOff`, the
first tick of each, a write and a reset. -/
theorem witness_PowerMovesOnlyAsListed :
    let poll : State := { running with seq := ⟨[.polling 0 true], .ok, []⟩ }.feed { prompt with busyIn := [true] }
    let lastOn : State := { running with pwr := .off, seq := ⟨[.setPwr .on], .ok, []⟩ }
    let lastOff : State := { running with seq := ⟨[.setPwr .off], .ok, []⟩ }
    let firstOn : State := { running with pwr := .off, seq := ⟨[.powerOn], .ok, []⟩ }
    let firstOff : State := { running with seq := ⟨[.powerOff], .ok, []⟩ }
    (Inv poll ∧ ∃ t, tick poll = .next t ∧ (poll.pwr != t.pwr && t.pwr == .fault) = true) ∧
    (Inv lastOn ∧ ∃ t, tick lastOn = .next t ∧ (lastOn.pwr != t.pwr && t.pwr == .on) = true) ∧
    (Inv lastOff ∧ ∃ t, tick lastOff = .next t ∧ (lastOff.pwr != t.pwr && t.pwr == .off) = true) ∧
    (firstOn.busy = true ∧ ∃ t, tick firstOn = .next t ∧ (t.seq.todo.contains (.setPwr .on)) = true) ∧
    (firstOff.busy = true ∧ firstOff.pwr ≠ .off ∧
      ∃ t, tick firstOff = .next t ∧ (t.seq.todo.contains (.setPwr .off)) = true) ∧
    ((moved (.write 0x00 0x01) 0 tc).inputs.moves = ⟨.write 0x00 0x01, 0⟩ :: [] ∧
      ∃ t, step (moved (.write 0x00 0x01) 0 tc) = .next t ∧ t.busy = true) ∧
    ((moved (.rstN false) 0 running).inputs.moves = ⟨.rstN false, 0⟩ :: [] ∧
      ∃ t, step (moved (.rstN false) 0 running) = .next t ∧ (!t.busy) = true) :=
  ⟨⟨by decide +kernel, next_of_gives (by decide +kernel)⟩, ⟨by decide +kernel, next_of_gives (by decide +kernel)⟩,
    ⟨by decide +kernel, next_of_gives (by decide +kernel)⟩, ⟨by decide, next_of_gives (by decide +kernel)⟩,
    ⟨by decide, by decide, next_of_gives (by decide +kernel)⟩,
    ⟨by decide, next_of_gives (by decide +kernel)⟩, ⟨by decide, next_of_gives (by decide +kernel)⟩⟩

/-- From each kind of source: a fill, `RES`, the reader (in TC) and `OLD` (in TC2). -/
theorem witness_RefreshOnceCompletes :
    (Ready (rows 0x00010007 tcOn) ∧ (rows 0x00010007 tcOn).pwr = .on ∧
      rangeOk paramsTC (rangeFirst (rows 0x00010007 tcOn)) (rangeCount (rows 0x00010007 tcOn)) .fixed = true ∧
      sourceRows (rows 0x00010007 tcOn) ⟨.fixed, 0xFF, 0⟩ (rangeCount (rows 0x00010007 tcOn)) [[0xFF, 0xFF]]) ∧
    (rangeOk paramsTC (rangeFirst (rows 0x00010007 tcOn)) (rangeCount (rows 0x00010007 tcOn)) .res = true ∧
      sourceRows (rows 0x00010007 tcOn) ⟨.res, 0xFF, 0⟩ (rangeCount (rows 0x00010007 tcOn)) [[0, 0]]) ∧
    (rangeOk paramsTC (rangeFirst (rows 0x00010007 tcOn)) (rangeCount (rows 0x00010007 tcOn)) .reader = true ∧
      sourceRows (rows 0x00010007 tcOn) ⟨.reader, 0xFF, 0⟩ (rangeCount (rows 0x00010007 tcOn)) [[0x12, 0x34]]) ∧
    (Ready (rows 0x00010007 tc2On) ∧ (rows 0x00010007 tc2On).pwr = .on ∧
      rangeOk paramsTC2 (rangeFirst (rows 0x00010007 tc2On)) (rangeCount (rows 0x00010007 tc2On)) .old = true ∧
      sourceRows (rows 0x00010007 tc2On) ⟨.old, 0xFF, 0⟩ (rangeCount (rows 0x00010007 tc2On)) [[0, 0]]) := by
  refine ⟨⟨by decide, by decide, by decide, by decide, ?_⟩, ⟨by decide, by decide, ?_⟩, ⟨by decide, by decide, ?_⟩,
    by decide, by decide, by decide, by decide, ?_⟩
  · show ∀ row ∈ [[0xFF#8, 0xFF#8]], row = List.replicate 2 0xFF#8
    decide
  · show ∀ k < 1, _
    decide
  · show ∀ row ∈ [[0x12#8, 0x34#8]], row.length = 2
    decide
  · show ∀ k < 1, _
    decide

/-- 95_test_vectors.md 3.5: pass times 40, 40, 40; and one pass at least. -/
theorem witness_RefreshRepeatRunsUntilDuration :
    let s := rows 0x00010000 tcOn
    let pass : List (List Byte) := [[0, 0]]
    let before : List (List (List Byte) × Word) := [(pass, 40), (pass, 40)]
    Ready s ∧ s.pwr = .on ∧ rangeOk s.params (rangeFirst s) (rangeCount s) .fixed = true ∧
    (∀ q ∈ before ++ [(pass, 40)], sourceRows s ⟨.fixed, 0, s.rdbase⟩ (rangeCount s) q.1) ∧
    totalTime before < s.duration.toNat ∧ s.duration.toNat ≤ totalTime (before ++ [(pass, 40)]) ∧
    s.duration.toNat ≤ totalTime ([] ++ [(pass, 100)]) := by
  refine ⟨by decide, by decide, by decide, ?_, by decide, by decide, by decide⟩
  intro q hq
  simp at hq
  subst hq
  exact ⟨by decide, by
    show ∀ row ∈ [[0x00#8, 0x00#8]], row = List.replicate 2 0x00#8
    decide⟩

theorem witness_DrvClearCompletes :
    let s := rows 0x00010007 tcOn
    Ready s ∧ s.pwr = .on ∧ rangeFirst s + rangeCount s ≤ s.params.rows ∧ s.duration.toNat ≤ (100 : Word).toNat := by
  decide

/-- Without an old image, and with one from the reader. -/
theorem witness_ShowImageCompletes :
    let s := rows 0x00010007 tcOn
    (Ready s ∧ s.pwr = .on ∧ WellFormed (.showImage .res .fixed false 0) = true ∧
      rangeOk s.params (rangeFirst s) (rangeCount s) .res = true ∧
      sequenceRows s ⟨.res, 0, s.rdbase⟩ ⟨.res, 0, s.rdbase⟩ (rangeCount s) ⟨[[0, 0]], [[0, 0]], [[0, 0]], [[0, 0]]⟩ ∧
      s.duration.toNat ≤ (100 : Word).toNat) ∧
    (WellFormed (.showImage .fixed .reader true 0) = true ∧
      rangeOk s.params (rangeFirst s) (rangeCount s) .fixed = true ∧
      rangeOk s.params (rangeFirst s) (rangeCount s) .reader = true ∧
      sequenceRows s ⟨.reader, 0, s.rdold⟩ ⟨.fixed, 0, s.rdbase⟩ (rangeCount s)
        ⟨[[1, 2]], [[3, 4]], [[0, 0]], [[0, 0]]⟩) := by
  refine ⟨⟨by decide, by decide, by decide, by decide, ?_, by decide⟩, by decide, by decide, by decide, ?_⟩
  · refine ⟨⟨by decide, ?_⟩, ⟨by decide, ?_⟩, ⟨by decide, ?_⟩, ⟨by decide, ?_⟩⟩ <;>
      · show ∀ k < 1, _
        decide
  · refine ⟨⟨by decide, ?_⟩, ⟨by decide, ?_⟩, ⟨by decide, ?_⟩, ⟨by decide, ?_⟩⟩
    · show ∀ row ∈ [[1#8, 2#8]], row.length = 2
      decide
    · show ∀ row ∈ [[3#8, 4#8]], row.length = 2
      decide
    · show ∀ row ∈ [[0#8, 0#8]], row = List.replicate 2 0#8
      decide
    · show ∀ row ∈ [[0#8, 0#8]], row = List.replicate 2 0#8
      decide

/-- With and without the power-on. -/
theorem witness_DisplayShowsTheSegment :
    (Ready tc ∧ tc.params.compMode = .alwaysClear ∧ tc.pwr = (if true then .off else .on) ∧
      sleepsFit tc.params.powerOnSeq = true ∧ sleepsFit tc.params.powerOffSeq = true ∧
      tc.duration.toNat ≤ (100 : Word).toNat) ∧
    (Ready tcOn ∧ tcOn.pwr = (if false then .off else .on)) := by decide

/-- With and without the power-on. -/
theorem witness_DisplayCompensatesFromOld :
    (Ready tc2 ∧ tc2.params.compMode = .dualBuffer ∧ tc2.pwr = (if true then .off else .on) ∧
      sleepsFit tc2.params.powerOnSeq = true ∧ sleepsFit tc2.params.powerOffSeq = true ∧
      tc2.duration.toNat ≤ (100 : Word).toNat) ∧
    (Ready tc2On ∧ tc2On.pwr = (if false then .off else .on)) := by decide

/-- In both compensation modes. -/
theorem witness_FbClearErasesThePanel :
    (Ready tcOn ∧ tcOn.pwr = .on ∧ tcOn.duration.toNat ≤ (100 : Word).toNat ∧ tcOn.params.compMode = .alwaysClear) ∧
    (Ready tc2On ∧ tc2On.pwr = .on ∧ tc2On.duration.toNat ≤ (100 : Word).toNat ∧
      tc2On.params.compMode = .dualBuffer) := by decide

/-- One of each form of command, and each check as the first that fails: the configuration; the range, by
(a), (b) and (c) of R153, for the old source of a `SHOW_IMAGE` too; the power state. -/
theorem witness_DriverChecksComeInOrder :
    (∃ st src fill, (Instr.refreshRepeat .white .res 0 = .refreshOnce st src fill ∨
      Instr.refreshRepeat .white .res 0 = .refreshRepeat st src fill) ∧ [Src.res] = [src]) ∧
    (∃ fill, Instr.drvClear 0xFF = .drvClear fill ∧ [Src.fixed] = [.fixed]) ∧
    (∃ newSrc fill, Instr.showImage .res .fixed false 0 = .showImage newSrc .fixed false fill ∧ [Src.res] = [newSrc]) ∧
    (∃ newSrc oldSrc fill, Instr.showImage .fixed .old true 0 = .showImage newSrc oldSrc true fill ∧
      [Src.fixed, Src.old] = [newSrc, oldSrc]) ∧
    ((misconfigured.withGap 1).busy = false ∧ 1 ≤ (misconfigured.withGap 1).inputs.gap ∧
      cfgOk (misconfigured.withGap 1).params = false) ∧
    ((tcOn.withGap 1).busy = false ∧ 1 ≤ (tcOn.withGap 1).inputs.gap ∧ cfgOk tcOn.params = true) ∧
    (tcOn.params.rows < rangeFirst (rows 0x00010008 tcOn) + rangeCount (rows 0x00010008 tcOn)) ∧
    (Src.res ∈ [Src.res] ∧ tcOn.params.segHeight < rangeCount (rows 0x00050000 tcOn)) ∧
    (Src.old ∈ [Src.fixed, Src.old] ∧ tcOn.params.compMode = .alwaysClear) ∧
    (¬(tc.params.rows < rangeFirst (rows 0x00000008 tc) + rangeCount (rows 0x00000008 tc) ∨
      (Src.res ∈ [Src.fixed] ∧ tc.params.segHeight < rangeCount (rows 0x00000008 tc)) ∨
      (Src.old ∈ [Src.fixed] ∧ tc.params.compMode = .alwaysClear)) ∧ tc.pwr ≠ .on) :=
  ⟨⟨_, _, _, .inr rfl, rfl⟩, ⟨_, rfl, rfl⟩, ⟨_, _, rfl, rfl⟩, ⟨_, _, _, rfl, rfl⟩, by decide, by decide, by decide,
    by decide, by decide, by decide⟩

theorem witness_WrongPowerStateIsRefused :
    ((tcOn.withGap 1).busy = false ∧ cfgOk (tcOn.withGap 1).params = true ∧ 1 ≤ (tcOn.withGap 1).inputs.gap ∧
      (tcOn.withGap 1).pwr ≠ .off) ∧
    ((tc.withGap 1).busy = false ∧ cfgOk (tc.withGap 1).params = true ∧ 1 ≤ (tc.withGap 1).inputs.gap ∧
      (tc.withGap 1).pwr ≠ .on ∧ (tc.withGap 1).pwr ≠ (if false then .off else .on)) := by decide

theorem witness_MisconfiguredBlockRefusesCommands :
    cfgOk (misconfigured.withGap 1).params = false ∧ WellFormed .pwrOff = true ∧ Instr.pwrOff ≠ .nop ∧
      (misconfigured.withGap 1).busy = false ∧ 1 ≤ (misconfigured.withGap 1).inputs.gap := by decide

/-- P5: the second of two rows times out. -/
theorem witness_RowTimeoutEndsTheCommand :
    let s := rows 0x00020000 tcOn
    Ready s ∧ s.pwr = .on ∧ rangeOk s.params (rangeFirst s) (rangeCount s) .res = true ∧
    [[0x00#8, 0x00#8]].length < rangeCount s ∧
    sourceRows s ⟨.res, 0, s.rdbase⟩ ([[0x00#8, 0x00#8]].length + 1) ([[0, 0]] ++ [[0, 0]]) := by
  refine ⟨by decide, by decide, by decide, by decide, by decide, ?_⟩
  show ∀ k < 2, _
  decide

/-- A timeout of a `DISPLAY` with `DO_PWR_OFF`, one of a refresh, and another error. -/
theorem witness_ErrorsLeaveTheListedState :
    (∃ t, exec (.display false false true) ((tc2On.feed { prompt with busyIn := [true] }).withGap 60) = .next t ∧
      (!t.busy && t.errcode == .deviceTimeout) = true) ∧
    (∃ t, exec (.refreshOnce .normal .fixed 0)
        (((rows 0x00010000 tcOn).feed { prompt with busyIn := [true] }).withGap 60) = .next t ∧
      (!t.busy && t.errcode == .deviceTimeout) = true) ∧
    (∃ t, exec (.selSeg 2) (tc.withGap 2) = .next t ∧
      (!t.busy && t.errcode != .ok && t.errcode != .deviceTimeout) = true) :=
  ⟨next_of_gives (by decide +kernel), next_of_gives (by decide +kernel), next_of_gives (by decide +kernel)⟩

/-- A running block and an idle one. -/
theorem witness_CommandsKeepHostRegisters :
    (∃ t, exec .fbClear (running.withGap 0) = .next t ∧ t.overrun = true) ∧
    (∃ t, exec (.setPixel true 3 1) (tc.withGap 3) = .next t ∧ (t.res != tc.res) = true) :=
  ⟨next_of_gives (by decide +kernel), next_of_gives (by decide +kernel)⟩

theorem witness_OnlySelSegWritesTheSegment :
    tc.busy = false ∧ (∀ index, Instr.setPixel true 3 1 ≠ .selSeg index) ∧
    ∃ t, exec (.setPixel true 3 1) (tc.withGap 3) = .next t ∧ (!t.busy) = true :=
  ⟨by decide, by simp, next_of_gives (by decide +kernel)⟩

theorem witness_OnlyTemperatureCommandsWriteIt :
    tc.busy = false ∧ (∀ temp, Instr.selSeg 1 ≠ .setTemp temp) ∧ Instr.selSeg 1 ≠ .sampleTemp ∧
    ∃ t, exec (.selSeg 1) (tc.withGap 3) = .next t ∧ (t.seg != tc.seg) = true :=
  ⟨by decide, by simp, by decide, next_of_gives (by decide +kernel)⟩

/-- `DISPLAY` for the first clause, `SET_PIXEL` for the second. -/
theorem witness_OnlyListedCommandsWriteTheBuffers :
    (tc2.busy = false ∧ (∀ black x y, Instr.display false true false ≠ .setPixel black x y) ∧
      (∀ index, Instr.display false true false ≠ .selSeg index) ∧ Instr.display false true false ≠ .fbClear ∧
      ∃ t, exec (.display false true false) ((tc2.feed prompt).withGap 9) = .next t ∧ t.busy = true) ∧
    ((∀ cf on off, Instr.setPixel true 3 1 ≠ .display cf on off) ∧ Instr.setPixel true 3 1 ≠ .fbClear ∧
      ∃ t, exec (.setPixel true 3 1) (tc2.withGap 3) = .next t ∧ (t.res != tc2.res) = true) :=
  ⟨⟨by decide, by simp, by simp, by decide, next_of_gives (by decide +kernel)⟩,
    by simp, by decide, next_of_gives (by decide +kernel)⟩

theorem witness_QuietCommandsDriveNoPort :
    Instr.setPixel true 3 1 ∈ [Instr.nop, .setTemp 0, .selSeg 0, .setPixel true 3 1] ∧ tc.busy = false ∧
    ∃ t, exec (.setPixel true 3 1) (tc.withGap 3) = .next t ∧ (!t.busy) = true :=
  ⟨by decide, by decide, next_of_gives (by decide +kernel)⟩

/-- A running state, and the idle one after reset. -/
theorem witness_SafeStatesAlwaysStep : Inv (running.feed prompt) ∧ Inv tc ∧ Inv held :=
  ⟨by decide +kernel, by decide +kernel, by decide +kernel⟩

theorem witness_StepKeepsTheInvariant :
    Inv (running.feed prompt) ∧ ∃ t, step (running.feed prompt) = .next t ∧ t.busy = true :=
  ⟨by decide +kernel, next_of_gives (by decide +kernel)⟩

theorem witness_BytesLeaveOnlyUnderChipSelect :
    Inv (sending.feed prompt) ∧
    ∃ t, tick (sending.feed prompt) = .next t ∧ (t.trace == (sending.feed prompt).trace ++ [.tx 0x72]) = true :=
  ⟨by decide +kernel, next_of_gives (by decide +kernel)⟩

theorem witness_TraceStaysBracketed :
    bracket running.trace false = some running.busy ∧ bracket tc.trace false = some tc.busy ∧
    ∃ t, step (running.feed prompt) = .next t ∧ t.busy = true :=
  ⟨by decide, by decide, next_of_gives (by decide +kernel)⟩

theorem witness_BusyPollIsBounded :
    let s : State := { running with seq := ⟨[.polling 0 true], .ok, []⟩ }
    s.busy = true ∧ s.seq.todo = .polling 0 true :: [] ∧
    (s.ms + 49 - 0).toNat < s.params.busyTimeoutMs.toNat ∧ ¬((s.ms + 50 - 0).toNat < s.params.busyTimeoutMs.toNat) := by
  decide

theorem witness_StalledPortsHoldTheirData :
    (sending.busy = true ∧ sending.seq.todo = .send (0x72 :: [0x03]) :: [.setPin .cs true]) ∧
    ({ running with seq := ⟨[.request .normal 2 0x1000], .ok, []⟩ }.seq.todo = .request .normal 2 0x1000 :: []) := by
  decide

/-- The last index of each part. -/
theorem witness_PayloadBytesAreAsIndexed :
    [0x01#8, 0x80#8].length = paramsTC.bpr ∧ 1 < paramsTC.bpr ∧ 1 < paramsTC.bps ∧ 1 = 7 / 4 := by decide

/-- The two corners of segment 1, and two pixels of one byte. -/
theorem witness_PlacesAreInsideAndDistinct :
    cfgOk paramsTC = true ∧ translate paramsTC 1 0 4 = .at 0 0x01 ∧ translate paramsTC 1 15 7 = .at 7 0x80 ∧
    translate paramsTC 1 14 7 = .at 7 0x40 := by decide

/-- 95_test_vectors.md E10: the last byte of the last segment. -/
theorem witness_SegmentsTileTheCanvas :
    cfgOk paramsTC = true ∧ 1 < segCount paramsTC ∧ 7 < resSize paramsTC ∧
    drawAll paramsTC 1 [(0, 0, true), (15, 3, true), (8, 4, true), (7, 7, true)] = [(1, 0x01), (6, 0x80)] ∧
    drawAll (unsegmented paramsTC) 0 [(0, 0, true), (15, 3, true), (8, 4, true), (7, 7, true)]
      = [(0, 0x01), (7, 0x80), (9, 0x01), (14, 0x80)] := by decide

/-- At the first threshold, just above it, and above the last. -/
theorem witness_FactorIsAStepTable :
    cfgOk paramsTC = true ∧
    paramsTC.tempTable.entries = [] ++ (-10, 170) :: [(-5, 120), (5, 80), (10, 40), (15, 30), (20, 20), (40, 10)] ∧
    (-10 : BitVec 8).toInt ≤ -10 ∧
    paramsTC.tempTable.entries = [(-10, 170)] ++ (-5, 120) :: [(5, 80), (10, 40), (15, 30), (20, 20), (40, 10)] ∧
    (∀ q ∈ ([(-10, 170)] : List (Int × Nat)), q.1 < (-9 : BitVec 8).toInt) ∧ (-9 : BitVec 8).toInt ≤ -5 ∧
    (∀ q ∈ paramsTC.tempTable.entries, q.1 < (41 : BitVec 8).toInt) := by decide

/-- An "on" cell inside the canvas, and the last coordinate that can be encoded and the first that cannot. -/
theorem witness_TransparentGlyphPaintsOnCellsOnly :
    HostCall.command (.setPixel true 3 3) ∈ drawChar paramsTC 0 0 0 diagonal true true 2 ∧
    ((-2048 : Int) ≤ -2048 ∧ (-2048 : Int) ≤ 2047 ∧ (-2048 : Int) ≤ 2047 ∧ (2047 : Int) ≤ 2047) ∧
    ¬((-2048 : Int) ≤ 2048 ∧ (2048 : Int) ≤ 2047 ∧ (-2048 : Int) ≤ 0 ∧ (0 : Int) ≤ 2047) ∧
    ((-2 : Int) + (diagonal.gw * 1 : Nat) ≤ 0 ∧ (tc.params.columns : Int) ≤ 16 ∧
      (0 : Int) < -1 + (diagonal.gw * 1 : Nat) ∧ (15 : Int) < tc.params.columns) ∧
    ((programmed (.drawChar 0 0 diagonal true false 2) tc).inputs.rstN = true ∧
      (programmed (.drawChar 0 0 diagonal true false 2) tc).inputs.moves = [] ∧
      (programmed (.drawChar 0 0 diagonal true false 2) tc).inputs.program
        = ⟨.drawChar 0 0 diagonal true false 2, 1⟩ :: []) ∧
    ((programmed .countPixel tc).inputs.moves = [] ∧
      (programmed .countPixel tc).inputs.program = ⟨.countPixel, 1⟩ :: []) := by decide

/-- A `DISPLAY` with `DO_PWR_OFF`, and a command that runs several stages. -/
theorem witness_NothingIsSentAfterATimeout :
    (∃ t, exec (.display false false true) ((tc2On.feed { prompt with busyIn := [false, true] }).withGap 90) = .next t ∧
      (!t.busy && t.errcode == .deviceTimeout) = true) ∧
    (∃ t, exec .fbClear ((tcOn.feed { prompt with busyIn := [false, false, true] }).withGap 90) = .next t ∧
      (!t.busy && t.errcode == .deviceTimeout) = true) ∧
    tc2On.busy = false ∧ tcOn.busy = false :=
  ⟨next_of_gives (by decide +kernel), next_of_gives (by decide +kernel), by decide, by decide⟩

end Sys2Proof.Tests
end

section
/-! The sequencer, layer 1: what a micro-operation writes beside its position, the trace and `pwr`
(`runMicro_effect`), and that it looks at nothing but its work fields and the parameters
(`runMicro_workOf`). -/

namespace Sys2Proof.Machine

open Sys2Proof

/-! ### The data and the ports -/

/-- The fields that a command writes as its result (R51 to R56) or shows on the pins and ports (R33, R251,
R253). -/
structure Outer where
  seg : BitVec 16
  tempC : BitVec 8
  factor : BitVec 16
  duration : Word
  res : List Host.Cell
  old : List Host.Cell
  pins : Pins
  tx : Option Byte
  rd : Option (Word × BitVec 16)

def State.outer (s : State) : Outer where
  seg := s.seg
  tempC := s.tempC
  factor := s.factor
  duration := s.duration
  res := s.res
  old := s.old
  pins := s.pins
  tx := s.tx
  rd := s.rd

/-- `Outer` after `temp_c`, `factor` and `duration` were written together (R145). -/
def Outer.loadTemp (p : Params) (x : BitVec 8) (o : Outer) : Outer :=
  { o with
    tempC := x
    factor := BitVec.ofNat 16 (tempFactor p x)
    duration := BitVec.ofNat 32 (stageDuration p (tempFactor p x)) }

/-- What a micro-operation writes of `Outer`; a port that still waits has its micro-operation at the head. -/
def Effect (m : Micro) (s t : State) : Prop :=
  match m with
  | .loadTemp x => t.outer = s.outer.loadTemp s.params x
  | .sampleTemp => ∃ x, t.outer = s.outer.loadTemp s.params x
  | .selectSegment i => t.outer = { s.outer with seg := i, res := [] }
  | .paint byteIx mask black =>
    byteIx < resSize s.params ∧
      t.outer = { s.outer with res := memWrite s.res byteIx (paintByte mask black (memRead s.res byteIx)) }
  | .clearRes => t.outer = { s.outer with res := [] }
  | .clearOld => t.outer = { s.outer with old := [] }
  | .copyOld => t.outer = { s.outer with old := s.res }
  | .setPin p v => t.outer = { s.outer with pins := setLevel p v s.pins }
  | .perform (.pin p v) _ => t.outer = { s.outer with pins := setLevel p v s.pins }
  | .send (b :: bs) =>
    t.outer = { s.outer with tx := none } ∨
      (t.outer = { s.outer with tx := some b } ∧ t.seq.todo = .send (b :: bs) :: s.seq.todo)
  | .request st r addr =>
    t.outer = { s.outer with rd := none } ∨
      (t.outer = { s.outer with rd := some (addr, BitVec.ofNat 16 s.params.bpr) } ∧
        t.seq.todo = .request st r addr :: s.seq.todo)
  | _ => t.outer = s.outer

theorem sampleBusy_outer (s : State) : (sampleBusy s).2.outer = s.outer := by
  rw [sampleBusy_state]; rfl

theorem sampleRdData_outer (s : State) : (sampleRdData s).2.outer = s.outer := by
  rw [sampleRdData_state]; rfl

theorem readNow_outer (s : State) : (readNow s).2.outer = s.outer := by
  rw [readNow_state]; rfl

theorem doPerform_effect (a : PowerAction) (fatal : Bool) (s : State) :
    Effect (.perform a fatal) s (doPerform a fatal s) := by
  cases a with
  | pin p v => rfl
  | sleep n => exact readNow_outer _
  | xfer bs => rfl
  | waitBusy => rfl

theorem doSend_effect (bytes : List Byte) (s : State) : Effect (.send bytes) s (doSend bytes s) := by
  cases bytes with
  | nil => rfl
  | cons b rest =>
    simp only [doSend]
    split <;> rw [sampleTxReady_state]
    · exact .inl rfl
    · exact .inr ⟨rfl, rfl⟩

theorem doRequest_effect (st : Stage) (r : Nat) (addr : Word) (s : State) :
    Effect (.request st r addr) s (doRequest st r addr s) := by
  simp only [doRequest]
  split <;> rw [sampleRdReqReady_state]
  · exact .inl rfl
  · exact .inr ⟨rfl, rfl⟩

theorem busyTimeout_outer (fatal : Bool) (s : State) : (busyTimeout fatal s).outer = s.outer := by
  cases fatal <;> rfl

theorem doPolling_outer (t0 : Word) (fatal : Bool) (s : State) : (doPolling t0 fatal s).outer = s.outer := by
  have hq : (readNow (sampleBusy s).2).2.outer = s.outer := (readNow_outer _).trans (sampleBusy_outer s)
  simp only [doPolling]
  split
  · split
    · exact (busyTimeout_outer fatal _).trans hq
    · exact hq
  · exact sampleBusy_outer s

theorem doRow_outer {st : Stage} {sd : SrcDesc} {r k : Nat} {s t : State} (h : doRow st sd r k s = .next t) :
    t.outer = s.outer := by
  unfold doRow at h
  split at h
  · cases h; rfl
  · obtain ⟨-, h⟩ := readRes_next h; cases h; rfl
  · obtain ⟨-, h⟩ := readOld_next h; cases h; rfl
  · cases h; rfl

theorem doCollect_outer (st : Stage) (r : Nat) (got : List Byte) (left : Nat) (s : State) :
    (doCollect st r got left s).outer = s.outer := by
  cases left with
  | zero => rfl
  | succ n => simp only [doCollect]; split <;> exact sampleRdData_outer s

/-- Everything a micro-operation can do to the data, the pins and the ports. -/
theorem runMicro_effect {m : Micro} {s t : State} (h : runMicro m s = .next t) : Effect m s t := by
  cases m with
  | paint byteIx mask black => obtain ⟨hix, rfl⟩ := paintRes_next h; exact ⟨hix, rfl⟩
  | row st sd r k => exact doRow_outer h
  | sampleTemp =>
    cases h
    unfold doSampleTemp
    split
    · dsimp only; rw [sampleTempIn_state]; exact ⟨_, rfl⟩
    · exact ⟨_, rfl⟩
  | powerOff => cases h; unfold doPowerOff; split <;> rfl
  | perform a fatal => cases h; exact doPerform_effect a fatal s
  | sleeping t0 n => cases h; simp only [doSleeping]; split <;> exact readNow_outer s
  | send bytes => cases h; exact doSend_effect bytes s
  | pollStart fatal => cases h; exact readNow_outer s
  | polling t0 fatal => cases h; exact doPolling_outer t0 fatal s
  | passStart st sd first count dur n => cases h; exact readNow_outer s
  | passEnd st sd first count dur n t0 => cases h; simp only [doPassEnd]; split <;> exact readNow_outer s
  | rows st sd r k left => cases h; cases left <;> rfl
  | request st r addr => cases h; exact doRequest_effect st r addr s
  | collect st r got left => cases h; exact doCollect_outer st r got left s
  | loadTemp x => cases h; rfl
  | selectSegment i => cases h; rfl
  | clearRes => cases h; rfl
  | clearOld => cases h; rfl
  | copyOld => cases h; rfl
  | setPin p v => cases h; rfl
  | powerOn => cases h; rfl
  | setPwr v => cases h; rfl
  | setPasses => cases h; rfl
  | stage st sd first count => cases h; rfl
  | pass st sd first count => cases h; rfl

/-! ### A micro-operation looks at its work fields and the parameters only (R62, R277) -/

/-- The result with another state in place of the next one. -/
def mapNext (f : State → State) (o : Result) : Result := andThen o fun s => .next (f s)

theorem sampleBusy_of_workOf (u s : State) :
    sampleBusy (u.workOf s) = ((sampleBusy s).1, u.workOf (sampleBusy s).2) := by
  cases h : s.inputs.busyIn <;> simp [sampleBusy, State.workOf, h]

theorem sampleTxReady_of_workOf (u s : State) :
    sampleTxReady (u.workOf s) = ((sampleTxReady s).1, u.workOf (sampleTxReady s).2) := by
  cases h : s.inputs.txReady <;> simp [sampleTxReady, State.workOf, h]

theorem sampleRdReqReady_of_workOf (u s : State) :
    sampleRdReqReady (u.workOf s) = ((sampleRdReqReady s).1, u.workOf (sampleRdReqReady s).2) := by
  cases h : s.inputs.rdReqReady <;> simp [sampleRdReqReady, State.workOf, h]

theorem sampleRdData_of_workOf (u s : State) :
    sampleRdData (u.workOf s) = ((sampleRdData s).1, u.workOf (sampleRdData s).2) := by
  cases h : s.inputs.rdData <;> simp [sampleRdData, State.workOf, h]

theorem sampleTempIn_of_workOf (u s : State) :
    sampleTempIn (u.workOf s) = ((sampleTempIn s).1, u.workOf (sampleTempIn s).2) := by
  cases h : s.inputs.tempIn <;> simp [sampleTempIn, State.workOf, h]

theorem readNow_of_workOf (u s : State) :
    readNow (u.workOf s) = ((readNow s).1, u.workOf (readNow s).2) := by
  cases h : s.inputs.elapsed <;> simp [readNow, sampleElapsed, State.workOf, h]

theorem loadTemp_of_workOf {u s : State} (hp : u.params = s.params) (x : BitVec 8) :
    (u.workOf s).loadTemp x = u.workOf (s.loadTemp x) := by
  simp [State.loadTemp, State.workOf, hp]

theorem busyTimeout_of_workOf (u s : State) (fatal : Bool) :
    busyTimeout fatal (u.workOf s) = u.workOf (busyTimeout fatal s) := by
  cases fatal <;> rfl

theorem push_of_workOf (u s : State) (ms : List Micro) : (u.workOf s).push ms = u.workOf (s.push ms) := rfl

theorem doPerform_of_workOf (u s : State) (a : PowerAction) (fatal : Bool) :
    doPerform a fatal (u.workOf s) = u.workOf (doPerform a fatal s) := by
  cases a with
  | sleep n =>
    exact congrArg (fun q => State.push [.sleeping q.1 n] q.2) (readNow_of_workOf u (s.emit (.sleep n)))
  | pin p v => rfl
  | xfer bs => rfl
  | waitBusy => rfl

theorem doSend_of_workOf (u s : State) (bytes : List Byte) :
    doSend bytes (u.workOf s) = u.workOf (doSend bytes s) := by
  cases bytes with
  | nil => rfl
  | cons b rest => simp only [doSend, sampleTxReady_of_workOf]; split <;> rfl

theorem doSleeping_of_workOf (u s : State) (t0 : Word) (n : Nat) :
    doSleeping t0 n (u.workOf s) = u.workOf (doSleeping t0 n s) := by
  simp only [doSleeping, readNow_of_workOf]; split <;> rfl

theorem doPassEnd_of_workOf (u s : State) (st : Stage) (sd : SrcDesc) (first count : Nat) (dur : Word)
    (n : Nat) (t0 : Word) :
    doPassEnd st sd first count dur n t0 (u.workOf s) = u.workOf (doPassEnd st sd first count dur n t0 s) := by
  have hacc : (u.workOf s).acc = s.acc := rfl
  simp only [doPassEnd, readNow_of_workOf, hacc]; split <;> rfl

section
variable {u s : State} (hp : u.params = s.params)
include hp

theorem workOf_params : (u.workOf s).params = s.params := hp

theorem doSampleTemp_of_workOf : doSampleTemp (u.workOf s) = u.workOf (doSampleTemp s) := by
  have hq : u.params = (sampleTempIn s).2.params := by rw [hp, sampleTempIn_state]
  simp only [doSampleTemp, workOf_params hp, sampleTempIn_of_workOf]
  split
  · exact loadTemp_of_workOf (s := (sampleTempIn s).2.emit _) hq _
  · exact loadTemp_of_workOf hp _

theorem doPolling_of_workOf (t0 : Word) (fatal : Bool) :
    doPolling t0 fatal (u.workOf s) = u.workOf (doPolling t0 fatal s) := by
  simp only [doPolling, sampleBusy_of_workOf, readNow_of_workOf, workOf_params hp]
  split
  · split
    · exact busyTimeout_of_workOf u _ fatal
    · rfl
  · rfl

theorem sendRow_of_workOf (st : Stage) (r : Nat) (src : List Byte) :
    sendRow st r src (u.workOf s) = u.workOf (sendRow st r src s) := by
  simp only [sendRow, workOf_params hp, push_of_workOf]

theorem doRequest_of_workOf (st : Stage) (r : Nat) (addr : Word) :
    doRequest st r addr (u.workOf s) = u.workOf (doRequest st r addr s) := by
  simp only [doRequest, sampleRdReqReady_of_workOf, workOf_params hp]; split <;> rfl

theorem doCollect_of_workOf (st : Stage) (r : Nat) (got : List Byte) (left : Nat) :
    doCollect st r got left (u.workOf s) = u.workOf (doCollect st r got left s) := by
  cases left with
  | zero => exact sendRow_of_workOf (s := s.emit (.rdData got)) hp st r got
  | succ n => simp only [doCollect, sampleRdData_of_workOf]; split <;> rfl

theorem doRow_of_workOf (st : Stage) (sd : SrcDesc) (r k : Nat) :
    doRow st sd r k (u.workOf s) = mapNext u.workOf (doRow st sd r k s) := by
  have hres : (u.workOf s).res = s.res := rfl
  have hold : (u.workOf s).old = s.old := rfl
  simp only [doRow, readRes, readOld, workOf_params hp, sendRow_of_workOf hp, push_of_workOf, hres, hold]
  split
  · rfl
  · split <;> rfl
  · split <;> rfl
  · rfl

theorem paintRes_of_workOf (byteIx : Nat) (mask : Byte) (black : Bool) :
    paintRes byteIx mask black (u.workOf s) = mapNext u.workOf (paintRes byteIx mask black s) := by
  have hsize : resSize (u.workOf s).params = resSize s.params := congrArg resSize hp
  unfold paintRes
  rw [hsize]
  split <;> rfl

theorem doPowerOn_of_workOf : doPowerOn (u.workOf s) = u.workOf (doPowerOn s) := by
  simp only [doPowerOn, workOf_params hp, push_of_workOf]

theorem doPowerOff_of_workOf : doPowerOff (u.workOf s) = u.workOf (doPowerOff s) := by
  have hpwr : (u.workOf s).pwr = s.pwr := rfl
  simp only [doPowerOff, workOf_params hp, push_of_workOf, hpwr]; split <;> rfl

/-- The course of a micro-operation depends on its work fields and the parameters alone. -/
theorem runMicro_of_workOf (m : Micro) : runMicro m (u.workOf s) = mapNext u.workOf (runMicro m s) := by
  cases m with
  | row st sd r k => exact doRow_of_workOf hp st sd r k
  | paint byteIx mask black => exact paintRes_of_workOf hp byteIx mask black
  | sampleTemp => exact congrArg Host.Outcome.next (doSampleTemp_of_workOf hp)
  | polling t0 fatal => exact congrArg Host.Outcome.next (doPolling_of_workOf hp t0 fatal)
  | loadTemp x => exact congrArg Host.Outcome.next (loadTemp_of_workOf hp x)
  | powerOn => exact congrArg Host.Outcome.next (doPowerOn_of_workOf hp)
  | powerOff => exact congrArg Host.Outcome.next (doPowerOff_of_workOf hp)
  | perform a fatal => exact congrArg Host.Outcome.next (doPerform_of_workOf u s a fatal)
  | sleeping t0 n => exact congrArg Host.Outcome.next (doSleeping_of_workOf u s t0 n)
  | send bytes => exact congrArg Host.Outcome.next (doSend_of_workOf u s bytes)
  | pollStart fatal => simp only [runMicro, doPollStart, readNow_of_workOf]; rfl
  | passStart st sd first count dur n => simp only [runMicro, doPassStart, readNow_of_workOf]; rfl
  | passEnd st sd first count dur n t0 =>
    exact congrArg Host.Outcome.next (doPassEnd_of_workOf u s st sd first count dur n t0)
  | request st r addr => exact congrArg Host.Outcome.next (doRequest_of_workOf hp st r addr)
  | collect st r got left => exact congrArg Host.Outcome.next (doCollect_of_workOf hp st r got left)
  | rows st sd r k left => cases left <;> rfl
  | stage st sd first count => rfl
  | pass st sd first count => rfl
  | selectSegment i => rfl
  | setPwr v => rfl
  | setPin p v => rfl
  | setPasses => rfl
  | clearRes => rfl
  | clearOld => rfl
  | copyOld => rfl

end

end Sys2Proof.Machine
end

section
/-! The commands, layer 2: every command is a plan (`planOf`) launched by its word, and what can ever stand in
the position of a command comes from its plan or is of the sequencer's own making (`Inner`). -/

namespace Sys2Proof.Machine

open Sys2Proof

/-! ### A command is its plan -/

/-- The checks and micro-operations of a command (R165 to R173, R205 to R209). -/
def planOf : Instr → State → Plan
  | .nop => planNop
  | .pwrOn => planPwrOn
  | .pwrOff => planPwrOff
  | .setTemp temp => planSetTemp temp
  | .sampleTemp => planSampleTemp
  | .refreshOnce stage src fill => planRefreshOnce stage src fill
  | .refreshRepeat stage src fill => planRefreshRepeat stage src fill
  | .drvClear fill => planDrvClear fill
  | .showImage newSrc oldSrc hasOld fill => planShowImage newSrc oldSrc hasOld fill
  | .selSeg index => planSelSeg index
  | .setPixel black x y => planSetPixel black x y
  | .display clearFirst doPwrOn doPwrOff => planDisplay clearFirst doPwrOn doPwrOff
  | .fbClear => planFbClear

theorem exec_wellFormed {i : Instr} (h : WellFormed i = true) (s : State) :
    exec i s = runCommand (encode i) (planOf i) s := by
  cases i with
  | showImage newSrc oldSrc hasOld fill => exact if_pos h
  | _ => rfl

theorem exec_illFormed {i : Instr} (h : WellFormed i = false) (s : State) :
    exec i s = runIllegal (encode i) s := by
  cases i with
  | showImage newSrc oldSrc hasOld fill => exact if_neg (by simpa [WellFormed] using h)
  | _ => cases h

/-- A word that is launched and completes at once with `ILLEGAL_CMD` (R124, R125). -/
def State.refuse (w : Word) (s : State) : State := ((s.launch w).raiseError .illegalCmd).complete

theorem runIllegal_busy {s : State} (h : s.busy = true) (w : Word) :
    runIllegal w s = ticks s.inputs.gap s.dropCommand := if_pos h

theorem runIllegal_idle {s : State} (h : s.busy = false) (w : Word) : runIllegal w s = .next (s.refuse w) := by
  rw [runIllegal, if_neg (by simp [h])]
  exact ticks_idle (s := s.refuse w) rfl _

/-- The state that the ticks after a `CMD` write of `i` start from. -/
def startOf (i : Instr) (s : State) : State :=
  if s.busy then s.dropCommand
  else if WellFormed i then (s.launch (encode i)).follow (planOf i (s.launch (encode i)))
  else s.refuse (encode i)

theorem startOf_busy {s : State} (h : s.busy = true) (i : Instr) : startOf i s = s.dropCommand := if_pos h

theorem startOf_launched {i : Instr} {s : State} (hb : s.busy = false) (hw : WellFormed i = true) :
    startOf i s = (s.launch (encode i)).follow (planOf i (s.launch (encode i))) := by
  simp [startOf, hb, hw]

theorem startOf_refused {i : Instr} {s : State} (hb : s.busy = false) (hw : WellFormed i = false) :
    startOf i s = s.refuse (encode i) := by
  simp [startOf, hb, hw]

/-- A `CMD` write of `i` starts it, and then the ticks run. -/
theorem exec_eq (i : Instr) (s : State) : exec i s = ticks s.inputs.gap (startOf i s) := by
  cases hw : WellFormed i with
  | true =>
    rw [exec_wellFormed hw, runCommand, startOf, hw]
    split <;> rfl
  | false =>
    rw [exec_illFormed hw, runIllegal, startOf, hw]
    split <;> rfl

/-- What a start keeps, whichever of its three ways it goes. -/
theorem startOf_keeps {P : State → Prop} {i : Instr} {s : State}
    (hdrop : s.busy = true → P s.dropCommand)
    (hlaunch : s.busy = false → WellFormed i = true →
      P ((s.launch (encode i)).follow (planOf i (s.launch (encode i)))))
    (hrefuse : s.busy = false → P (s.refuse (encode i))) : P (startOf i s) := by
  cases hb : s.busy with
  | true => rw [startOf_busy hb]; exact hdrop hb
  | false =>
    cases hw : WellFormed i with
    | true => rw [startOf_launched hb hw]; exact hlaunch hb hw
    | false => rw [startOf_refused hb hw]; exact hrefuse hb

/-- A followed plan fails, and nothing is left to run, or takes the position. -/
theorem follow_keeps {P : State → Prop} {plan : Plan} {s : State}
    (hfail : ∀ c, plan = .fail c → P (s.raiseError c))
    (hrun : ∀ todo onTimeout, plan = .run todo onTimeout → P { s with seq := ⟨todo, .ok, onTimeout⟩ }) :
    P (s.follow plan) := by
  cases plan with
  | fail c => exact hfail c rfl
  | run todo onTimeout => exact hrun todo onTimeout rfl

/-- A plan looks at the parameters, the latched copies, `pwr` and `seg` only. -/
theorem planOf_congr (i : Instr) {s t : State} (hp : s.params = t.params) (hl : s.lat = t.lat)
    (hpwr : s.pwr = t.pwr) (hseg : s.seg = t.seg) : planOf i s = planOf i t := by
  have hcfg : configCheck s = configCheck t := by rw [configCheck, configCheck, hp]
  have hfirst : s.firstRow = t.firstRow := by rw [State.firstRow, State.firstRow, hl]
  have hcount : s.rowCount = t.rowCount := by rw [State.rowCount, State.rowCount, hl]
  have hrange : ∀ src, rangeCheck src s = rangeCheck src t := fun src => by
    rw [rangeCheck, rangeCheck, hp, hfirst, hcount]
  have hneed : ∀ v, pwrCheck v s = pwrCheck v t := fun v => by rw [pwrCheck, pwrCheck, hpwr]
  have hnew : ∀ src fill, s.newSource src fill = t.newSource src fill := fun src fill => by
    rw [State.newSource, State.newSource, hl]
  have hold : ∀ src fill, s.oldSource src fill = t.oldSource src fill := fun src fill => by
    rw [State.oldSource, State.oldSource, hl]
  cases i with
  | nop => rfl
  | pwrOn => simp only [planOf, planPwrOn, hcfg, hneed]
  | pwrOff => simp only [planOf, planPwrOff, hcfg]
  | setTemp temp => simp only [planOf, planSetTemp, hcfg]
  | sampleTemp => simp only [planOf, planSampleTemp, hcfg]
  | refreshOnce stage src fill => simp only [planOf, planRefreshOnce, hcfg, hrange, hneed, hnew, hfirst, hcount]
  | refreshRepeat stage src fill =>
    simp only [planOf, planRefreshRepeat, hcfg, hrange, hneed, hnew, hfirst, hcount]
  | drvClear fill => simp only [planOf, planDrvClear, hcfg, hrange, hneed, hfirst, hcount]
  | showImage newSrc oldSrc hasOld fill =>
    simp only [planOf, planShowImage, showImageOld, hcfg, hrange, hneed, hnew, hold, hfirst, hcount]
  | selSeg index => simp only [planOf, planSelSeg, hcfg, hp]
  | setPixel black x y => simp only [planOf, planSetPixel, pixelOf, hcfg, hp, hseg]
  | display clearFirst doPwrOn doPwrOff =>
    simp only [planOf, planDisplay, displayStages, hcfg, hneed, hp, hseg]
  | fbClear => simp only [planOf, planFbClear, hcfg, hneed, hp]

/-! ### What can stand in a position -/

/-- The micro-operations that others put in front of the position. -/
def Inner : Micro → Bool
  | .perform _ _ => true
  | .setPwr _ => true
  | .sleeping _ _ => true
  | .setPin _ _ => true
  | .send _ => true
  | .pollStart _ => true
  | .polling _ _ => true
  | .passStart _ _ _ _ _ _ => true
  | .passEnd _ _ _ _ _ _ _ => true
  | .pass _ _ _ _ => true
  | .rows _ _ _ _ _ => true
  | .row _ _ _ _ => true
  | .request _ _ _ => true
  | .collect _ _ _ _ => true
  | _ => false

/-- What `m` may put in front of the position: inner micro-operations, and the last action of a power sequence
only if `m` begins that sequence. -/
def Brings (m : Micro) : Micro → Prop
  | .setPwr v => (v = .on ∧ m = .powerOn) ∨ (v = .off ∧ m = .powerOff)
  | x => Inner x = true

theorem Brings.inner {m x : Micro} (h : Brings m x) : Inner x = true := by
  cases x with
  | setPwr v => rfl
  | _ => exact h

theorem Course.brings {p : Params} {pwr : Pwr} {m : Micro} {new : List Micro} {evs : List Event}
    (h : Course p pwr m new evs) : ∀ x ∈ new, Brings m x := by
  cases m with
  | powerOn => obtain ⟨rfl, -⟩ := h; simp [Brings, Inner, or_imp, forall_and]
  | powerOff => obtain ⟨rfl, -⟩ := h; split <;> simp [Brings, Inner, or_imp, forall_and]
  | perform a fatal =>
    cases a with
    | sleep n => obtain ⟨⟨t0, rfl⟩, -⟩ := h; simp [Brings, Inner]
    | _ => obtain ⟨rfl, -⟩ := h; simp [Brings, Inner]
  | sleeping t0 n => obtain ⟨rfl | rfl, -⟩ := h <;> simp [Brings, Inner]
  | send bytes =>
    cases bytes with
    | nil => obtain ⟨rfl, -⟩ := h; simp
    | cons b bs => obtain ⟨rfl, -⟩ | ⟨rfl, -⟩ := h <;> simp [Brings, Inner]
  | pollStart fatal => obtain ⟨⟨t0, rfl⟩, -⟩ := h; simp [Brings, Inner]
  | polling t0 fatal => obtain ⟨rfl, -⟩ | ⟨rfl, -⟩ | ⟨-, rfl, -⟩ := h <;> simp [Brings, Inner]
  | stage st sd first count => obtain ⟨⟨d, rfl⟩, -⟩ := h; simp [Brings, Inner]
  | passStart st sd first count d n => obtain ⟨⟨t0, rfl⟩, -⟩ := h; simp [Brings, Inner]
  | passEnd st sd first count d n t0 => obtain ⟨rfl | rfl, -⟩ := h <;> simp [Brings, Inner]
  | rows st sd r k left => cases left <;> (obtain ⟨rfl, -⟩ := h; simp [Brings, Inner])
  | row st sd r k => obtain ⟨⟨src, rfl⟩ | rfl, -⟩ := h <;> simp [Brings, Inner]
  | request st r addr => obtain ⟨rfl, -⟩ | ⟨rfl, -⟩ := h <;> simp [Brings, Inner]
  | collect st r got left =>
    cases left with
    | zero => obtain ⟨rfl, -⟩ := h; simp [Brings, Inner]
    | succ n => obtain ⟨⟨b, rfl⟩ | rfl, -⟩ := h <;> simp [Brings, Inner]
  | _ => obtain ⟨rfl, -⟩ := h; simp [Brings, Inner]

/-- Every micro-operation left to run, now or after a timeout, meets `Q`. -/
def Confined (Q : Micro → Prop) (s : State) : Prop := ∀ m, m ∈ s.seq.todo ∨ m ∈ s.seq.onTimeout → Q m

theorem runMicro_confined {Q : Micro → Prop} (hQ : ∀ m, Inner m = true → Q m) {m : Micro} {s t : State}
    (h : runMicro m s = .next t) (hs : Confined Q s) : Confined Q t := by
  rintro x hx
  obtain ⟨new, evs, hc, hseq, -, -⟩ | ⟨t0, -, hseq, -, -⟩ := runMicro_course h
  · rw [hseq, List.mem_append, or_assoc] at hx
    exact hx.elim (fun hn => hQ x (hc.brings x hn).inner) (hs x)
  · rw [hseq] at hx
    exact hs x (.inr (by simpa using hx))

/-- A command's position stays within its plan and the inner micro-operations. -/
theorem tick_confined {Q : Micro → Prop} (hQ : ∀ m, Inner m = true → Q m) {s t : State}
    (h : tick s = .next t) (hs : Confined Q s) : Confined Q t := by
  obtain ⟨-, rfl⟩ | ⟨-, -, rfl⟩ | ⟨m, rest, -, ht, h⟩ := tick_cases h
  · exact hs
  · simp [Confined, Seq.idle]
  · refine runMicro_confined hQ h fun x hx => hs x ?_
    exact hx.imp_left fun hr => ht ▸ List.mem_cons_of_mem m hr

/-- The commands whose plan may hold a micro-operation that is not inner. -/
def Places (i : Instr) : Micro → Prop
  | .loadTemp t => i = .setTemp t
  | .sampleTemp => i = .sampleTemp
  | .selectSegment index => i = .selSeg index
  | .paint _ _ _ => ∃ black x y, i = .setPixel black x y
  | .clearRes => i = .fbClear
  | .clearOld => i = .fbClear
  | .copyOld => ∃ clearFirst doPwrOn doPwrOff, i = .display clearFirst doPwrOn doPwrOff
  | .setPwr _ => False
  | _ => True

theorem stageSequence_places (i : Instr) {sdOld sdNew : SrcDesc} {first count : Nat} {m : Micro}
    (h : m ∈ stageSequence sdOld sdNew first count) : Places i m := by
  simp only [stageSequence, List.mem_cons, List.not_mem_nil, or_false] at h
  rcases h with rfl | rfl | rfl | rfl <;> trivial

theorem displayStages_places {clearFirst doPwrOn doPwrOff : Bool} {s : State} {m : Micro}
    (h : m ∈ displayStages clearFirst s) : Places (.display clearFirst doPwrOn doPwrOff) m := by
  unfold displayStages at h
  split at h
  · dsimp only at h
    split at h
    · exact (List.mem_append.mp h).elim (stageSequence_places _) (stageSequence_places _)
    · exact stageSequence_places _ h
  · refine (List.mem_append.mp h).elim (stageSequence_places _) fun hc => ?_
    rw [List.mem_singleton.mp hc]
    exact ⟨_, _, _, rfl⟩

/-- A guarded plan that runs passed its checks. -/
theorem guarded_eq_run {checks : List (Bool × Code)} {ms ms' todo onTimeout : List Micro}
    (h : guarded checks ms ms' = .run todo onTimeout) :
    firstError checks = none ∧ todo = ms ∧ onTimeout = ms' := by
  obtain ⟨c, -, hg⟩ | ⟨hn, hg⟩ := guarded_cases checks ms ms' <;> rw [hg] at h <;> cases h
  exact ⟨hn, rfl, rfl⟩

theorem paintPlan_places {black : Bool} {x y : BitVec 12} {place : Place} {m : Micro}
    (h : m ∈ paintPlan black place) : Places (.setPixel black x y) m := by
  unfold paintPlan at h
  split at h
  · rw [List.mem_singleton.mp h]
    exact ⟨_, _, _, rfl⟩
  · cases h
  · cases h

theorem places_single {i : Instr} {x m : Micro} (hm : m ∈ [x] ∨ m ∈ []) (h : Places i x) : Places i m := by
  obtain rfl : m = x := by simpa using hm
  exact h

/-- A plan that runs holds only what its command may place. -/
theorem planOf_places {i : Instr} {s : State} {todo onTimeout : List Micro}
    (h : planOf i s = .run todo onTimeout) (m : Micro) (hm : m ∈ todo ∨ m ∈ onTimeout) : Places i m := by
  cases i with
  | nop => cases h; simp at hm
  | pwrOn => obtain ⟨-, rfl, rfl⟩ := guarded_eq_run h; exact places_single hm trivial
  | pwrOff => obtain ⟨-, rfl, rfl⟩ := guarded_eq_run h; exact places_single hm trivial
  | setTemp temp => obtain ⟨-, rfl, rfl⟩ := guarded_eq_run h; exact places_single hm rfl
  | sampleTemp => obtain ⟨-, rfl, rfl⟩ := guarded_eq_run h; exact places_single hm rfl
  | selSeg index => obtain ⟨-, rfl, rfl⟩ := guarded_eq_run h; exact places_single hm rfl
  | refreshOnce stage src fill =>
    obtain ⟨-, rfl, rfl⟩ := guarded_eq_run h
    simp only [List.mem_cons, List.not_mem_nil, or_false] at hm
    rcases hm with rfl | rfl <;> trivial
  | refreshRepeat stage src fill => obtain ⟨-, rfl, rfl⟩ := guarded_eq_run h; exact places_single hm trivial
  | drvClear fill =>
    obtain ⟨-, rfl, rfl⟩ := guarded_eq_run h
    exact hm.elim (stageSequence_places _) (by simp)
  | showImage newSrc oldSrc hasOld fill =>
    obtain ⟨-, rfl, rfl⟩ := guarded_eq_run h
    exact hm.elim (stageSequence_places _) (by simp)
  | setPixel black x y =>
    obtain ⟨-, rfl, rfl⟩ := guarded_eq_run h
    exact hm.elim paintPlan_places (by simp)
  | display clearFirst doPwrOn doPwrOff =>
    obtain ⟨-, rfl, rfl⟩ := guarded_eq_run h
    simp only [List.mem_append, List.mem_ite_nil_right, List.mem_singleton] at hm
    rcases hm with ((⟨-, rfl⟩ | hm) | ⟨-, rfl⟩) | ⟨-, rfl⟩
    · trivial
    · exact displayStages_places hm
    · trivial
    · trivial
  | fbClear =>
    obtain ⟨-, rfl, rfl⟩ := guarded_eq_run h
    have hclear : ∀ l : List Micro, (l = [] ∨ l = [.clearOld]) → m ∈ l → Places .fbClear m := by
      rintro l (rfl | rfl) hl
      · cases hl
      · rw [List.mem_singleton.mp hl]; rfl
    simp only [List.mem_append, List.mem_singleton, List.not_mem_nil, or_false] at hm
    rcases hm with (hm | rfl) | hm
    · exact stageSequence_places _ hm
    · rfl
    · exact hclear _ (by split <;> simp) hm

/-- The position of a command that an idle block starts holds what its plan may place. -/
theorem startOf_confined (i : Instr) {s : State} (hb : s.busy = false) : Confined (Places i) (startOf i s) := by
  refine startOf_keeps (fun h => by simp [hb] at h) (fun _ _ => ?_) fun _ =>
    by simp [Confined, State.refuse, Seq.idle]
  exact follow_keeps (fun c _ => by simp [Confined, Seq.idle]) fun _ _ => planOf_places

/-- A part of the data and ports that nothing in a position writes stays through its ticks. -/
theorem ticks_keep_outer {α : Type} (f : Outer → α) {Q : Micro → Prop} (hQ : ∀ m, Inner m = true → Q m)
    (hf : ∀ m s t, Q m → Effect m s t → f t.outer = f s.outer) {n : Nat} {s t : State}
    (hs : Confined Q s) (h : ticks n s = .next t) : f t.outer = f s.outer := by
  have keep : ∀ {u v : State}, Confined Q u ∧ f u.outer = f s.outer → tick u = .next v →
      Confined Q v ∧ f v.outer = f s.outer := by
    rintro u v ⟨hu, hfu⟩ huv
    refine ⟨tick_confined hQ huv hu, ?_⟩
    obtain ⟨-, rfl⟩ | ⟨-, -, rfl⟩ | ⟨m, rest, -, ht, huv⟩ := tick_cases huv
    · exact hfu
    · exact hfu
    · exact (hf m _ _ (hu m (.inl (by simp [ht]))) (runMicro_effect huv)).trans hfu
  exact (ticks_keep keep ⟨hs, rfl⟩ h).2

/-- Launch, checks and drop leave the data, the pins and the ports alone. -/
theorem startOf_outer (i : Instr) (s : State) : (startOf i s).outer = s.outer :=
  startOf_keeps (P := fun u => u.outer = s.outer) (fun _ => rfl)
    (fun _ _ => follow_keeps (P := fun u => u.outer = s.outer) (fun _ _ => rfl) fun _ _ _ => rfl) fun _ => rfl

/-- A part of the data and ports that neither an inner micro-operation nor one of `i`'s plan writes stays
through the command `i`. -/
theorem exec_keeps_outer {α : Type} (f : Outer → α) {i : Instr} {s t : State} (hb : s.busy = false)
    (hf : ∀ m s t, Inner m = true ∨ Places i m → Effect m s t → f t.outer = f s.outer)
    (h : exec i s = .next t) : f t.outer = f s.outer := by
  rw [exec_eq] at h
  have hc : Confined (fun m => Inner m = true ∨ Places i m) (startOf i s) :=
    fun m hm => .inr (startOf_confined i hb m hm)
  exact (ticks_keep_outer f (fun m hm => .inl hm) hf hc h).trans (congrArg f (startOf_outer i s))

end Sys2Proof.Machine
end

section
/-! Frames of the commands: what every command leaves alone (O43), that `seg` and the temperature are written
by their own commands only (O44, O45), and that no flag steers a command (O15). -/

namespace Sys2Proof.Machine

open Sys2Proof

/-! ### What the host keeps -/

/-- The parameters, the registers that only the host writes, and what the host does next. -/
structure HostSide where
  params : Params
  range : Word
  rdbase : Word
  rdold : Word
  rdata : Word
  moves : List Move
  gap : Nat
  program : List HostLine
  outOfBounds : Nat

def State.hostSide (s : State) : HostSide where
  params := s.params
  range := s.range
  rdbase := s.rdbase
  rdold := s.rdold
  rdata := s.rdata
  moves := s.inputs.moves
  gap := s.inputs.gap
  program := s.inputs.program
  outOfBounds := s.inputs.outOfBounds

theorem tick_hostSide {s t : State} (h : tick s = .next t) : t.hostSide = s.hostSide := by
  obtain ⟨-, rfl⟩ | ⟨-, -, rfl⟩ | ⟨m, rest, -, -, h⟩ := tick_cases h
  · rfl
  · rfl
  · exact (congrArg State.hostSide (runMicro_keeps h)).trans rfl

theorem ticks_hostSide {n : Nat} {s t : State} (h : ticks n s = .next t) : t.hostSide = s.hostSide :=
  ticks_keep (P := fun u => u.hostSide = s.hostSide) (fun hs ht => (tick_hostSide ht).trans hs) rfl h

theorem startOf_hostSide (i : Instr) (s : State) : (startOf i s).hostSide = s.hostSide :=
  startOf_keeps (P := fun u => u.hostSide = s.hostSide) (fun _ => rfl)
    (fun _ _ => follow_keeps (P := fun u => u.hostSide = s.hostSide) (fun _ _ => rfl) fun _ _ _ => rfl)
    fun _ => rfl

theorem exec_hostSide {i : Instr} {s t : State} (h : exec i s = .next t) : t.hostSide = s.hostSide := by
  rw [exec_eq] at h
  exact (ticks_hostSide h).trans (startOf_hostSide i s)

/-- Settles O43: launch, drop and every tick keep the host's side of the state. -/
theorem commandsKeepHostRegisters : Obligations.CommandsKeepHostRegisters := by
  intro i s t h
  have hs := exec_hostSide h
  simpa only [State.hostSide, HostSide.mk.injEq] using hs

/-! ### The segment and the temperature -/

/-- Only `selectSegment` writes `seg`. -/
theorem Effect.seg {m : Micro} {s t : State} (h : Effect m s t) (hm : ∀ i, m ≠ .selectSegment i) :
    t.outer.seg = s.outer.seg := by
  cases m with
  | selectSegment i => exact absurd rfl (hm i)
  | sampleTemp => obtain ⟨x, h⟩ := h; exact (congrArg Outer.seg h).trans rfl
  | paint byteIx mask black => exact (congrArg Outer.seg h.2).trans rfl
  | perform a fatal => cases a <;> exact (congrArg Outer.seg h).trans rfl
  | send bytes =>
    cases bytes with
    | nil => exact (congrArg Outer.seg h).trans rfl
    | cons b bs => rcases h with h | ⟨h, -⟩ <;> exact (congrArg Outer.seg h).trans rfl
  | request st r addr => rcases h with h | ⟨h, -⟩ <;> exact (congrArg Outer.seg h).trans rfl
  | _ => exact (congrArg Outer.seg h).trans rfl

def Outer.temperature (o : Outer) : BitVec 8 × BitVec 16 × Word := (o.tempC, o.factor, o.duration)

/-- Only `loadTemp` and `sampleTemp` write the temperature. -/
theorem Effect.temperature {m : Micro} {s t : State} (h : Effect m s t) (hload : ∀ x, m ≠ .loadTemp x)
    (hsample : m ≠ .sampleTemp) : t.outer.temperature = s.outer.temperature := by
  cases m with
  | loadTemp x => exact absurd rfl (hload x)
  | sampleTemp => exact absurd rfl hsample
  | paint byteIx mask black => exact (congrArg Outer.temperature h.2).trans rfl
  | perform a fatal => cases a <;> exact (congrArg Outer.temperature h).trans rfl
  | send bytes =>
    cases bytes with
    | nil => exact (congrArg Outer.temperature h).trans rfl
    | cons b bs => rcases h with h | ⟨h, -⟩ <;> exact (congrArg Outer.temperature h).trans rfl
  | request st r addr => rcases h with h | ⟨h, -⟩ <;> exact (congrArg Outer.temperature h).trans rfl
  | _ => exact (congrArg Outer.temperature h).trans rfl

/-- Settles O44: `selectSegment` alone writes `seg`, and only the plan of `SEL_SEG` holds one. -/
theorem onlySelSegWritesTheSegment : Obligations.OnlySelSegWritesTheSegment := by
  intro i s t hb h hi
  refine exec_keeps_outer Outer.seg hb (fun m u v hm he => he.seg ?_) h
  rintro index rfl
  exact hm.elim (by simp [Inner]) (hi index)

/-- Settles O45: `loadTemp` and `sampleTemp` alone write the temperature, and only the plans of `SET_TEMP`
and `SAMPLE_TEMP` hold one. -/
theorem onlyTemperatureCommandsWriteIt : Obligations.OnlyTemperatureCommandsWriteIt := by
  intro i s t hb h hset hsample
  have key : t.outer.temperature = s.outer.temperature := by
    refine exec_keeps_outer Outer.temperature hb (fun m u v hm he => he.temperature ?_ ?_) h
    · rintro x rfl
      exact hm.elim (by simp [Inner]) (hset x)
    · rintro rfl
      exact hm.elim (by simp [Inner]) hsample
  exact ⟨congrArg Prod.fst key, congrArg (·.2.1) key, congrArg (·.2.2) key⟩

/-! ### The flags do not steer -/

/-- What every tick of two blocks keeps between them, a run of ticks does. -/
theorem ticks_simulate {R : State → State → Prop}
    (hR : ∀ {s s' t}, R s s' → tick s = .next t → ∃ t', tick s' = .next t' ∧ R t t') :
    ∀ {n : Nat} {s s' t : State}, R s s' → ticks n s = .next t → ∃ t', ticks n s' = .next t' ∧ R t t' := by
  intro n
  induction n with
  | zero => intro s s' t hs h; cases h; exact ⟨s', rfl, hs⟩
  | succ n ih =>
    intro s s' t hs h
    obtain ⟨u, hu, h⟩ := andThen_eq_next.mp (ticks_succ n s ▸ h)
    obtain ⟨u', hu', hR'⟩ := hR hs hu
    obtain ⟨t', ht', hR''⟩ := ih hR' h
    exact ⟨t', andThen_eq_next.mpr ⟨u', hu', ht'⟩, hR''⟩

/-- Two states that differ in the flags of R62 at most. -/
def SameButFlags (s s' : State) : Prop := ∃ d e o c, s' = s.withFlags d e o c

theorem tick_sameButFlags {s s' t : State} (hs : SameButFlags s s') (h : tick s = .next t) :
    ∃ t', tick s' = .next t' ∧ SameButFlags t t' := by
  obtain ⟨d, e, o, c, rfl⟩ := hs
  obtain ⟨hb, rfl⟩ | ⟨hb, ht, rfl⟩ | ⟨m, rest, hb, ht, h⟩ := tick_cases h
  · exact ⟨_, tick_idle hb, d, e, o, c, rfl⟩
  · exact ⟨_, tick_done hb ht, _, _, _, _, rfl⟩
  · refine ⟨t.withFlags d e o c, ?_, d, e, o, c, rfl⟩
    have hkeep : t.withFlags d e o c = ((s.setTodo rest).withFlags d e o c).workOf t := by
      conv_lhs => rw [runMicro_keeps h]
      rfl
    have hmove := runMicro_of_workOf (u := (s.setTodo rest).withFlags d e o c) (s := s.setTodo rest) rfl m
    rw [tick_head (s := s.withFlags d e o c) hb ht, hkeep]
    exact hmove.trans (by rw [h]; rfl)

theorem startOf_sameButFlags (i : Instr) {s s' : State} (hs : SameButFlags s s') :
    SameButFlags (startOf i s) (startOf i s') := by
  obtain ⟨d, e, o, c, rfl⟩ := hs
  cases hb : s.busy with
  | true =>
    rw [startOf_busy hb, startOf_busy (s := s.withFlags d e o c) hb]
    exact ⟨d, e, true, c, rfl⟩
  | false =>
    cases hw : WellFormed i with
    | true =>
      rw [startOf_launched hb hw, startOf_launched (s := s.withFlags d e o c) hb hw,
        planOf_congr i (s := (s.withFlags d e o c).launch _) (t := s.launch (encode i)) rfl rfl rfl rfl]
      exact ⟨false, e, o, c, by cases planOf i (s.launch (encode i)) <;> rfl⟩
    | false =>
      rw [startOf_refused hb hw, startOf_refused (s := s.withFlags d e o c) hb hw]
      exact ⟨true, e || true, o, .illegalCmd, rfl⟩

/-- Settles O15: the checks and every micro-operation look at no flag, so that the two runs differ in the
flags at most, tick by tick. -/
theorem flagsDoNotSteerCommands : Obligations.FlagsDoNotSteerCommands := by
  intro i s t d e o c h
  rw [exec_eq] at h
  obtain ⟨t', ht', d', e', o', c', rfl⟩ :=
    ticks_simulate tick_sameButFlags (startOf_sameButFlags i ⟨d, e, o, c, rfl⟩) h
  exact ⟨d', e', o', c', (exec_eq i (s.withFlags d e o c)).trans ht'⟩

end Sys2Proof.Machine
end

section
/-! Whole steps: what can reach the block before the ticks of a step (`Arrives`), so that a property is kept
by every step once each arrival and each tick keeps it (`step_keeps`). First use: the brackets of the trace
(O51). -/

namespace Sys2Proof.Machine

open Sys2Proof

/-! ### What a step can do -/

/-- The host moves on: `reg_rdata` and the inputs change, but neither `rst_n` nor, in reset, `reg_rdata`. -/
inductive HostMoves (s : State) : State → Prop where
  | intro (rdata : Word) (q : Inputs) (hrst : q.rstN = s.inputs.rstN)
      (hread : s.inputs.rstN = false → rdata = s.rdata) :
    HostMoves s { s with rdata := rdata, inputs := q }

/-- What a host write leaves before the ticks that follow it. -/
inductive Written (s : State) : State → Prop where
  | nothing : Written s s
  | register (h : s.inputs.rstN = true) (addr : BitVec 8) (v : Word) : Written s (s.writeReg addr v)
  | command (h : s.inputs.rstN = true) (i : Instr) : Written s (startOf i s)
  | refused (h : s.inputs.rstN = true) (hb : s.busy = false) (w : Word) : Written s (s.refuse w)
  | dropped (h : s.inputs.rstN = true) (hb : s.busy = true) : Written s s.dropCommand

/-- What reaches the block at the register port or at `rst_n` before the ticks of a step. -/
inductive Arrives (s : State) : State → Prop where
  | written {t : State} (h : Written s t) : Arrives s t
  | reset (level : Bool) : Arrives s (s.driveRst level)

theorem HostMoves.refl (s : State) : HostMoves s s := .intro s.rdata s.inputs rfl fun _ => rfl

theorem HostMoves.trans {s t u : State} (h : HostMoves s t) (k : HostMoves t u) : HostMoves s u := by
  obtain ⟨rdata, q, hrst, hread⟩ := h
  obtain ⟨rdata', q', hrst', hread'⟩ := k
  exact .intro rdata' q' (hrst'.trans hrst) fun h => (hread' (hrst.trans h)).trans (hread h)

theorem hostRead_moves (addr : BitVec 8) (s : State) : HostMoves s (s.hostRead addr) := by
  rw [hostRead_eq]
  exact .intro _ _ rfl fun h => by rw [hostRead_in_reset h]

/-- Everything a host write can do. -/
theorem hostWrite_cases {addr : BitVec 8} {v : Word} {s t : State} (h : hostWrite addr v s = .next t) :
    ∃ u, Written s u ∧ ticks s.inputs.gap u = .next t := by
  cases hr : s.inputs.rstN with
  | false => exact ⟨s, .nothing, (hostWrite_in_reset hr addr v).symm.trans h⟩
  | true =>
    rw [hostWrite_accepted hr] at h
    split at h
    · unfold writeCmd at h
      split at h
      · exact ⟨_, .command hr _, (exec_eq _ _).symm.trans h⟩
      · obtain ⟨hb, h⟩ | ⟨hb, rfl⟩ := runIllegal_cases h
        · exact ⟨_, .dropped hr hb, h⟩
        · exact ⟨_, .refused hr hb v, ticks_idle rfl _⟩
    · exact ⟨_, .register hr addr v, h⟩

/-- Everything a placed access can do. -/
theorem access_cases {a : Access} {s t : State} (h : access a s = .next t) :
    ∃ s' u, HostMoves s s' ∧ Arrives s' u ∧ ticks s.inputs.gap u = .next t := by
  cases a with
  | write addr v =>
    obtain ⟨u, hu, h⟩ := hostWrite_cases h
    exact ⟨s, u, .refl s, .written hu, h⟩
  | read addr => exact ⟨_, _, hostRead_moves addr s, .written .nothing, h⟩
  | rstN level => exact ⟨s, _, .refl s, .reset level, h⟩

/-- Everything an operation of the host's program can do. -/
theorem hostOp_arrives {op : HostOp} {s t : State} (h : hostOp op s = .next t) :
    ∃ s' u n, HostMoves s s' ∧ Arrives s' u ∧ ticks n u = .next t := by
  obtain ⟨addr, v, -, h⟩ | ⟨n, rdata, program, outOfBounds, h, hread⟩ := hostOp_cases h
  · obtain ⟨u, hu, h⟩ := hostWrite_cases h
    exact ⟨s, u, _, .refl s, .written hu, h⟩
  · exact ⟨_, _, n,
      .intro rdata { s.inputs with program := program, outOfBounds := outOfBounds } rfl hread,
      .written .nothing, h⟩

/-- Everything a step can do: the host moves on, something reaches the block, and ticks pass. -/
theorem step_cases {s t : State} (h : step s = .next t) :
    ∃ s' u n, HostMoves s s' ∧ Arrives s' u ∧ ticks n u = .next t := by
  cases hm : s.inputs.moves with
  | cons m rest =>
    rw [step_of_move hm] at h
    obtain ⟨s', u, hs, hu, h⟩ := access_cases h
    have hmove : HostMoves s { s with inputs := { s.inputs with moves := rest, gap := m.gap } } :=
      .intro s.rdata _ rfl fun _ => rfl
    exact ⟨s', u, _, hmove.trans hs, hu, h⟩
  | nil =>
    cases hp : s.inputs.program with
    | nil =>
      rw [step_of_quiet hm hp] at h
      exact ⟨s, s, 1, .refl s, .written .nothing, by rw [ticks_succ, h]; rfl⟩
    | cons l rest =>
      rw [step_of_line hm hp] at h
      have hline : HostMoves s { s with inputs := { s.inputs with program := rest, gap := l.gap } } :=
        .intro s.rdata _ rfl fun _ => rfl
      obtain ⟨s', u, n, hs, hu, h⟩ := hostOp_arrives h
      exact ⟨s', u, n, hline.trans hs, hu, h⟩

/-- What the host's moves, every arrival and every tick keep is kept by a step. -/
theorem step_keeps {P : State → Prop} (hhost : ∀ {s t}, P s → HostMoves s t → P t)
    (harrive : ∀ {s t}, P s → Arrives s t → P t) (htick : ∀ {s t}, P s → tick s = .next t → P t)
    {s t : State} (hs : P s) (h : step s = .next t) : P t := by
  obtain ⟨s', u, n, hs', hu, h⟩ := step_cases h
  exact ticks_keep htick (harrive (hhost hs hs') hu) h

/-- A write to a register other than `CMD` changes host registers and flags at most. -/
theorem writeReg_eq (addr : BitVec 8) (v : Word) (s : State) :
    ∃ range rdbase rdold done err overrun, (done = true → s.done = true) ∧
      s.writeReg addr v =
        { s with
          range := range, rdbase := rdbase, rdold := rdold, done := done, err := err, overrun := overrun } := by
  unfold State.writeReg
  split
  · exact ⟨v, s.rdbase, s.rdold, s.done, s.err, s.overrun, id, rfl⟩
  · exact ⟨s.range, v, s.rdold, s.done, s.err, s.overrun, id, rfl⟩
  · exact ⟨s.range, s.rdbase, v, s.done, s.err, s.overrun, id, rfl⟩
  · exact ⟨s.range, s.rdbase, s.rdold, s.done && !bit v 1, _, _, fun h => (Bool.and_eq_true_iff.mp h).1, rfl⟩
  · exact ⟨s.range, s.rdbase, s.rdold, s.done, s.err, s.overrun, id, rfl⟩

/-! ### The brackets of the trace -/

theorem bracket_append (l evs : List Event) (isOpen : Bool) :
    bracket (l ++ evs) isOpen = (bracket l isOpen).bind (bracket evs) := by
  induction l generalizing isOpen with
  | nil => rfl
  | cons e l ih => cases e <;> cases isOpen <;> simp [bracket, ih]

/-- An event that stands between `Cmd` and `Done`. -/
def Between : Event → Prop
  | .cmd _ => False
  | .done _ => False
  | _ => True

theorem bracket_between {evs : List Event} (h : ∀ e ∈ evs, Between e) : bracket evs true = some true := by
  induction evs with
  | nil => rfl
  | cons e evs ih =>
    have ih := ih fun x hx => h x (List.mem_cons_of_mem e hx)
    cases e with
    | cmd w => exact absurd (h (.cmd w) (by simp)) id
    | done c => exact absurd (h (.done c) (by simp)) id
    | _ => exact ih

theorem Course.between {p : Params} {pwr : Pwr} {m : Micro} {new : List Micro} {evs : List Event}
    (h : Course p pwr m new evs) : ∀ e ∈ evs, Between e := by
  cases m with
  | perform a fatal => cases a <;> (obtain ⟨-, rfl⟩ := h; simp [Between])
  | send bytes =>
    cases bytes with
    | nil => obtain ⟨-, rfl⟩ := h; simp
    | cons b bs => obtain ⟨-, rfl⟩ | ⟨-, rfl⟩ := h <;> simp [Between]
  | polling t0 fatal => obtain ⟨-, rfl⟩ | ⟨-, rfl⟩ | ⟨-, -, rfl⟩ := h <;> simp [Between]
  | rows st sd r k left => cases left <;> (obtain ⟨-, rfl⟩ := h; simp)
  | request st r addr => obtain ⟨-, rfl⟩ | ⟨-, rfl⟩ := h <;> simp [Between]
  | collect st r got left => cases left <;> (obtain ⟨-, rfl⟩ := h; simp [Between])
  | sampleTemp => obtain ⟨-, rfl | ⟨t, rfl⟩⟩ := h <;> simp [Between]
  | _ => obtain ⟨-, rfl⟩ := h; simp [Between]

/-- A micro-operation emits only events that stand between `Cmd` and `Done`. -/
theorem runMicro_emits {m : Micro} {s t : State} (h : runMicro m s = .next t) :
    ∃ evs, t.trace = s.trace ++ evs ∧ ∀ e ∈ evs, Between e := by
  obtain ⟨new, evs, hc, -, htr, -⟩ | ⟨t0, -, -, htr, -⟩ := runMicro_course h
  · exact ⟨evs, htr, hc.between⟩
  · exact ⟨_, htr, by simp [Between]⟩

/-- A command is open at the end of the trace exactly while `busy` is 1 (R59). -/
def Bracketed (s : State) : Prop := bracket s.trace false = some s.busy

theorem complete_bracketed {s : State} (hs : Bracketed s) (hb : s.busy = true) : Bracketed s.complete := by
  rw [Bracketed, State.complete_trace, bracket_append, show bracket s.trace false = _ from hs, hb]
  rfl

theorem launch_bracketed {s : State} (hs : Bracketed s) (hb : s.busy = false) (w : Word) :
    Bracketed (s.launch w) := by
  rw [Bracketed, State.launch_trace, bracket_append, show bracket s.trace false = _ from hs, hb]
  rfl

theorem refuse_bracketed {s : State} (hs : Bracketed s) (hb : s.busy = false) (w : Word) :
    Bracketed (s.refuse w) :=
  complete_bracketed (s := (s.launch w).raiseError .illegalCmd) (launch_bracketed hs hb w) rfl

theorem tick_bracketed {s t : State} (hs : Bracketed s) (h : tick s = .next t) : Bracketed t := by
  obtain ⟨-, rfl⟩ | ⟨hb, -, rfl⟩ | ⟨m, rest, hb, -, h⟩ := tick_cases h
  · exact hs
  · exact complete_bracketed hs hb
  · obtain ⟨evs, htr, hev⟩ := runMicro_emits h
    have hbusy : t.busy = true := ((congrArg State.busy (runMicro_keeps h)).trans rfl).trans hb
    rw [Bracketed, htr, hbusy, State.setTodo_trace, bracket_append, show bracket s.trace false = _ from hs, hb]
    exact bracket_between hev

theorem startOf_bracketed {s : State} (hs : Bracketed s) (i : Instr) : Bracketed (startOf i s) :=
  startOf_keeps (fun _ => hs)
    (fun hb _ => follow_keeps (fun _ _ => launch_bracketed hs hb _) fun _ _ _ => launch_bracketed hs hb _)
    fun hb => refuse_bracketed hs hb _

theorem written_bracketed {s t : State} (hs : Bracketed s) (h : Written s t) : Bracketed t := by
  cases h with
  | nothing => exact hs
  | register hr addr v =>
    obtain ⟨_, _, _, _, _, _, -, he⟩ := writeReg_eq addr v s
    rw [he]
    exact hs
  | command hr i => exact startOf_bracketed hs i
  | refused hr hb w => exact refuse_bracketed hs hb w
  | dropped hr hb => exact hs

theorem arrives_bracketed {s t : State} (hs : Bracketed s) (h : Arrives s t) : Bracketed t := by
  cases h with
  | written h => exact written_bracketed hs h
  | reset level => cases level with
    | true => exact hs
    | false => rfl

/-- Settles O51: a launch opens a command, a completion closes it, every other tick emits only events that
stand between the two, and a reset empties the trace. -/
theorem traceStaysBracketed : Obligations.TraceStaysBracketed := by
  intro s t hs h
  exact step_keeps (P := Bracketed) (fun hs hm => by cases hm; exact hs) arrives_bracketed tick_bracketed hs h

end Sys2Proof.Machine
end

section
/-! The invariant, kept by every step (O48): `Inv` taken apart by what its parts speak of, each kept by a
micro-operation; then completion, launch, reset and the host. -/

namespace Sys2Proof.Machine

open Sys2Proof

/-! ### The parts of `Inv` -/

/-- The buffers, the segment and the temperature (R51 to R56). -/
structure DataOk (p : Params) (o : Outer) : Prop where
  res : Memory.wf (resSize p) o.res = true
  old : Memory.wf (oldSize p) o.old = true
  seg : cfgOk p = true → o.seg.toNat < segCount p
  factor : o.factor = (if cfgOk p then BitVec.ofNat 16 (tempFactor p o.tempC) else 0)
  duration :
    o.duration = (if cfgOk p then BitVec.ofNat 32 (stageDuration p (tempFactor p o.tempC)) else 0)

/-- `busy`, `DONE` and what a misconfigured block never does (R57, R58, R273). -/
structure LifeOk (s : State) : Prop where
  idle : s.busy = false → s.seq = Seq.idle
  running : s.busy = true → s.done = false
  misconfigured : cfgOk s.params = false → s.seq.todo = [] ∧ s.seq.onTimeout = [] ∧ s.pwr = .off

/-- A list of micro-operations that may run with power state `pwr` and chip-select low or not. -/
structure ListOk (p : Params) (pwr : Pwr) (low : Bool) (ms : List Micro) : Prop where
  inRange : ms.all (microOk p) = true
  flow : powerFlow pwr ms = true
  framed : sendsFramed low ms = true

/-- While reset is asserted the state is the reset state (R270). -/
def ResetOk (s : State) : Prop := s.inputs.rstN = false → s = s.applyReset

theorem inv_iff (s : State) :
    Inv s ↔ DataOk s.params s.outer ∧ LifeOk s ∧ ListOk s.params s.pwr (!s.pins.cs) s.seq.todo ∧
      ListOk s.params .fault false s.seq.onTimeout ∧ portsMatch s = true ∧ ResetOk s := by
  constructor
  · rintro ⟨hres, hold, hseg, hfac, hdur, hidle, hrun, hmis, hok, hok', hfl, hfl', hfr, hfr', hport, hrst⟩
    exact ⟨⟨hres, hold, hseg, hfac, hdur⟩, ⟨hidle, hrun, hmis⟩, ⟨hok, hfl, hfr⟩, ⟨hok', hfl', hfr'⟩, hport, hrst⟩
  · rintro ⟨⟨hres, hold, hseg, hfac, hdur⟩, ⟨hidle, hrun, hmis⟩, ⟨hok, hfl, hfr⟩, ⟨hok', hfl', hfr'⟩, hport, hrst⟩
    exact ⟨hres, hold, hseg, hfac, hdur, hidle, hrun, hmis, hok, hok', hfl, hfl', hfr, hfr', hport, hrst⟩

/-! ### What a valid configuration gives -/

theorem configValid {p : Params} (h : cfgOk p = true) : ConfigValid p := of_decide_eq_true h

theorem segHeight_pos {p : Params} (h : cfgOk p = true) : 0 < p.segHeight := by
  obtain ⟨-, -, -, ⟨hpos, -⟩, -⟩ := configValid h
  exact hpos

/-- The segments fill the canvas (R39 (d), R44). -/
theorem segCount_mul_segHeight {p : Params} (h : cfgOk p = true) : segCount p * p.segHeight = p.rows := by
  obtain ⟨-, -, -, ⟨-, hmod⟩, -⟩ := configValid h
  have hpos := segHeight_pos h
  rw [segCount, if_neg (by omega)]
  exact Nat.div_mul_cancel (Nat.dvd_of_mod_eq_zero hmod)

/-- The rows of an existing segment are rows of the canvas. -/
theorem segment_inside {p : Params} {seg : Nat} (h : cfgOk p = true) (hseg : seg < segCount p) :
    seg * p.segHeight + p.segHeight ≤ p.rows := by
  have := Nat.mul_le_mul_right p.segHeight (Nat.succ_le_of_lt hseg)
  rw [segCount_mul_segHeight h] at this
  rwa [← Nat.succ_mul]

theorem segHeight_of_dualBuffer {p : Params} (h : cfgOk p = true) (hd : p.compMode = .dualBuffer) :
    p.segHeight = p.rows := by
  obtain ⟨-, -, -, -, -, hdual, -⟩ := configValid h
  exact hdual hd

theorem columns_eq {p : Params} (h : cfgOk p = true) : p.columns = 8 * p.bpr := by
  obtain ⟨⟨-, -, hmod⟩, hbpr, -⟩ := configValid h
  omega

theorem tempFactor_25 {p : Params} (h : cfgOk p = true) : tempFactor p 25 = 10 := by
  obtain ⟨-, -, -, -, -, -, htemp, -⟩ := configValid h
  simp only [tempTableOk, Bool.and_eq_true, beq_iff_eq] at htemp
  exact htemp.2

theorem resSize_eq_oldSize {p : Params} (h : cfgOk p = true) (hd : p.compMode = .dualBuffer) :
    resSize p = oldSize p := by
  simp [resSize, oldSize, hd, segHeight_of_dualBuffer h hd]

/-- A place of the translator is inside `RES` (R95). -/
theorem translate_at_lt {p : Params} {seg : Nat} {x y : Int} {byteIx : Nat} {mask : Byte} (h : cfgOk p = true)
    (ht : translate p seg x y = .at byteIx mask) : byteIx < resSize p := by
  unfold translate at ht
  split at ht
  · cases ht
  · split at ht
    · cases ht
    · rename_i hcanvas hsegment
      cases ht
      have hcol := columns_eq h
      have hx : x.toNat / 8 < p.bpr := by omega
      have hk : y.toNat - seg * p.segHeight < p.segHeight := by omega
      calc x.toNat / 8 + (y.toNat - seg * p.segHeight) * p.bpr
          < p.bpr + (y.toNat - seg * p.segHeight) * p.bpr := by omega
        _ = (y.toNat - seg * p.segHeight + 1) * p.bpr := by ring
        _ ≤ p.segHeight * p.bpr := Nat.mul_le_mul_right _ hk
        _ = resSize p := Nat.mul_comm _ _

/-! ### The data -/

theorem DataOk.loadTemp {p : Params} {o : Outer} (h : DataOk p o) (hc : cfgOk p = true) (x : BitVec 8) :
    DataOk p (o.loadTemp p x) :=
  ⟨h.res, h.old, h.seg, by simp [Outer.loadTemp, hc], by simp [Outer.loadTemp, hc]⟩

/-- A micro-operation in range keeps the data in order. -/
theorem Effect.dataOk {m : Micro} {s t : State} (h : Effect m s t) (hd : DataOk s.params s.outer)
    (hc : cfgOk s.params = true) (hm : microOk s.params m = true) : DataOk s.params t.outer := by
  cases m with
  | loadTemp x => exact h ▸ hd.loadTemp hc x
  | sampleTemp => obtain ⟨x, h⟩ := h; exact h ▸ hd.loadTemp hc x
  | selectSegment i => exact h ▸ ⟨rfl, hd.old, fun _ => of_decide_eq_true hm, hd.factor, hd.duration⟩
  | paint byteIx mask black =>
    obtain ⟨hix, h⟩ := h
    exact h ▸ ⟨Memory.wf_memWrite _ hix hd.res, hd.old, hd.seg, hd.factor, hd.duration⟩
  | clearRes => exact h ▸ ⟨rfl, hd.old, hd.seg, hd.factor, hd.duration⟩
  | clearOld => exact h ▸ ⟨hd.res, rfl, hd.seg, hd.factor, hd.duration⟩
  | copyOld =>
    have hsize := resSize_eq_oldSize hc (by simpa [microOk] using hm)
    exact h ▸ ⟨hd.res, hsize ▸ hd.res, hd.seg, hd.factor, hd.duration⟩
  | setPin p v => exact h ▸ ⟨hd.res, hd.old, hd.seg, hd.factor, hd.duration⟩
  | perform a fatal =>
    cases a with
    | pin p v => exact h ▸ ⟨hd.res, hd.old, hd.seg, hd.factor, hd.duration⟩
    | _ => exact h ▸ hd
  | send bytes =>
    cases bytes with
    | nil => exact h ▸ hd
    | cons b bs =>
      rcases h with h | ⟨h, -⟩ <;> exact h ▸ ⟨hd.res, hd.old, hd.seg, hd.factor, hd.duration⟩
  | request st r addr =>
    rcases h with h | ⟨h, -⟩ <;> exact h ▸ ⟨hd.res, hd.old, hd.seg, hd.factor, hd.duration⟩
  | _ => exact h ▸ hd

/-! ### The position: operands in range -/

theorem srcFits_mono {p : Params} {src : Src} {m n : Nat} (h : srcFits p src n = true) (hmn : m ≤ n) :
    srcFits p src m = true := by
  cases src with
  | fixed => rfl
  | reader => rfl
  | res => simp only [srcFits, decide_eq_true_eq] at h ⊢; omega
  | old =>
    simp only [srcFits, Bool.and_eq_true, decide_eq_true_eq] at h ⊢
    exact ⟨h.1, by omega⟩

theorem microOk_rows {p : Params} {st : Stage} {sd : SrcDesc} {r k n : Nat}
    (h : microOk p (.rows st sd r k (n + 1)) = true) :
    microOk p (.row st sd r k) = true ∧ microOk p (.rows st sd (r + 1) (k + 1) n) = true := by
  simp only [microOk, Bool.and_eq_true, decide_eq_true_eq] at h ⊢
  obtain ⟨hr, hs⟩ := h
  exact ⟨⟨by omega, srcFits_mono hs (by omega)⟩, by omega, srcFits_mono hs (by omega)⟩

theorem microOk_sendRow (p : Params) (src : List Byte) :
    ∀ x ∈ [Micro.setPin .cs false, .send src, .setPin .cs true, .pollStart true], microOk p x = true := by
  simp [microOk]

/-- A micro-operation in range puts only such in front of the position. -/
theorem Course.operandsOk {p : Params} {pwr : Pwr} {m : Micro} {new : List Micro} {evs : List Event}
    (h : Course p pwr m new evs) (hm : microOk p m = true) : ∀ x ∈ new, microOk p x = true := by
  cases m with
  | powerOn => obtain ⟨rfl, -⟩ := h; simp [microOk, or_imp, forall_and]
  | powerOff => obtain ⟨rfl, -⟩ := h; split <;> simp [microOk, or_imp, forall_and]
  | perform a fatal =>
    cases a with
    | sleep n => obtain ⟨⟨t0, rfl⟩, -⟩ := h; simp [microOk]
    | _ => obtain ⟨rfl, -⟩ := h; simp [microOk]
  | sleeping t0 n => obtain ⟨rfl | rfl, -⟩ := h <;> simp [microOk]
  | send bytes =>
    cases bytes with
    | nil => obtain ⟨rfl, -⟩ := h; simp
    | cons b bs => obtain ⟨rfl, -⟩ | ⟨rfl, -⟩ := h <;> simp [microOk]
  | pollStart fatal => obtain ⟨⟨t0, rfl⟩, -⟩ := h; simp [microOk]
  | polling t0 fatal => obtain ⟨rfl, -⟩ | ⟨rfl, -⟩ | ⟨-, rfl, -⟩ := h <;> simp [microOk]
  | stage st sd first count => obtain ⟨⟨d, rfl⟩, -⟩ := h; simpa [microOk] using hm
  | passStart st sd first count d n =>
    obtain ⟨⟨t0, rfl⟩, -⟩ := h
    simpa [microOk] using hm
  | passEnd st sd first count d n t0 =>
    obtain ⟨rfl | rfl, -⟩ := h
    · simp
    · simpa [microOk] using hm
  | pass st sd first count =>
    obtain ⟨rfl, -⟩ := h
    simpa [microOk] using hm
  | rows st sd r k left =>
    cases left with
    | zero => obtain ⟨rfl, -⟩ := h; simp
    | succ n => obtain ⟨rfl, -⟩ := h; simpa using microOk_rows hm
  | row st sd r k =>
    obtain ⟨⟨src, rfl⟩ | rfl, -⟩ := h
    · exact microOk_sendRow p _
    · simp only [microOk, Bool.and_eq_true, decide_eq_true_eq] at hm
      simpa [microOk] using hm.1
  | request st r addr =>
    obtain ⟨rfl, -⟩ | ⟨rfl, -⟩ := h
    · simpa [microOk] using hm
    · simpa using hm
  | collect st r got left =>
    cases left with
    | zero => obtain ⟨rfl, -⟩ := h; exact microOk_sendRow p _
    | succ n =>
      obtain ⟨⟨b, rfl⟩ | rfl, -⟩ := h
      · simp only [microOk, Bool.and_eq_true, decide_eq_true_eq, beq_iff_eq] at hm
        simp [microOk, hm.1]
        omega
      · simpa using hm
  | _ => obtain ⟨rfl, -⟩ := h; simp

/-! ### The position: power states -/

/-- The actions of a power sequence leave `pwr` to the `setPwr` behind them. -/
theorem powerFlow_performs {pwr : Pwr} {fatal : Bool} (h : fatal = true → pwr ≠ .fault)
    (as : List PowerAction) (rest : List Micro) :
    powerFlow pwr (as.map (fun a => .perform a fatal) ++ rest) = powerFlow pwr rest := by
  have hhead : (!fatal || pwr != .fault) = true := by cases fatal <;> simp at h ⊢; exact h
  induction as with
  | nil => rfl
  | cons a as ih => simp [powerFlow, hhead, ih]

/-- A row is sent, and polled, with the power on. -/
theorem powerFlow_sendRow {pwr : Pwr} {rest : List Micro} (src : List Byte)
    (h : (pwr == .on && powerFlow pwr rest) = true) :
    powerFlow pwr ([.setPin .cs false, .send src, .setPin .cs true, .pollStart true] ++ rest) = true := by
  obtain ⟨hon, h⟩ := Bool.and_eq_true_iff.mp h
  obtain rfl := eq_of_beq hon
  exact h

/-- Each micro-operation leaves the list fit for the power state that it leaves. -/
theorem Course.flows {p : Params} {pwr : Pwr} {m : Micro} {new rest : List Micro} {evs : List Event}
    (h : Course p pwr m new evs) (hf : powerFlow pwr (m :: rest) = true) :
    powerFlow (pwrAfter pwr m) (new ++ rest) = true := by
  cases m with
  | powerOn =>
    obtain ⟨rfl, -⟩ := h
    obtain ⟨hoff, hf⟩ := Bool.and_eq_true_iff.mp hf
    obtain rfl := eq_of_beq hoff
    rw [List.append_assoc]
    exact (powerFlow_performs (by simp [pwrAfter]) _ _).trans hf
  | powerOff =>
    obtain ⟨rfl, -⟩ := h
    split
    · subst pwr; exact hf
    · rw [List.append_assoc]
      exact (powerFlow_performs (by simp) _ _).trans hf
  | setPwr v =>
    obtain ⟨rfl, -⟩ := h
    cases v with
    | on => exact (Bool.and_eq_true_iff.mp hf).2
    | off => exact hf
    | fault => cases hf
  | perform a fatal =>
    cases a with
    | sleep n => obtain ⟨⟨t0, rfl⟩, -⟩ := h; exact (Bool.and_eq_true_iff.mp hf).2
    | waitBusy => obtain ⟨rfl, -⟩ := h; exact hf
    | _ => obtain ⟨rfl, -⟩ := h; exact (Bool.and_eq_true_iff.mp hf).2
  | sleeping t0 n => obtain ⟨rfl | rfl, -⟩ := h <;> exact hf
  | send bytes =>
    cases bytes with
    | nil => obtain ⟨rfl, -⟩ := h; exact hf
    | cons b bs => obtain ⟨rfl, -⟩ | ⟨rfl, -⟩ := h <;> exact hf
  | pollStart fatal => obtain ⟨⟨t0, rfl⟩, -⟩ := h; exact hf
  | polling t0 fatal =>
    obtain ⟨rfl, -⟩ | ⟨rfl, -⟩ | ⟨-, rfl, -⟩ := h
    · exact (Bool.and_eq_true_iff.mp hf).2
    · exact hf
    · exact (Bool.and_eq_true_iff.mp hf).2
  | stage st sd first count => obtain ⟨⟨d, rfl⟩, -⟩ := h; exact hf
  | passStart st sd first count d n =>
    obtain ⟨⟨t0, rfl⟩, -⟩ := h
    exact Bool.and_eq_true_iff.mpr ⟨(Bool.and_eq_true_iff.mp hf).1, hf⟩
  | passEnd st sd first count d n t0 =>
    obtain ⟨rfl | rfl, -⟩ := h
    · exact (Bool.and_eq_true_iff.mp hf).2
    · exact hf
  | pass st sd first count => obtain ⟨rfl, -⟩ := h; exact hf
  | rows st sd r k left =>
    cases left with
    | zero => obtain ⟨rfl, -⟩ := h; exact (Bool.and_eq_true_iff.mp hf).2
    | succ n => obtain ⟨rfl, -⟩ := h; exact Bool.and_eq_true_iff.mpr ⟨(Bool.and_eq_true_iff.mp hf).1, hf⟩
  | row st sd r k =>
    obtain ⟨⟨src, rfl⟩ | rfl, -⟩ := h
    · exact powerFlow_sendRow _ hf
    · exact hf
  | request st r addr => obtain ⟨rfl, -⟩ | ⟨rfl, -⟩ := h <;> exact hf
  | collect st r got left =>
    cases left with
    | zero => obtain ⟨rfl, -⟩ := h; exact powerFlow_sendRow _ hf
    | succ n => obtain ⟨⟨b, rfl⟩ | rfl, -⟩ := h <;> exact hf
  | _ => obtain ⟨rfl, -⟩ := h; exact hf

/-! ### The position: bytes under chip-select -/

/-- A list that may run with chip-select high may run with it low. -/
theorem sendsFramed_mono {ms : List Micro} (h : sendsFramed false ms = true) (low : Bool) :
    sendsFramed low ms = true := by
  cases ms with
  | nil => rfl
  | cons m rest =>
    cases m with
    | send bytes => cases h
    | _ => exact h

theorem sendsFramed_performs {fatal low : Bool} (as : List PowerAction) {rest : List Micro}
    (h : sendsFramed false rest = true) :
    sendsFramed low (as.map (fun a => .perform a fatal) ++ rest) = true := by
  induction as generalizing low with
  | nil => exact sendsFramed_mono h low
  | cons a as ih => exact ih

/-- The level of chip-select after a micro-operation. -/
def csAfter (cs : Bool) : Micro → Bool
  | .setPin p v => if p = .cs then v else cs
  | .perform (.pin p v) _ => if p = .cs then v else cs
  | _ => cs

theorem setLevel_cs (p : Pin) (v : Bool) (pins : Pins) :
    (setLevel p v pins).cs = if p = .cs then v else pins.cs := by
  cases p <;> rfl

theorem Effect.cs {m : Micro} {s t : State} (h : Effect m s t) : t.outer.pins.cs = csAfter s.outer.pins.cs m := by
  cases m with
  | setPin p v => exact (congrArg (·.pins.cs) h).trans (setLevel_cs p v _)
  | perform a fatal =>
    cases a with
    | pin p v => exact (congrArg (·.pins.cs) h).trans (setLevel_cs p v _)
    | _ => exact (congrArg (·.pins.cs) h).trans rfl
  | sampleTemp => obtain ⟨x, h⟩ := h; exact (congrArg (·.pins.cs) h).trans rfl
  | paint byteIx mask black => exact (congrArg (·.pins.cs) h.2).trans rfl
  | send bytes =>
    cases bytes with
    | nil => exact (congrArg (·.pins.cs) h).trans rfl
    | cons b bs => rcases h with h | ⟨h, -⟩ <;> exact (congrArg (·.pins.cs) h).trans rfl
  | request st r addr => rcases h with h | ⟨h, -⟩ <;> exact (congrArg (·.pins.cs) h).trans rfl
  | _ => exact (congrArg (·.pins.cs) h).trans rfl

/-- Each micro-operation leaves every list of bytes right behind the fall of chip-select. -/
theorem Course.frames {p : Params} {pwr : Pwr} {m : Micro} {new rest : List Micro} {evs : List Event}
    {cs : Bool} (h : Course p pwr m new evs) (hf : sendsFramed (!cs) (m :: rest) = true) :
    sendsFramed (!csAfter cs m) (new ++ rest) = true := by
  cases m with
  | powerOn =>
    obtain ⟨rfl, -⟩ := h
    rw [List.append_assoc]
    exact sendsFramed_performs _ hf
  | powerOff =>
    obtain ⟨rfl, -⟩ := h
    split
    · exact sendsFramed_mono hf _
    · rw [List.append_assoc]
      exact sendsFramed_performs _ hf
  | setPin q v =>
    obtain ⟨rfl, -⟩ := h
    by_cases hq : q = .cs
    · subst hq; exact hf
    · have hne : (q == Pin.cs) = false := beq_false_of_ne hq
      rw [sendsFramed, hne] at hf
      exact sendsFramed_mono hf _
  | perform a fatal =>
    cases a with
    | pin q v => obtain ⟨rfl, -⟩ := h; exact sendsFramed_mono hf _
    | sleep n => obtain ⟨⟨t0, rfl⟩, -⟩ := h; exact hf
    | xfer bs => obtain ⟨rfl, -⟩ := h; exact hf
    | waitBusy => obtain ⟨rfl, -⟩ := h; exact hf
  | sleeping t0 n =>
    obtain ⟨rfl | rfl, -⟩ := h
    · exact sendsFramed_mono hf _
    · exact hf
  | send bytes =>
    cases bytes with
    | nil => obtain ⟨rfl, -⟩ := h; exact sendsFramed_mono (Bool.and_eq_true_iff.mp hf).2 _
    | cons b bs => obtain ⟨rfl, -⟩ | ⟨rfl, -⟩ := h <;> exact hf
  | pollStart fatal => obtain ⟨⟨t0, rfl⟩, -⟩ := h; exact hf
  | polling t0 fatal =>
    obtain ⟨rfl, -⟩ | ⟨rfl, -⟩ | ⟨-, rfl, -⟩ := h
    · exact sendsFramed_mono hf _
    · exact hf
    · exact sendsFramed_mono hf _
  | stage st sd first count => obtain ⟨⟨d, rfl⟩, -⟩ := h; exact hf
  | passStart st sd first count d n => obtain ⟨⟨t0, rfl⟩, -⟩ := h; exact hf
  | passEnd st sd first count d n t0 =>
    obtain ⟨rfl | rfl, -⟩ := h
    · exact sendsFramed_mono hf _
    · exact hf
  | pass st sd first count => obtain ⟨rfl, -⟩ := h; exact hf
  | rows st sd r k left =>
    cases left with
    | zero => obtain ⟨rfl, -⟩ := h; exact sendsFramed_mono hf _
    | succ n => obtain ⟨rfl, -⟩ := h; exact hf
  | row st sd r k => obtain ⟨⟨src, rfl⟩ | rfl, -⟩ := h <;> exact hf
  | request st r addr => obtain ⟨rfl, -⟩ | ⟨rfl, -⟩ := h <;> exact hf
  | collect st r got left =>
    cases left with
    | zero => obtain ⟨rfl, -⟩ := h; exact hf
    | succ n => obtain ⟨⟨b, rfl⟩ | rfl, -⟩ := h <;> exact hf
  | _ => obtain ⟨rfl, -⟩ := h; exact sendsFramed_mono hf _

/-- What a micro-operation leaves to run may run from the state that it leaves. -/
theorem Course.listOk {p : Params} {pwr : Pwr} {m : Micro} {new rest : List Micro} {evs : List Event}
    {cs : Bool} (h : Course p pwr m new evs) (hl : ListOk p pwr (!cs) (m :: rest)) :
    ListOk p (pwrAfter pwr m) (!csAfter cs m) (new ++ rest) := by
  obtain ⟨hok, hflow, hframed⟩ := hl
  rw [List.all_cons, Bool.and_eq_true] at hok
  refine ⟨?_, h.flows hflow, h.frames hframed⟩
  rw [List.all_append, Bool.and_eq_true]
  exact ⟨List.all_eq_true.mpr (h.operandsOk hok.1), hok.2⟩

theorem ListOk.anyLevel {p : Params} {pwr : Pwr} {ms : List Micro} (h : ListOk p pwr false ms) (low : Bool) :
    ListOk p pwr low ms :=
  ⟨h.inRange, h.flow, sendsFramed_mono h.framed low⟩

/-! ### The ports -/

theorem portsMatch_idle {s : State} (htx : s.tx = none) (hrd : s.rd = none) : portsMatch s = true := by
  simp [portsMatch, htx, hrd]

/-- The stream port carries a byte only while the head of the position waits with it. -/
theorem tx_none_of_portsMatch {s : State} (h : portsMatch s = true)
    (hm : ∀ b bs rest, s.seq.todo ≠ .send (b :: bs) :: rest) : s.tx = none := by
  cases htx : s.tx with
  | none => rfl
  | some b =>
    simp [portsMatch, htx] at h

/-- The reader port carries a request only while the head of the position waits with it. -/
theorem rd_none_of_portsMatch {s : State} (h : portsMatch s = true)
    (hm : ∀ st r addr rest, s.seq.todo ≠ .request st r addr :: rest) : s.rd = none := by
  cases hrd : s.rd with
  | none => rfl
  | some q =>
    simp [portsMatch, hrd] at h

/-- A micro-operation other than a `send` or a `request` leaves the ports alone. -/
theorem Effect.ports {m : Micro} {s t : State} (h : Effect m s t) (hsend : ∀ b bs, m ≠ .send (b :: bs))
    (hreq : ∀ st r addr, m ≠ .request st r addr) : (t.outer.tx, t.outer.rd) = (s.outer.tx, s.outer.rd) := by
  cases m with
  | send bytes =>
    cases bytes with
    | nil => exact (congrArg (fun o : Outer => (o.tx, o.rd)) h).trans rfl
    | cons b bs => exact absurd rfl (hsend b bs)
  | request st r addr => exact absurd rfl (hreq st r addr)
  | perform a fatal => cases a <;> exact (congrArg (fun o : Outer => (o.tx, o.rd)) h).trans rfl
  | sampleTemp => obtain ⟨x, h⟩ := h; exact (congrArg (fun o : Outer => (o.tx, o.rd)) h).trans rfl
  | paint byteIx mask black => exact (congrArg (fun o : Outer => (o.tx, o.rd)) h.2).trans rfl
  | _ => exact (congrArg (fun o : Outer => (o.tx, o.rd)) h).trans rfl

/-- After a micro-operation the ports carry what the new head waits with. -/
theorem Effect.keepsPorts {m : Micro} {rest : List Micro} {s t : State} (h : Effect m (s.setTodo rest) t)
    (hp : t.params = s.params) (ht : s.seq.todo = m :: rest) (hs : portsMatch s = true) :
    portsMatch t = true := by
  have htx (hsend : ∀ b bs, m ≠ .send (b :: bs)) : s.tx = none :=
    tx_none_of_portsMatch hs fun b bs _ he => hsend b bs (List.cons.inj (ht ▸ he)).1
  have hrd (hreq : ∀ st r addr, m ≠ .request st r addr) : s.rd = none :=
    rd_none_of_portsMatch hs fun st r addr _ he => hreq st r addr (List.cons.inj (ht ▸ he)).1
  have hquiet (hsend : ∀ b bs, m ≠ .send (b :: bs)) (hreq : ∀ st r addr, m ≠ .request st r addr) :
      portsMatch t = true :=
    portsMatch_idle ((congrArg Prod.fst (h.ports hsend hreq)).trans (htx hsend))
      ((congrArg Prod.snd (h.ports hsend hreq)).trans (hrd hreq))
  cases m with
  | send bytes =>
    cases bytes with
    | nil => exact hquiet (by simp) (by simp)
    | cons b bs =>
      have hrd := hrd (by simp)
      rcases h with h | ⟨h, htodo⟩
      · exact portsMatch_idle (congrArg Outer.tx h) ((congrArg Outer.rd h).trans hrd)
      · have htx : t.tx = some b := congrArg Outer.tx h
        have hrd : t.rd = none := (congrArg Outer.rd h).trans hrd
        simp [portsMatch, htx, hrd, htodo]
  | request st r addr =>
    have htx := htx (by simp)
    rcases h with h | ⟨h, htodo⟩
    · exact portsMatch_idle ((congrArg Outer.tx h).trans htx) (congrArg Outer.rd h)
    · have htx : t.tx = none := (congrArg Outer.tx h).trans htx
      have hrd : t.rd = some (addr, BitVec.ofNat 16 s.params.bpr) := congrArg Outer.rd h
      simp [portsMatch, htx, hrd, htodo, hp]
  | _ => exact hquiet (by simp) (by simp)

/-! ### Ticks keep the invariant -/

/-- A completed command leaves an idle block with an empty position (R237). -/
theorem complete_inv {s : State} (hs : Inv s) (ht : s.seq.todo = []) (hr : s.inputs.rstN = true) :
    Inv s.complete := by
  obtain ⟨hdata, hlife, -, -, hports, -⟩ := (inv_iff s).mp hs
  have hlife : LifeOk s.complete :=
    { idle := fun _ => rfl
      running := fun h => by cases h
      misconfigured := fun h => ⟨rfl, rfl, (hlife.misconfigured h).2.2⟩ }
  have htx : s.tx = none := tx_none_of_portsMatch hports (by simp [ht])
  have hrd : s.rd = none := rd_none_of_portsMatch hports (by simp [ht])
  have hreset : ResetOk s.complete := fun h => by simp [hr] at h
  exact (inv_iff _).mpr ⟨hdata, hlife, ⟨rfl, rfl, rfl⟩, ⟨rfl, rfl, rfl⟩, portsMatch_idle htx hrd, hreset⟩

/-- A running block is not in reset. -/
theorem rstN_of_busy {s : State} (hs : ResetOk s) (hb : s.busy = true) : s.inputs.rstN = true := by
  cases hr : s.inputs.rstN with
  | true => rfl
  | false => rw [hs hr] at hb; cases hb

theorem runMicro_inv {m : Micro} {rest : List Micro} {s t : State} (hs : Inv s) (hb : s.busy = true)
    (ht : s.seq.todo = m :: rest) (h : runMicro m (s.setTodo rest) = .next t) : Inv t := by
  obtain ⟨hdata, hlife, hlist, htimeout, hports, hreset⟩ := (inv_iff s).mp hs
  have hkeep := runMicro_keeps h
  have hparams : t.params = s.params := (congrArg State.params hkeep).trans rfl
  have hbusy : t.busy = true := ((congrArg State.busy hkeep).trans rfl).trans hb
  have hdone : t.done = s.done := (congrArg State.done hkeep).trans rfl
  have hrst : t.inputs.rstN = s.inputs.rstN := (congrArg (·.inputs.rstN) hkeep).trans rfl
  have hcfg : cfgOk s.params = true := by
    by_contra hc
    have hnil := (hlife.misconfigured (by simpa using hc)).1
    rw [ht] at hnil
    cases hnil
  have hm : microOk s.params m = true := by
    have hall := hlist.inRange
    rw [ht, List.all_cons, Bool.and_eq_true] at hall
    exact hall.1
  have heffect := runMicro_effect h
  have hcs : t.pins.cs = csAfter s.pins.cs m := heffect.cs
  have hlife' : LifeOk t :=
    { idle := fun h => by simp [hbusy] at h
      running := fun _ => hdone.trans (hlife.running hb)
      misconfigured := fun h => by simp [hparams, hcfg] at h }
  have hreset' : ResetOk t := fun h => by simp [hrst, rstN_of_busy hreset hb] at h
  have hlists : ListOk s.params t.pwr (!csAfter s.pins.cs m) t.seq.todo ∧
      ListOk s.params .fault false t.seq.onTimeout := by
    obtain ⟨new, evs, hc, hseq, -, hpwr⟩ | ⟨t0, -, hseq, -, hpwr⟩ := runMicro_course h
    · rw [hseq, hpwr]
      exact ⟨hc.listOk (ht ▸ hlist), htimeout⟩
    · rw [hseq, hpwr]
      exact ⟨htimeout.anyLevel _, rfl, rfl, rfl⟩
  rw [inv_iff, hparams, hcs]
  exact ⟨heffect.dataOk hdata hcfg hm, hlife', hlists.1, hlists.2, heffect.keepsPorts hparams ht hports, hreset'⟩

theorem tick_inv {s t : State} (hs : Inv s) (h : tick s = .next t) : Inv t := by
  obtain ⟨-, rfl⟩ | ⟨hb, ht, rfl⟩ | ⟨m, rest, hb, ht, h⟩ := tick_cases h
  · exact hs
  · obtain ⟨-, -, -, -, -, hreset⟩ := (inv_iff s).mp hs
    exact complete_inv hs ht (rstN_of_busy hreset hb)
  · exact runMicro_inv hs hb ht h

/-! ### Reset -/

/-- The reset state of any parameters meets the invariant, whatever the accumulator and the inputs. -/
theorem resetOf_inv (p : Params) (acc : Word) (q : Inputs) :
    Inv { State.resetOf p with acc := acc, inputs := q } := by
  have hduration : (State.resetOf p).duration =
      (if cfgOk p then BitVec.ofNat 32 (stageDuration p (tempFactor p 25)) else 0) := by
    show (if cfgOk p then p.stageTimeMs else 0) = _
    split
    · rename_i hc
      rw [tempFactor_25 hc, stageDuration, Nat.mul_div_cancel _ (by omega), BitVec.ofNat_toNat, BitVec.setWidth_eq]
    · rfl
  have hseg : cfgOk p = true → (0 : BitVec 16).toNat < segCount p := fun hc => by
    obtain ⟨-, -, ⟨hrows, -⟩, -⟩ := configValid hc
    refine Nat.pos_of_ne_zero fun hz => ?_
    have := segCount_mul_segHeight hc
    simp [hz] at this
    omega
  have hlife : LifeOk { State.resetOf p with acc := acc, inputs := q } :=
    { idle := fun _ => rfl
      running := fun h => by cases h
      misconfigured := fun _ => ⟨rfl, rfl, rfl⟩ }
  exact (inv_iff _).mpr
    ⟨⟨rfl, rfl, hseg, rfl, hduration⟩, hlife, ⟨rfl, rfl, rfl⟩, ⟨rfl, rfl, rfl⟩, rfl, fun _ => rfl⟩

/-- Settles O18: the reset state of `resetOf_inv` with the reset's own accumulator and inputs. -/
theorem resetMeetsTheInvariant : Obligations.ResetMeetsTheInvariant := fun p => resetOf_inv p 0 Inputs.none

end Sys2Proof.Machine
end

section
/-! Launch and the host keep the invariant, and so does every step (O48). -/

namespace Sys2Proof.Machine

open Sys2Proof

/-! ### The plans -/

theorem firstError_none {checks : List (Bool × Code)} (h : firstError checks = none) :
    ∀ c ∈ checks, c.1 = false := by
  induction checks with
  | nil => simp
  | cons c rest ih =>
    obtain ⟨b, code⟩ := c
    cases b with
    | true => cases h
    | false => exact List.forall_mem_cons.mpr ⟨rfl, ih h⟩

/-- A guarded plan that runs: no check fails. -/
theorem guarded_run_checks {checks : List (Bool × Code)} {ms ms' todo onTimeout : List Micro}
    (h : guarded checks ms ms' = .run todo onTimeout) :
    (∀ c ∈ checks, c.1 = false) ∧ todo = ms ∧ onTimeout = ms' :=
  (guarded_eq_run h).imp_left firstError_none

theorem cfgOk_of_configCheck {s : State} (h : (configCheck s).1 = false) : cfgOk s.params = true := by
  simpa [configCheck] using h

theorem pwr_of_pwrCheck {s : State} {needed : Pwr} (h : (pwrCheck needed s).1 = false) : s.pwr = needed := by
  simpa [pwrCheck] using h

theorem rangeOk_of_rangeCheck {s : State} {src : Src} (h : (rangeCheck src s).1 = false) :
    rangeOk s.params s.firstRow s.rowCount src = true := by
  simpa [rangeCheck] using h

/-- The operands of a stage or a pass are in range exactly if `CheckRange` passes (R153). -/
theorem rangeOk_eq (p : Params) (first count : Nat) (src : Src) :
    rangeOk p first count src = (decide (first + count ≤ p.rows) && srcFits p src count) := by
  cases src <;> rfl

/-- A list of actions that the power state on allows may have a stage in front. -/
theorem ListOk.stage {p : Params} {rest : List Micro} {sd : SrcDesc} {first count : Nat} (st : Stage) {low : Bool}
    (hr : rangeOk p first count sd.src = true) (h : ListOk p .on false rest) :
    ListOk p .on low (.stage st sd first count :: rest) :=
  ⟨Bool.and_eq_true_iff.mpr ⟨(rangeOk_eq p first count sd.src).symm.trans hr, h.inRange⟩, h.flow, h.framed⟩

theorem stageSequence_listOk {p : Params} {rest : List Micro} {sdOld sdNew : SrcDesc} {first count : Nat}
    (hold : rangeOk p first count sdOld.src = true) (hnew : rangeOk p first count sdNew.src = true)
    (h : ListOk p .on false rest) : ListOk p .on false (stageSequence sdOld sdNew first count ++ rest) :=
  .stage _ hold <| .stage _ hold <| .stage _ hnew <| .stage _ hnew h

theorem ListOk.nil (p : Params) (pwr : Pwr) (low : Bool) : ListOk p pwr low [] := ⟨rfl, rfl, rfl⟩

/-- The segment's rows are in range for the sources that `DISPLAY` draws from. -/
theorem rangeOk_segment {p : Params} {seg : Nat} (hc : cfgOk p = true) (hseg : seg < segCount p) :
    rangeOk p (seg * p.segHeight) p.segHeight .fixed = true ∧
      rangeOk p (seg * p.segHeight) p.segHeight .res = true := by
  have := segment_inside hc hseg
  simp [rangeOk, this]

theorem rangeOk_canvas {p : Params} (hc : cfgOk p = true) (hd : p.compMode = .dualBuffer) :
    rangeOk p 0 p.rows .old = true ∧ rangeOk p 0 p.rows .res = true := by
  simp [rangeOk, hd, segHeight_of_dualBuffer hc hd]

theorem displayStages_listOk {s : State} {rest : List Micro} (hc : cfgOk s.params = true)
    (hseg : s.seg.toNat < segCount s.params) (h : ListOk s.params .on false rest) (clearFirst : Bool) :
    ListOk s.params .on false (displayStages clearFirst s ++ rest) := by
  obtain ⟨hfixed, hres⟩ := rangeOk_segment hc hseg
  unfold displayStages
  split
  · cases clearFirst with
    | true =>
      simp only [if_true, List.append_assoc]
      exact stageSequence_listOk hfixed hfixed (stageSequence_listOk hfixed hres h)
    | false => exact stageSequence_listOk hres hres h
  · rename_i hd
    obtain ⟨hold, hres⟩ := rangeOk_canvas hc hd
    rw [List.append_assoc]
    have hcopy : microOk s.params .copyOld = true := by simp [microOk, hd]
    exact stageSequence_listOk hold hres ⟨Bool.and_eq_true_iff.mpr ⟨hcopy, h.inRange⟩, h.flow, h.framed⟩

/-- What a plan gives the position: nothing in a misconfigured block, and lists that may run. -/
structure PlanOk (s : State) (todo onTimeout : List Micro) : Prop where
  misconfigured : cfgOk s.params = false → todo = [] ∧ onTimeout = []
  todo : ListOk s.params s.pwr false todo
  onTimeout : ListOk s.params .fault false onTimeout

theorem PlanOk.configured {s : State} {todo onTimeout : List Micro} (hc : cfgOk s.params = true)
    (h : ListOk s.params s.pwr false todo) (h' : ListOk s.params .fault false onTimeout) :
    PlanOk s todo onTimeout :=
  ⟨fun hn => by simp [hc] at hn, h, h'⟩

theorem planOf_planOk {i : Instr} {s : State} {todo onTimeout : List Micro}
    (hseg : cfgOk s.params = true → s.seg.toNat < segCount s.params)
    (h : planOf i s = .run todo onTimeout) : PlanOk s todo onTimeout := by
  cases i with
  | nop => cases h; exact ⟨fun _ => ⟨rfl, rfl⟩, .nil .., .nil ..⟩
  | pwrOn =>
    obtain ⟨hchecks, rfl, rfl⟩ := guarded_run_checks h
    simp only [List.forall_mem_cons] at hchecks
    obtain ⟨hc, hp, -⟩ := hchecks
    have hp := pwr_of_pwrCheck hp
    exact .configured (cfgOk_of_configCheck hc) ⟨rfl, by simp [powerFlow, hp], rfl⟩ (.nil ..)
  | pwrOff =>
    obtain ⟨hchecks, rfl, rfl⟩ := guarded_run_checks h
    exact .configured (cfgOk_of_configCheck (hchecks _ (by simp))) ⟨rfl, rfl, rfl⟩ (.nil ..)
  | setTemp temp =>
    obtain ⟨hchecks, rfl, rfl⟩ := guarded_run_checks h
    exact .configured (cfgOk_of_configCheck (hchecks _ (by simp))) ⟨rfl, rfl, rfl⟩ (.nil ..)
  | sampleTemp =>
    obtain ⟨hchecks, rfl, rfl⟩ := guarded_run_checks h
    exact .configured (cfgOk_of_configCheck (hchecks _ (by simp))) ⟨rfl, rfl, rfl⟩ (.nil ..)
  | refreshOnce stage src fill =>
    obtain ⟨hchecks, rfl, rfl⟩ := guarded_run_checks h
    simp only [List.forall_mem_cons] at hchecks
    obtain ⟨hc, hr, hp, -⟩ := hchecks
    have hr := rangeOk_of_rangeCheck hr
    rw [rangeOk_eq] at hr
    refine .configured (cfgOk_of_configCheck hc) ⟨?_, by simp [powerFlow, pwr_of_pwrCheck hp], rfl⟩ (.nil ..)
    simpa [microOk, State.newSource] using hr
  | refreshRepeat stage src fill =>
    obtain ⟨hchecks, rfl, rfl⟩ := guarded_run_checks h
    simp only [List.forall_mem_cons] at hchecks
    obtain ⟨hc, hr, hp, -⟩ := hchecks
    refine .configured (cfgOk_of_configCheck hc) ?_ (.nil ..)
    rw [pwr_of_pwrCheck hp]
    exact .stage _ (rangeOk_of_rangeCheck hr) (.nil ..)
  | drvClear fill =>
    obtain ⟨hchecks, rfl, rfl⟩ := guarded_run_checks h
    simp only [List.forall_mem_cons] at hchecks
    obtain ⟨hc, hr, hp, -⟩ := hchecks
    refine .configured (cfgOk_of_configCheck hc) ?_ (.nil ..)
    rw [pwr_of_pwrCheck hp]
    have hr := rangeOk_of_rangeCheck hr
    exact stageSequence_listOk hr hr (.nil ..)
  | showImage newSrc oldSrc hasOld fill =>
    obtain ⟨hchecks, rfl, rfl⟩ := guarded_run_checks h
    simp only [List.forall_mem_cons] at hchecks
    obtain ⟨hc, hr, hr', hp, -⟩ := hchecks
    refine .configured (cfgOk_of_configCheck hc) ?_ (.nil ..)
    rw [pwr_of_pwrCheck hp]
    have hr := rangeOk_of_rangeCheck hr
    refine stageSequence_listOk ?_ hr (.nil ..)
    cases hasOld with
    | true => exact rangeOk_of_rangeCheck hr'
    | false => exact hr
  | selSeg index =>
    obtain ⟨hchecks, rfl, rfl⟩ := guarded_run_checks h
    simp only [List.forall_mem_cons] at hchecks
    obtain ⟨hc, hi, -⟩ := hchecks
    refine .configured (cfgOk_of_configCheck hc) ⟨?_, rfl, rfl⟩ (.nil ..)
    simpa [microOk] using hi
  | setPixel black x y =>
    obtain ⟨hchecks, rfl, rfl⟩ := guarded_run_checks h
    have hc := cfgOk_of_configCheck (hchecks _ List.mem_cons_self)
    refine .configured hc ?_ (.nil ..)
    unfold paintPlan
    split
    · rename_i byteIx mask hplace
      exact ⟨by simp [microOk, translate_at_lt hc hplace], rfl, rfl⟩
    · exact .nil ..
    · exact .nil ..
  | display clearFirst doPwrOn doPwrOff =>
    obtain ⟨hchecks, rfl, rfl⟩ := guarded_run_checks h
    simp only [List.forall_mem_cons] at hchecks
    obtain ⟨hc, hp, -⟩ := hchecks
    have hc := cfgOk_of_configCheck hc
    have hp := pwr_of_pwrCheck hp
    have hoff (pwr : Pwr) : ListOk s.params pwr false (if doPwrOff then [.powerOff] else []) := by
      cases doPwrOff <;> exact ⟨rfl, rfl, rfl⟩
    have hstages := displayStages_listOk hc (hseg hc) (hoff .on) clearFirst
    refine .configured hc ?_ (hoff .fault)
    rw [hp, List.append_assoc]
    cases doPwrOn with
    | true => exact ⟨hstages.inRange, hstages.flow, hstages.framed⟩
    | false => exact hstages
  | fbClear =>
    obtain ⟨hchecks, rfl, rfl⟩ := guarded_run_checks h
    simp only [List.forall_mem_cons] at hchecks
    obtain ⟨hc, hp, -⟩ := hchecks
    refine .configured (cfgOk_of_configCheck hc) ?_ (.nil ..)
    rw [pwr_of_pwrCheck hp, List.append_assoc]
    have hr : rangeOk s.params 0 s.params.rows .fixed = true := by simp [rangeOk]
    refine stageSequence_listOk hr hr ?_
    split
    · exact ⟨rfl, rfl, rfl⟩
    · rename_i hd
      exact ⟨by simp [microOk, hd], rfl, rfl⟩

/-! ### Launch -/

/-- A launched command with a position that may run. -/
theorem launch_inv {s : State} (hs : Inv s) (hb : s.busy = false) (hr : s.inputs.rstN = true) (w : Word)
    (code : Code) {todo onTimeout : List Micro} (hp : PlanOk s todo onTimeout) :
    Inv { s.launch w with seq := ⟨todo, code, onTimeout⟩ } := by
  obtain ⟨hdata, hlife, -, -, hports, -⟩ := (inv_iff s).mp hs
  have hidle := hlife.idle hb
  have htx : s.tx = none := tx_none_of_portsMatch hports (by simp [hidle, Seq.idle])
  have hrd : s.rd = none := rd_none_of_portsMatch hports (by simp [hidle, Seq.idle])
  have hlife' : LifeOk { s.launch w with seq := ⟨todo, code, onTimeout⟩ } :=
    { idle := fun h => by cases h
      running := fun _ => rfl
      misconfigured := fun hc =>
        ⟨(hp.misconfigured hc).1, (hp.misconfigured hc).2, (hlife.misconfigured hc).2.2⟩ }
  have hreset : ResetOk { s.launch w with seq := ⟨todo, code, onTimeout⟩ } :=
    fun h => absurd (hr.symm.trans h) (by simp)
  exact (inv_iff _).mpr ⟨hdata, hlife', hp.todo.anyLevel _, hp.onTimeout, portsMatch_idle htx hrd, hreset⟩

theorem launch_raiseError (w : Word) (c : Code) (s : State) :
    (s.launch w).raiseError c = { s.launch w with seq := ⟨[], c, []⟩ } := by
  simp [State.raiseError, Seq.idle]

theorem launch_fail_inv {s : State} (hs : Inv s) (hb : s.busy = false) (hr : s.inputs.rstN = true) (w : Word)
    (c : Code) : Inv ((s.launch w).raiseError c) := by
  rw [launch_raiseError]
  exact launch_inv hs hb hr w c ⟨fun _ => ⟨rfl, rfl⟩, .nil .., .nil ..⟩

theorem refuse_inv {s : State} (hs : Inv s) (hb : s.busy = false) (hr : s.inputs.rstN = true) (w : Word) :
    Inv (s.refuse w) :=
  complete_inv (launch_fail_inv hs hb hr w _) (by simp) hr

/-- `OVERRUN` is no part of the invariant of a running block. -/
theorem dropCommand_inv {s : State} (hs : Inv s) (hr : s.inputs.rstN = true) : Inv s.dropCommand := by
  obtain ⟨hdata, ⟨hidle, hrun, hmis⟩, hlist, hlist', hports, -⟩ := (inv_iff s).mp hs
  have hreset : ResetOk s.dropCommand := fun h => absurd (hr.symm.trans h) (by simp)
  exact (inv_iff _).mpr ⟨hdata, ⟨hidle, hrun, hmis⟩, hlist, hlist', hports, hreset⟩

theorem startOf_inv {s : State} (hs : Inv s) (hr : s.inputs.rstN = true) (i : Instr) : Inv (startOf i s) := by
  obtain ⟨hdata, -⟩ := (inv_iff s).mp hs
  refine startOf_keeps (fun _ => dropCommand_inv hs hr) (fun hb _ => ?_) fun hb => refuse_inv hs hb hr _
  refine follow_keeps (fun c _ => launch_fail_inv hs hb hr _ c) fun todo onTimeout hplan => ?_
  have hp : PlanOk (s.launch (encode i)) todo onTimeout := planOf_planOk hdata.seg hplan
  exact launch_inv hs hb hr _ _ ⟨hp.misconfigured, hp.todo, hp.onTimeout⟩

/-! ### The host and reset -/

theorem hostMoves_inv {s t : State} (hs : Inv s) (h : HostMoves s t) : Inv t := by
  obtain ⟨rdata, q, hrst, hread⟩ := h
  obtain ⟨hdata, ⟨hidle, hrun, hmis⟩, hlist, hlist', hports, hreset⟩ := (inv_iff s).mp hs
  have hreset' : ResetOk { s with rdata := rdata, inputs := q } := fun hq => by
    have hlow : s.inputs.rstN = false := hrst.symm.trans hq
    rw [hread hlow, hreset hlow]
    rfl
  exact (inv_iff _).mpr ⟨hdata, ⟨hidle, hrun, hmis⟩, hlist, hlist', hports, hreset'⟩

theorem driveRst_inv {s : State} (hs : Inv s) (level : Bool) : Inv (s.driveRst level) := by
  cases level with
  | false => exact resetOf_inv s.params s.acc { s.inputs with rstN := false }
  | true =>
    obtain ⟨hdata, ⟨hidle, hrun, hmis⟩, hlist, hlist', hports, -⟩ := (inv_iff s).mp hs
    have hreset : ResetOk (s.driveRst true) := fun h => by cases h
    exact (inv_iff _).mpr ⟨hdata, ⟨hidle, hrun, hmis⟩, hlist, hlist', hports, hreset⟩

theorem writeReg_inv {s : State} (hs : Inv s) (hr : s.inputs.rstN = true) (addr : BitVec 8) (v : Word) :
    Inv (s.writeReg addr v) := by
  obtain ⟨hdata, ⟨hidle, hrun, hmis⟩, hlist, hlist', hports, -⟩ := (inv_iff s).mp hs
  obtain ⟨range, rdbase, rdold, done, err, overrun, hdone, he⟩ := writeReg_eq addr v s
  rw [he]
  have hrun' : s.busy = true → done = false := fun hb => by
    cases done with
    | false => rfl
    | true => exact absurd ((hdone rfl).symm.trans (hrun hb)) (by simp)
  exact (inv_iff _).mpr
    ⟨hdata, ⟨hidle, hrun', hmis⟩, hlist, hlist', hports, fun h => absurd (hr.symm.trans h) (by simp)⟩

theorem written_inv {s t : State} (hs : Inv s) (h : Written s t) : Inv t := by
  cases h with
  | nothing => exact hs
  | register hr addr v => exact writeReg_inv hs hr addr v
  | command hr i => exact startOf_inv hs hr i
  | refused hr hb w => exact refuse_inv hs hb hr w
  | dropped hr hb => exact dropCommand_inv hs hr

theorem arrives_inv {s t : State} (hs : Inv s) (h : Arrives s t) : Inv t := by
  cases h with
  | written h => exact written_inv hs h
  | reset level => exact driveRst_inv hs level

/-- Settles O48: the host's moves, every arrival at the block and every tick keep the invariant. -/
theorem stepKeepsTheInvariant : Obligations.StepKeepsTheInvariant :=
  fun _ _ hs h => step_keeps hostMoves_inv arrives_inv tick_inv hs h

end Sys2Proof.Machine
end

section
/-! The power state moves as R256 lists (O30), and a byte leaves under chip-select only (O50). -/

namespace Sys2Proof.Machine

open Sys2Proof

/-! ### A byte and its chip-select -/

/-- A byte is emitted by a `send` alone. -/
theorem Course.send_of_tx {p : Params} {pwr : Pwr} {m : Micro} {new : List Micro} {b : Byte}
    (h : Course p pwr m new [.tx b]) : ∃ bytes, m = .send bytes := by
  cases m with
  | send bytes => exact ⟨bytes, rfl⟩
  | perform a fatal => cases a <;> simp [Course] at h
  | rows st sd r k left => cases left <;> simp [Course] at h
  | collect st r got left => cases left <;> simp [Course] at h
  | _ => simp [Course] at h

/-- Settles O50: only a `send` emits a byte, and the invariant has every `send` right behind the fall of
chip-select, which a `send` leaves alone. -/
theorem bytesLeaveOnlyUnderChipSelect : Obligations.BytesLeaveOnlyUnderChipSelect := by
  intro s t b hs h htrace
  obtain ⟨-, rfl⟩ | ⟨-, -, rfl⟩ | ⟨m, rest, -, ht, h⟩ := tick_cases h
  · simp at htrace
  · simp at htrace
  · have hsend : ∃ bytes, m = .send bytes := by
      obtain ⟨new, evs, hc, -, htr, -⟩ | ⟨t0, -, -, htr, -⟩ := runMicro_course h
      · obtain rfl : evs = [.tx b] := List.append_cancel_left (htr.symm.trans htrace)
        exact hc.send_of_tx
      · cases List.append_cancel_left (htr.symm.trans htrace)
    obtain ⟨bytes, rfl⟩ := hsend
    obtain ⟨-, -, hlist, -⟩ := (inv_iff s).mp hs
    have hframed := hlist.framed
    rw [ht] at hframed
    have hlow : s.pins.cs = false := by simpa using (Bool.and_eq_true_iff.mp hframed).1
    exact ⟨hlow, (runMicro_effect h).cs.trans hlow⟩

/-! ### What moves `pwr` -/

/-- A tick leaves `pwr` alone, or its cause is one that R256 lists. -/
theorem tick_pwr {s t : State} (hs : Inv s) (h : tick s = .next t) :
    t.pwr = s.pwr ∨
      (s.pwr = .off ∧ t.pwr = .on ∧ s.seq.todo.head? = some (.setPwr .on)) ∨
      (t.pwr = .off ∧ s.seq.todo.head? = some (.setPwr .off)) ∨
      (t.pwr = .fault ∧ (∃ t0, s.seq.todo.head? = some (.polling t0 true)) ∧
        t.trace = s.trace ++ [.busy .timeout]) := by
  obtain ⟨-, rfl⟩ | ⟨-, -, rfl⟩ | ⟨m, rest, -, ht, h⟩ := tick_cases h
  · exact .inl rfl
  · exact .inl rfl
  · obtain ⟨new, evs, -, -, -, hpwr⟩ | ⟨t0, rfl, -, htr, hpwr⟩ := runMicro_course h
    · cases m with
      | setPwr v =>
        obtain ⟨-, -, hlist, -⟩ := (inv_iff s).mp hs
        have hflow := hlist.flow
        rw [ht] at hflow
        cases v with
        | on => exact .inr (.inl ⟨eq_of_beq (Bool.and_eq_true_iff.mp hflow).1, hpwr, by simp [ht]⟩)
        | off => exact .inr (.inr (.inl ⟨hpwr, by simp [ht]⟩))
        | fault => cases hflow
      | _ => exact .inl hpwr
    · exact .inr (.inr (.inr ⟨hpwr, ⟨t0, by simp [ht]⟩, htr⟩))

/-- The last action of a power sequence comes in with its sequence, or from the catch of `DISPLAY`. -/
theorem tick_brings_setPwr {s t : State} {v : Pwr} (h : tick s = .next t) (hv : .setPwr v ∈ t.seq.todo) :
    .setPwr v ∈ s.seq.todo ∨ .setPwr v ∈ s.seq.onTimeout ∨
      (v = .on ∧ s.seq.todo.head? = some .powerOn) ∨ (v = .off ∧ s.seq.todo.head? = some .powerOff) := by
  obtain ⟨-, rfl⟩ | ⟨-, -, rfl⟩ | ⟨m, rest, -, ht, h⟩ := tick_cases h
  · exact .inl hv
  · cases hv
  · obtain ⟨new, evs, hc, hseq, -, -⟩ | ⟨t0, -, hseq, -, -⟩ := runMicro_course h
    · rw [hseq, List.mem_append] at hv
      rcases hv with hv | hv
      · obtain ⟨hv, rfl⟩ | ⟨hv, rfl⟩ := hc.brings _ hv
        · exact .inr (.inr (.inl ⟨hv, by simp [ht]⟩))
        · exact .inr (.inr (.inr ⟨hv, by simp [ht]⟩))
      · exact .inl (ht ▸ List.mem_cons_of_mem m hv)
    · rw [hseq] at hv
      exact .inr (.inl hv)

theorem tick_powerOn {s : State} {rest : List Micro} (hb : s.busy = true) (ht : s.seq.todo = .powerOn :: rest) :
    tick s =
      .next (s.setTodo (s.params.powerOnSeq.map (fun a => .perform a true) ++ .setPwr .on :: rest)) := by
  rw [tick_head hb ht]
  simp [runMicro, doPowerOn, State.push, State.setTodo]

theorem tick_powerOff {s : State} {rest : List Micro} (hb : s.busy = true)
    (ht : s.seq.todo = .powerOff :: rest) (hp : s.pwr ≠ .off) :
    tick s =
      .next (s.setTodo (s.params.powerOffSeq.map (fun a => .perform a false) ++ .setPwr .off :: rest)) := by
  rw [tick_head hb ht]
  simp [runMicro, doPowerOff, State.push, State.setTodo, hp]

/-! ### The host and `pwr` -/

/-- `t` has the power state of `s` and no last action of a power sequence that `s` has not. -/
def PowerKept (s t : State) : Prop :=
  t.pwr = s.pwr ∧ ∀ v, .setPwr v ∈ t.seq.todo ∨ .setPwr v ∈ t.seq.onTimeout →
    .setPwr v ∈ s.seq.todo ∨ .setPwr v ∈ s.seq.onTimeout

theorem written_powerKept {s t : State} (h : Written s t) : PowerKept s t := by
  cases h with
  | nothing => exact ⟨rfl, fun _ => id⟩
  | register hr addr v =>
    obtain ⟨_, _, _, _, _, _, -, he⟩ := writeReg_eq addr v s
    rw [he]
    exact ⟨rfl, fun _ => id⟩
  | command hr i =>
    refine startOf_keeps (fun _ => ⟨rfl, fun _ => id⟩) (fun hb hw => ⟨?_, fun v hv => ?_⟩) fun _ =>
      ⟨rfl, fun v hv => by simp [State.refuse, Seq.idle] at hv⟩
    · exact follow_keeps (P := fun u => u.pwr = s.pwr) (fun _ _ => rfl) fun _ _ _ => rfl
    · rw [← startOf_launched hb hw] at hv
      exact (startOf_confined i hb _ hv).elim
  | refused hr hb w => exact ⟨rfl, fun v hv => by simp [State.refuse, Seq.idle] at hv⟩
  | dropped hr hb => exact ⟨rfl, fun _ => id⟩

/-- An access with no ticks behind it: a reset makes `pwr` `OFF`, and every other access keeps it. -/
theorem access_pwr {a : Access} {s t : State} (hg : s.inputs.gap = 0) (h : access a s = .next t) :
    t.pwr = (if a = .rstN false then .off else s.pwr) ∧
      ∀ v, .setPwr v ∈ t.seq.todo ∨ .setPwr v ∈ t.seq.onTimeout →
        .setPwr v ∈ s.seq.todo ∨ .setPwr v ∈ s.seq.onTimeout := by
  cases a with
  | write addr v =>
    obtain ⟨u, hu, h⟩ := hostWrite_cases h
    rw [hg] at h
    cases h
    simpa [PowerKept] using written_powerKept hu
  | read addr =>
    rw [access, hg, hostRead_eq] at h
    cases h
    exact ⟨rfl, fun _ => id⟩
  | rstN level =>
    rw [access, hg] at h
    cases h
    cases level with
    | true => exact ⟨rfl, fun _ => id⟩
    | false => exact ⟨rfl, fun v hv => by simp [State.driveRst, State.applyReset, State.resetOf, Seq.idle] at hv⟩

/-! ### The ticks behind an access -/

theorem startOf_withGap (i : Instr) (g : Nat) (s : State) : startOf i (s.withGap g) = (startOf i s).withGap g := by
  cases hb : s.busy with
  | true => rw [startOf_busy hb, startOf_busy (s := s.withGap g) hb]; rfl
  | false =>
    cases hw : WellFormed i with
    | true =>
      rw [startOf_launched hb hw, startOf_launched (s := s.withGap g) hb hw,
        planOf_congr i (s := (s.withGap g).launch _) (t := s.launch (encode i)) rfl rfl rfl rfl]
      cases planOf i (s.launch (encode i)) <;> rfl
    | false => rw [startOf_refused hb hw, startOf_refused (s := s.withGap g) hb hw]; rfl

theorem hostRead_withGap (addr : BitVec 8) (g : Nat) (s : State) :
    (s.withGap g).hostRead addr = (s.hostRead addr).withGap g := by
  cases hr : s.inputs.rstN with
  | false => rw [hostRead_in_reset hr, hostRead_in_reset (s := s.withGap g) hr]
  | true => rw [hostRead_accepted hr, hostRead_accepted (s := s.withGap g) hr]; rfl

theorem writeReg_withGap (addr : BitVec 8) (v : Word) (g : Nat) (s : State) :
    (s.withGap g).writeReg addr v = (s.writeReg addr v).withGap g := by
  unfold State.writeReg
  split <;> rfl

theorem hostWrite_withGap (addr : BitVec 8) (v : Word) (g : Nat) (s : State) :
    hostWrite addr v (s.withGap g) =
      andThen (hostWrite addr v (s.withGap 0)) fun u => ticks g (u.withGap g) := by
  cases hr : s.inputs.rstN with
  | false =>
    rw [hostWrite_in_reset (s := s.withGap g) hr, hostWrite_in_reset (s := s.withGap 0) hr]
    rfl
  | true =>
    rw [hostWrite_accepted (s := s.withGap g) hr, hostWrite_accepted (s := s.withGap 0) hr]
    split
    · unfold writeCmd
      split
      · rw [exec_eq, exec_eq, startOf_withGap, startOf_withGap]
        rfl
      · cases hb : s.busy with
        | true => rw [runIllegal_busy (s := s.withGap g) hb, runIllegal_busy (s := s.withGap 0) hb]; rfl
        | false =>
          rw [runIllegal_idle (s := s.withGap g) hb, runIllegal_idle (s := s.withGap 0) hb]
          exact (ticks_idle (s := (s.refuse v).withGap g) rfl g).symm
    · rw [writeReg_withGap, writeReg_withGap]
      rfl

/-- An access followed by `g` ticks is the access alone and then the ticks. -/
theorem access_withGap (a : Access) (g : Nat) (s : State) :
    access a (s.withGap g) = andThen (access a (s.withGap 0)) fun u => ticks g (u.withGap g) := by
  cases a with
  | write addr v => exact hostWrite_withGap addr v g s
  | read addr => rw [access, access, hostRead_withGap, hostRead_withGap]; rfl
  | rstN level => cases level <;> rfl

/-- Settles O30: the causes of `tick_pwr`, where the last action of a sequence comes from, and an access that
keeps both. -/
theorem powerMovesOnlyAsListed : Obligations.PowerMovesOnlyAsListed := by
  refine ⟨fun s t hs h => ?_, fun s t v h hv => tick_brings_setPwr h hv,
    fun s rest hb => ⟨tick_powerOn hb, tick_powerOff hb⟩, fun s t a rest hm h => ?_, fun s a g rest hm => ?_⟩
  · obtain hp | ⟨hoff, hon, hhead⟩ | ⟨hoff, hhead⟩ | ⟨hfault, hhead, htr⟩ := tick_pwr hs h
    · rw [hp]
      exact ⟨by cases s.pwr <;> rfl, by simp, by simp, by simp⟩
    · rw [hoff, hon]
      exact ⟨rfl, fun _ _ => ⟨rfl, hhead⟩, by simp, by simp⟩
    · rw [hoff]
      exact ⟨by cases s.pwr <;> rfl, by simp, fun _ _ => hhead, by simp⟩
    · rw [hfault]
      exact ⟨by cases s.pwr <;> rfl, by simp, by simp, fun _ _ => ⟨hhead, htr⟩⟩
  · rw [step_of_move hm] at h
    exact access_pwr (s := { s with inputs := { s.inputs with moves := rest, gap := 0 } }) rfl h
  · rw [step_of_move hm]
    exact access_withGap a g { s with inputs := { s.inputs with moves := rest } }

end Sys2Proof.Machine
end

section
/-! The host registers (O5, O8 to O12, O16): what a step does for one access, and the fields of the register
words. -/

namespace Sys2Proof.Machine

open Sys2Proof

/-! ### Steps of one access -/

/-- The state in which a placed access is performed. -/
def State.afterMove (rest : List Move) (g : Nat) (s : State) : State :=
  { s with inputs := { s.inputs with moves := rest, gap := g } }

/-- The state in which a line of the host's program is performed. -/
def State.afterLine (rest : List HostLine) (g : Nat) (s : State) : State :=
  { s with inputs := { s.inputs with program := rest, gap := g } }

theorem hostWrite_cmd {s : State} {w : Word} {i : Instr} (hd : decode w = .command i)
    (hr : s.inputs.rstN = true) : hostWrite 0x00 w s = exec i s := by
  rw [hostWrite_accepted hr, if_pos rfl, writeCmd, hd]

/-- Settles O5: the write, placed or of the host's program, reaches `CMD`, where the decoder hands it on. -/
theorem stepRunsTheDecodedCommand : Obligations.StepRunsTheDecodedCommand := by
  intro s w i g hd hr
  refine ⟨fun rest hm => ?_, fun rest hm hp => ?_⟩
  · rw [step_of_move hm]
    exact hostWrite_cmd hd hr
  · rw [step_of_line hm hp]
    exact hostWrite_cmd hd hr

theorem access_read {s : State} (hr : s.inputs.rstN = true) (a : BitVec 8) :
    access (.read a) s = ticks s.inputs.gap (s.readReg a) := by
  rw [access, hostRead_accepted hr]

theorem access_write {s : State} (hr : s.inputs.rstN = true) {a : BitVec 8} (ha : a ≠ 0x00) (v : Word) :
    access (.write a v) s = ticks s.inputs.gap (s.writeReg a v) := by
  rw [access, hostWrite_accepted hr, if_neg ha]

/-- A placed read, while reset is not asserted. -/
theorem step_of_read {s : State} {a : BitVec 8} {g : Nat} {rest : List Move} (hr : s.inputs.rstN = true)
    (hm : s.inputs.moves = ⟨.read a, g⟩ :: rest) :
    step s = ticks g { s with rdata := regRead a s, inputs := { s.inputs with moves := rest, gap := g } } :=
  (step_of_move hm).trans (access_read (s := s.afterMove rest g) hr a)

/-- A placed write to a register other than `CMD`, while reset is not asserted. -/
theorem step_of_write {s : State} {a : BitVec 8} {v : Word} {g : Nat} {rest : List Move}
    (hr : s.inputs.rstN = true) (hm : s.inputs.moves = ⟨.write a v, g⟩ :: rest) (ha : a ≠ 0x00) :
    step s = ticks g (State.writeReg a v { s with inputs := { s.inputs with moves := rest, gap := g } }) :=
  (step_of_move hm).trans (access_write (s := s.afterMove rest g) hr ha v)

/-- Settles O8: a read is `readReg`, which writes `reg_rdata` alone, and an idle block lets ticks pass. -/
theorem hostReadHasNoSideEffect : Obligations.HostReadHasNoSideEffect := by
  refine ⟨fun s g rest hr hm hp => ⟨fun hb => ?_, fun hb => ?_⟩,
    fun s a g rest hr hm => ⟨?_, fun hb => ?_, ?_⟩⟩
  · refine (step_of_line hm hp).trans ((hostWait_busy (s := s.afterLine rest g) hr hb).trans ?_)
    show ticks (g + 1)
      { s with rdata := regRead 0x10 s, inputs := { s.inputs with program := ⟨.wait, g⟩ :: rest, gap := g } } = _
    rw [← hp]
  · exact (step_of_line hm hp).trans (hostWait_idle (s := s.afterLine rest g) hr hb)
  · exact step_of_read hr hm
  · rw [step_of_read hr hm]
    exact ticks_idle (s := (s.afterMove rest g).readReg a) hb g
  · rintro rfl
    rfl

/-- Settles O11: the write is `writeReg`, and the read shows the field that it wrote. -/
theorem writesReachTheReadWriteRegisters : Obligations.WritesReachTheReadWriteRegisters := by
  intro s v g rest after
  exact ⟨fun hr hm => step_of_write hr hm (by decide), fun hr hm => step_of_write hr hm (by decide),
    fun hr hm => step_of_write hr hm (by decide), rfl, rfl, rfl⟩

/-- Settles O12: the write is `writeStatus`, the read `readReg`, and completion sets `DONE`. -/
theorem statusWriteClearsTheNamedFlags : Obligations.StatusWriteClearsTheNamedFlags := by
  intro s v g rest after
  refine ⟨fun hr hm => ?_, fun hr hm => step_of_read hr hm, fun hb ht => ⟨_, tick_done hb ht, rfl, rfl⟩⟩
  have hclear : ∀ flag named : Bool, (flag && !named) = if named then false else flag := by decide
  rw [step_of_write hr hm (by decide)]
  show ticks g (State.writeStatus v after) = _
  simp only [State.writeStatus, bit, hclear]
  rfl

/-! ### The fields of the register words -/

theorem getLsbD_append_ofBool {v : Nat} (x : BitVec v) (b : Bool) : (x ++ BitVec.ofBool b).getLsbD 0 = b := by
  rw [BitVec.getLsbD_append, if_pos (by decide)]
  cases b <;> rfl

theorem getLsbD_append_high {v w k : Nat} (x : BitVec v) (y : BitVec w) (h : w ≤ k) :
    (x ++ y).getLsbD k = x.getLsbD (k - w) := by
  rw [BitVec.getLsbD_append, if_neg (by omega)]

theorem getLsbD_append_zero {v : Nat} (x : BitVec v) : (x ++ 0#1).getLsbD 0 = false := by
  rw [BitVec.getLsbD_append]
  rfl

/-- The single bits of `STATUS` behind `BUSY` (R40). -/
theorem statusWord_bits (s : State) :
    (statusWord s).getLsbD 1 = s.done ∧ (statusWord s).getLsbD 2 = s.err ∧
      (statusWord s).getLsbD 3 = s.overrun ∧ (statusWord s).getLsbD 10 = cfgOk s.params ∧
      (statusWord s).getLsbD 11 = false := by
  refine ⟨?_, ?_, ?_, ?_, ?_⟩
  · exact (getLsbD_append_high _ _ (by decide)).trans (getLsbD_append_ofBool _ _)
  · iterate 2 refine (getLsbD_append_high _ _ (by decide)).trans ?_
    exact getLsbD_append_ofBool _ _
  · iterate 3 refine (getLsbD_append_high _ _ (by decide)).trans ?_
    exact getLsbD_append_ofBool _ _
  · iterate 6 refine (getLsbD_append_high _ _ (by decide)).trans ?_
    exact getLsbD_append_ofBool _ _
  · iterate 7 refine (getLsbD_append_high _ _ (by decide)).trans ?_
    exact getLsbD_append_zero _

/-- The fields of `STATUS` of more than one bit (R40), each behind the fields below it. -/
theorem statusWord_fields (s : State) :
    (statusWord s).extractLsb' 4 4 = codeBits s.errcode ∧ (statusWord s).extractLsb' 8 2 = pwrBits s.pwr ∧
      (statusWord s).extractLsb' 12 2 = stageBits s.stage ∧ (statusWord s).extractLsb' 14 18 = 0 := by
  refine ⟨?_, ?_, ?_, ?_⟩
  · iterate 4 refine (BitVec.extractLsb'_append_eq_of_le (by decide)).trans ?_
    exact BitVec.extractLsb'_append_eq_right
  · iterate 5 refine (BitVec.extractLsb'_append_eq_of_le (by decide)).trans ?_
    exact BitVec.extractLsb'_append_eq_right
  · iterate 8 refine (BitVec.extractLsb'_append_eq_of_le (by decide)).trans ?_
    exact BitVec.extractLsb'_append_eq_right
  · iterate 9 refine (BitVec.extractLsb'_append_eq_of_le (by decide)).trans ?_
    rfl

/-- Settles O9: the bits and fields of `statusWord`, and the numbers of their values. -/
theorem statusShowsItsFields : Obligations.StatusShowsItsFields := by
  intro s
  obtain ⟨hdone, herr, hover, hcfg, hzero⟩ := statusWord_bits s
  obtain ⟨hcode, hpwr, hstage, hres⟩ := statusWord_fields s
  exact ⟨statusWord_busy s, hdone, herr, hover, hcode.trans (by cases s.errcode <;> rfl),
    hpwr.trans (by cases s.pwr <;> rfl), hcfg, hzero, hstage.trans (by cases s.stage <;> rfl), hres⟩

/-- A step at which the host writes a read-only register (R34). -/
theorem step_ignores {s : State} {a : BitVec 8} {v : Word} {g : Nat} {rest : List Move}
    (ha : a ∈ ([0x14, 0x18, 0x1C, 0x20, 0x24, 0x28, 0x2C, 0x30] : List (BitVec 8)))
    (hr : s.inputs.rstN = true) (hm : s.inputs.moves = ⟨.write a v, g⟩ :: rest) :
    step s = ticks g { s with inputs := { s.inputs with moves := rest, gap := g } } := by
  simp only [List.mem_cons, List.not_mem_nil, or_false] at ha
  rcases ha with rfl | rfl | rfl | rfl | rfl | rfl | rfl | rfl <;> exact step_of_write hr hm (by decide)

/-- The fields of `TEMP` (R42). -/
theorem tempWord_fields (s : State) :
    (tempWord s).extractLsb' 0 8 = s.tempC ∧ (tempWord s).extractLsb' 8 8 = 0 ∧
      (tempWord s).extractLsb' 16 16 = s.factor := by
  refine ⟨BitVec.extractLsb'_append_eq_right, ?_, ?_⟩
  · exact (BitVec.extractLsb'_append_eq_of_le (by decide)).trans BitVec.extractLsb'_append_eq_right
  · exact (BitVec.extractLsb'_append_eq_of_le (by decide)).trans BitVec.extractLsb'_append_eq_left

/-- The fields of a register of two halves (R44, R46, R47). -/
theorem halves_fields (high low : BitVec 16) :
    (high ++ low).extractLsb' 0 16 = low ∧ (high ++ low).extractLsb' 16 16 = high :=
  ⟨BitVec.extractLsb'_append_eq_right, BitVec.extractLsb'_append_eq_left⟩

/-- The fields of `GEOM2` (R48). -/
theorem geom2Word_fields (p : Params) :
    (geom2Word p).extractLsb' 0 16 = BitVec.ofNat 16 p.segHeight ∧
      (geom2Word p).getLsbD 16 = (p.compMode == .dualBuffer) ∧
      (geom2Word p).getLsbD 17 = (p.tempSrc == .sensor) ∧ (geom2Word p).extractLsb' 18 14 = 0 := by
  refine ⟨BitVec.extractLsb'_append_eq_right, ?_, ?_, ?_⟩
  · exact (getLsbD_append_high _ _ (by decide)).trans (getLsbD_append_ofBool _ _)
  · iterate 2 refine (getLsbD_append_high _ _ (by decide)).trans ?_
    exact getLsbD_append_ofBool _ _
  · iterate 3 refine (BitVec.extractLsb'_append_eq_of_le (by decide)).trans ?_
    rfl

/-- Settles O10: the fields of each register word, and a write that `writeReg` ignores. -/
theorem readOnlyRegistersShowTheirFields : Obligations.ReadOnlyRegistersShowTheirFields := by
  intro s v g rest
  have hsegment : (segmentWord s).extractLsb' 0 16 = s.seg ∧ (s.params.segHeight ≠ 0 →
      (segmentWord s).extractLsb' 16 16 = BitVec.ofNat 16 (s.params.rows / s.params.segHeight)) := by
    refine ⟨(halves_fields _ _).1, fun hh => (halves_fields _ _).2.trans ?_⟩
    rw [segCount, if_neg hh]
  exact ⟨tempWord_fields s, rfl, hsegment, rfl, halves_fields _ _, halves_fields _ _, geom2Word_fields s.params,
    rfl, fun a ha hr hm => step_ignores ha hr hm⟩

/-- Settles O16: the table of R63 is `State.resetOf` itself, but for `factor` (`Factor(25)` is 10 when
`CFG_OK = 1`) and `STATUS`, whose one bit that may be 1 is `CFG_OK`. -/
theorem resetLeavesTheListedValues : Obligations.ResetLeavesTheListedValues := by
  intro p
  have hfactor : (State.resetOf p).factor = (if cfgOk p then 10 else 0) := by
    show (if cfgOk p then BitVec.ofNat 16 (tempFactor p 25) else 0) = _
    cases hc : cfgOk p with
    | true => rw [if_pos rfl, tempFactor_25 hc]; rfl
    | false => rfl
  have hstatus : regRead 0x10 (State.resetOf p) = (if cfgOk p then 0x400 else 0) := by
    show 0#18 ++ 0#2 ++ 0#1 ++ BitVec.ofBool (cfgOk p) ++ 0#2 ++ 0#4 ++ 0#1 ++ 0#1 ++ 0#1 ++ 0#1 = _
    cases cfgOk p <;> rfl
  exact ⟨rfl, rfl, rfl, hfactor, rfl, fun _ => rfl, fun _ => rfl, rfl, rfl, rfl, hstatus, rfl, rfl, rfl, rfl, rfl,
    rfl, rfl, rfl⟩

end Sys2Proof.Machine
end

section
/-! Addresses with no register behind them (O13): every register of R34 is at a multiple of 4 below `0x34`. -/

namespace Sys2Proof.Machine

open Sys2Proof

theorem noRegister_toNat {a : BitVec 8} (h : a.extractLsb' 0 2 ≠ 0 ∨ 0x34 ≤ a.toNat) :
    a.toNat % 4 ≠ 0 ∨ 0x34 ≤ a.toNat := by
  refine h.imp_left fun hne hz => hne ?_
  apply BitVec.eq_of_toNat_eq
  simpa [BitVec.extractLsb'_toNat] using hz

theorem regRead_noRegister {a : BitVec 8} (h : a.extractLsb' 0 2 ≠ 0 ∨ 0x34 ≤ a.toNat) (s : State) :
    regRead a s = 0 := by
  have hnat := noRegister_toNat h
  unfold regRead
  split
  case h_13 => rfl
  all_goals omega

theorem writeReg_noRegister {a : BitVec 8} (h : a.extractLsb' 0 2 ≠ 0 ∨ 0x34 ≤ a.toNat) (v : Word) (s : State) :
    s.writeReg a v = s := by
  have hnat := noRegister_toNat h
  unfold State.writeReg
  split
  case h_5 => rfl
  all_goals omega

/-- Settles O13: a read of such an address shows 0, and `writeReg` ignores it; it is not `CMD` either. -/
theorem misalignedAndReservedAccessesDoNothing : Obligations.MisalignedAndReservedAccessesDoNothing := by
  intro s a v g rest h hr after
  refine ⟨fun hm => ?_, fun hm => ?_⟩
  · rw [step_of_read hr hm, regRead_noRegister h]
  · have hcmd : a ≠ 0x00 := by
      rintro rfl
      exact absurd h (by decide)
    rw [step_of_write hr hm hcmd, writeReg_noRegister h]

end Sys2Proof.Machine
end

section
/-! The drawing translator: an in-segment pixel as a column and a row of its segment (`PixelAt`), its place in
`RES` (O56), and the segments as parts of the whole canvas (O57). -/

namespace Sys2Proof.Machine

open Sys2Proof

/-! ### The place of a pixel (R92 to R95) -/

/-- Canvas coordinates `x`, `y` of segment `seg`: column `i`, row `k` of the segment. -/
structure PixelAt (p : Params) (seg : Nat) (x y : Int) (i k : Nat) : Prop where
  x_eq : x = i
  y_eq : y = (seg * p.segHeight + k : Nat)
  column : i < p.columns
  row : k < p.segHeight
  canvas : seg * p.segHeight + k < p.rows

theorem PixelAt.translate_eq {p : Params} {seg : Nat} {x y : Int} {i k : Nat} (h : PixelAt p seg x y i k) :
    translate p seg x y = pixelPlace p i k := by
  obtain ⟨rfl, rfl, hcol, hrow, hcanvas⟩ := h
  rw [translate, if_neg (by omega), if_neg (by omega), Int.toNat_natCast, Int.toNat_natCast, Nat.add_sub_cancel_left]

theorem pixelAt_of_bounds {p : Params} {seg : Nat} {x y : Int} (hx : 0 ≤ x) (hcol : x < p.columns) (hy : 0 ≤ y)
    (hrow : y < p.rows) (hlo : (seg * p.segHeight : Nat) ≤ y) (hhi : y < (seg * p.segHeight + p.segHeight : Nat)) :
    PixelAt p seg x y x.toNat (y.toNat - seg * p.segHeight) :=
  ⟨by omega, by omega, by omega, by omega, by omega⟩

/-- The translator answers a place exactly for an in-segment pixel, and then the place of R94. -/
theorem translate_eq_at_iff {p : Params} {seg : Nat} {x y : Int} {b : Nat} {m : Byte} :
    translate p seg x y = .at b m ↔ ∃ i k, PixelAt p seg x y i k ∧ pixelPlace p i k = .at b m := by
  constructor
  · intro h
    unfold translate at h
    split at h
    · cases h
    · split at h
      · cases h
      · refine ⟨_, _, pixelAt_of_bounds ?_ ?_ ?_ ?_ ?_ ?_, h⟩ <;> omega
  · rintro ⟨i, k, hin, h⟩
    exact hin.translate_eq.trans h

theorem pixelPlace_eq_at_iff {p : Params} {i k b : Nat} {m : Byte} :
    pixelPlace p i k = .at b m ↔ i / 8 + k * p.bpr = b ∧ 1#8 <<< (i % 8) = m := by
  simp [pixelPlace]

theorem PixelAt.byte_lt_bpr {p : Params} {seg : Nat} {x y : Int} {i k : Nat} (h : PixelAt p seg x y i k)
    (hcol : p.columns = 8 * p.bpr) : i / 8 < p.bpr := by
  have := h.column
  omega

/-- A byte of a row and a row are known from the byte's index. -/
theorem rowByte_inj {n a a' k k' : Nat} (ha : a < n) (ha' : a' < n) (h : a + k * n = a' + k' * n) :
    a = a' ∧ k = k' := by
  have hmod := congrArg (· % n) h
  have hdiv := congrArg (· / n) h
  simp only [Nat.add_mul_mod_self_right, Nat.mod_eq_of_lt ha, Nat.mod_eq_of_lt ha'] at hmod
  simp only [Nat.add_mul_div_right _ _ (Nat.zero_lt_of_lt ha), Nat.div_eq_of_lt ha, Nat.div_eq_of_lt ha',
    Nat.zero_add] at hdiv
  exact ⟨hmod, hdiv⟩

theorem oneBit_inj : ∀ k < 8, ∀ l < 8, 1#8 <<< k = 1#8 <<< l → k = l := by decide

/-- Distinct in-segment pixels have distinct places (R95). -/
theorem PixelAt.place_inj {p : Params} {seg : Nat} {x y x' y' : Int} {i k i' k' : Nat} (hc : cfgOk p = true)
    (h : PixelAt p seg x y i k) (h' : PixelAt p seg x' y' i' k') (he : pixelPlace p i k = pixelPlace p i' k') :
    x = x' ∧ y = y' := by
  obtain ⟨hbyte, hmask⟩ := pixelPlace_eq_at_iff.mp he
  obtain ⟨hdiv, rfl⟩ := rowByte_inj (h.byte_lt_bpr (columns_eq hc)) (h'.byte_lt_bpr (columns_eq hc)) hbyte
  have hmod := oneBit_inj _ (Nat.mod_lt i (by decide)) _ (Nat.mod_lt i' (by decide)) hmask
  obtain rfl : i = i' := by omega
  exact ⟨h.x_eq.trans h'.x_eq.symm, h.y_eq.trans h'.y_eq.symm⟩

/-- Settles O56: an in-segment pixel has the place of R94, which is inside `RES` and tells column and row. -/
theorem placesAreInsideAndDistinct : Obligations.PlacesAreInsideAndDistinct := by
  intro p seg x y x' y' b b' m m' hc
  refine ⟨fun hx hcol hy hrow hlo hhi => ?_, fun h => ?_, fun h h' hb hm => ?_⟩
  · exact ⟨_, _, (pixelAt_of_bounds hx hcol hy hrow hlo hhi).translate_eq⟩
  · obtain ⟨i, k, -, hplace⟩ := translate_eq_at_iff.mp h
    exact ⟨translate_at_lt hc h, i % 8, Nat.mod_lt i (by decide), (pixelPlace_eq_at_iff.mp hplace).2.symm⟩
  · obtain ⟨i, k, hin, hplace⟩ := translate_eq_at_iff.mp h
    obtain ⟨i', k', hin', hplace'⟩ := translate_eq_at_iff.mp h'
    subst hb hm
    exact hin.place_inj hc hin' (hplace.trans hplace'.symm)

/-! ### Segments and the whole canvas (R95, R217 (e)) -/

/-- Row `k` of a segment is row `seg * H + k` of the unsegmented canvas. -/
theorem PixelAt.onCanvas {p : Params} {seg : Nat} {x y : Int} {i k : Nat} (h : PixelAt p seg x y i k) :
    PixelAt (unsegmented p) 0 x y i (seg * p.segHeight + k) :=
  ⟨h.x_eq, by simpa using h.y_eq, h.column, h.canvas, by simpa [unsegmented] using h.canvas⟩

/-- A row of the unsegmented canvas that lies in a segment. -/
theorem PixelAt.inSegment {p : Params} {seg : Nat} {x y : Int} {i k : Nat}
    (h : PixelAt (unsegmented p) 0 x y i k) (hlo : seg * p.segHeight ≤ k)
    (hhi : k < seg * p.segHeight + p.segHeight) : PixelAt p seg x y i (k - seg * p.segHeight) := by
  obtain ⟨hx, hy, hcol, hrow, -⟩ := h
  rw [Nat.zero_mul, Nat.zero_add] at hy
  have hk : seg * p.segHeight + (k - seg * p.segHeight) = k := by omega
  refine ⟨hx, by rw [hk]; exact hy, hcol, by omega, ?_⟩
  rw [hk]
  exact hrow

/-- The bytes of the segments lie end to end in the unsegmented buffer. -/
theorem segment_byte_eq (p : Params) (seg i k : Nat) :
    i / 8 + (seg * p.segHeight + k) * p.bpr = seg * resSize p + (i / 8 + k * p.bpr) := by
  rw [resSize]
  ring

/-- A byte of the unsegmented buffer that belongs to a segment belongs to a row of that segment. -/
theorem row_in_segment {p : Params} {seg a k j : Nat} (ha : a < p.bpr) (hj : j < resSize p)
    (h : a + k * p.bpr = seg * resSize p + j) :
    seg * p.segHeight ≤ k ∧ k < seg * p.segHeight + p.segHeight := by
  have hlo : seg * p.segHeight * p.bpr < (k + 1) * p.bpr := by
    calc seg * p.segHeight * p.bpr = seg * resSize p := by rw [resSize]; ring
      _ ≤ a + k * p.bpr := by omega
      _ < (k + 1) * p.bpr := by rw [Nat.succ_mul]; omega
  have hhi : k * p.bpr < (seg * p.segHeight + p.segHeight) * p.bpr := by
    calc k * p.bpr ≤ seg * resSize p + j := by omega
      _ < seg * resSize p + resSize p := by omega
      _ = (seg * p.segHeight + p.segHeight) * p.bpr := by rw [resSize]; ring
  exact ⟨Nat.le_of_lt_succ (Nat.lt_of_mul_lt_mul_right hlo), Nat.lt_of_mul_lt_mul_right hhi⟩

/-- A pixel is at a byte of a segment exactly if it is at that byte of the unsegmented buffer. -/
theorem translate_unsegmented_iff {p : Params} {seg j : Nat} {x y : Int} {m : Byte} (hc : cfgOk p = true)
    (hj : j < resSize p) :
    translate (unsegmented p) 0 x y = .at (seg * resSize p + j) m ↔ translate p seg x y = .at j m := by
  simp only [translate_eq_at_iff, pixelPlace_eq_at_iff]
  constructor
  · rintro ⟨i, k, h, hbyte, hmask⟩
    have hlt : i / 8 < p.bpr := h.byte_lt_bpr (columns_eq (p := p) hc)
    obtain ⟨hlo, hhi⟩ := row_in_segment hlt hj hbyte
    refine ⟨i, k - seg * p.segHeight, h.inSegment hlo hhi, ?_, hmask⟩
    have := segment_byte_eq p seg i (k - seg * p.segHeight)
    rw [Nat.add_sub_cancel' hlo] at this
    exact Nat.add_left_cancel (this.symm.trans hbyte)
  · rintro ⟨i, k, h, hbyte, hmask⟩
    exact ⟨i, seg * p.segHeight + k, h.onCanvas, hbyte ▸ segment_byte_eq p seg i k, hmask⟩

/-- A call paints the byte where its pixel is. -/
theorem memRead_drawPixel_at {p : Params} {seg j : Nat} {call : PixelCall} {mask : Byte}
    (h : translate p seg call.1 call.2.1 = .at j mask) (m : List Host.Cell) :
    memRead (drawPixel p seg m call) j = paintByte mask call.2.2 (memRead m j) := by
  rw [drawPixel, h]
  exact memRead_memWrite_self ..

/-- A call leaves every other byte alone. -/
theorem memRead_drawPixel_elsewhere {p : Params} {seg j : Nat} {call : PixelCall}
    (h : ∀ mask, translate p seg call.1 call.2.1 ≠ .at j mask) (m : List Host.Cell) :
    memRead (drawPixel p seg m call) j = memRead m j := by
  unfold drawPixel
  split
  · rename_i b mask hplace
    refine memRead_memWrite_of_ne m _ ?_
    rintro rfl
    exact h mask hplace
  · rfl
  · rfl

/-- One call keeps a byte of the segment equal to its byte in the unsegmented buffer. -/
theorem drawPixel_tiles {p : Params} {seg j : Nat} {m m' : List Host.Cell} (hc : cfgOk p = true)
    (hj : j < resSize p) (h : memRead m j = memRead m' (seg * resSize p + j)) (call : PixelCall) :
    memRead (drawPixel p seg m call) j =
      memRead (drawPixel (unsegmented p) 0 m' call) (seg * resSize p + j) := by
  by_cases hat : ∃ mask, translate p seg call.1 call.2.1 = .at j mask
  · obtain ⟨mask, hat⟩ := hat
    rw [memRead_drawPixel_at hat, memRead_drawPixel_at ((translate_unsegmented_iff hc hj).mpr hat), h]
  · rw [not_exists] at hat
    rw [memRead_drawPixel_elsewhere hat,
      memRead_drawPixel_elsewhere fun mask => mt (translate_unsegmented_iff hc hj).mp (hat mask), h]

/-- Settles O57: both buffers begin white, and each call keeps the byte and its counterpart equal. -/
theorem segmentsTileTheCanvas : Obligations.SegmentsTileTheCanvas := by
  intro p seg calls j hc _ hj
  exact List.foldl_rel (r := fun m m' => memRead m j = memRead m' (seg * resSize p + j)) rfl
    fun call _ _ _ h => drawPixel_tiles hc hj h call

end Sys2Proof.Machine
end

section
/-! Progress (O49): with its operands in range a micro-operation has a next state (R80), so every tick from a
state that meets `Inv` has one, and a step is what reaches the block followed by ticks. -/

namespace Sys2Proof.Machine

open Sys2Proof

/-! ### Micro-operations and ticks -/

/-- Source row `k` lies inside a buffer of `h` rows that holds it. -/
theorem row_inside {k h n : Nat} (hk : k + 1 ≤ h) : k * n + n ≤ n * h := by
  calc k * n + n = n * (k + 1) := by ring
    _ ≤ n * h := Nat.mul_le_mul_left n hk

theorem readRes_progress {k : Nat} {s : State} (hk : k + 1 ≤ s.params.segHeight) (f : List Byte → Result) :
    readRes (k * s.params.bpr) s.params.bpr s f = f (memBytes s.res (k * s.params.bpr) s.params.bpr) :=
  if_pos (row_inside hk)

theorem readOld_progress {k : Nat} {s : State} (hd : s.params.compMode = .dualBuffer) (hk : k + 1 ≤ s.params.rows)
    (f : List Byte → Result) :
    readOld (k * s.params.bpr) s.params.bpr s f = f (memBytes s.old (k * s.params.bpr) s.params.bpr) := by
  refine if_pos ?_
  rw [oldSize, hd]
  exact row_inside hk

theorem doRow_progress {st : Stage} {sd : SrcDesc} {r k : Nat} {s : State}
    (h : srcFits s.params sd.src (k + 1) = true) : ∃ t, doRow st sd r k s = .next t := by
  unfold doRow
  split
  · exact ⟨_, rfl⟩
  · rename_i hsrc
    rw [hsrc, srcFits, decide_eq_true_eq] at h
    rw [readRes_progress h]
    exact ⟨_, rfl⟩
  · rename_i hsrc
    simp only [hsrc, srcFits, Bool.and_eq_true, beq_iff_eq, decide_eq_true_eq] at h
    rw [readOld_progress h.1 h.2]
    exact ⟨_, rfl⟩
  · exact ⟨_, rfl⟩

/-- A micro-operation in range touches bytes that exist only: `paint` and `row` alone could fault. -/
theorem runMicro_progress {m : Micro} {s : State} (h : microOk s.params m = true) :
    ∃ t, runMicro m s = .next t := by
  cases m with
  | paint byteIx mask black => exact ⟨_, if_pos (of_decide_eq_true h)⟩
  | row st sd r k => exact doRow_progress (Bool.and_eq_true_iff.mp h).2
  | _ => exact ⟨_, rfl⟩

theorem tick_progress {s : State} (hs : Inv s) : ∃ t, tick s = .next t := by
  cases hb : s.busy with
  | false => exact ⟨s, tick_idle hb⟩
  | true =>
    cases ht : s.seq.todo with
    | nil => exact ⟨_, tick_done hb ht⟩
    | cons m rest =>
      obtain ⟨-, -, hlist, -⟩ := (inv_iff s).mp hs
      have hok := hlist.inRange
      rw [ht, List.all_cons, Bool.and_eq_true] at hok
      rw [tick_head hb ht]
      exact runMicro_progress hok.1

theorem ticks_progress (n : Nat) {s : State} (hs : Inv s) : ∃ t, ticks n s = .next t := by
  induction n generalizing s with
  | zero => exact ⟨s, rfl⟩
  | succ n ih =>
    obtain ⟨u, hu⟩ := tick_progress hs
    rw [ticks_succ, hu]
    exact ih (tick_inv hs hu)

/-! ### A step is ticks

The equations behind `hostWrite_cases`, `access_cases` and `step_cases`, which speak of a step that is known to
have a next state. -/

/-- A host write is what it leaves, and then ticks. -/
theorem hostWrite_eq_ticks (addr : BitVec 8) (v : Word) (s : State) :
    ∃ u n, Written s u ∧ hostWrite addr v s = ticks n u := by
  cases hr : s.inputs.rstN with
  | false => exact ⟨s, _, .nothing, hostWrite_in_reset hr addr v⟩
  | true =>
    rw [hostWrite_accepted hr]
    split
    · unfold writeCmd
      split
      · exact ⟨_, _, .command hr _, exec_eq _ _⟩
      · cases hb : s.busy with
        | true => exact ⟨_, _, .dropped hr hb, runIllegal_busy hb v⟩
        | false => exact ⟨_, 0, .refused hr hb v, runIllegal_idle hb v⟩
    · exact ⟨_, _, .register hr addr v, rfl⟩

theorem access_eq_ticks (a : Access) (s : State) :
    ∃ s' u n, HostMoves s s' ∧ Arrives s' u ∧ access a s = ticks n u := by
  cases a with
  | write addr v =>
    obtain ⟨u, n, hu, h⟩ := hostWrite_eq_ticks addr v s
    exact ⟨s, u, n, .refl s, .written hu, h⟩
  | read addr => exact ⟨_, _, _, hostRead_moves addr s, .written .nothing, rfl⟩
  | rstN level => exact ⟨s, _, _, .refl s, .reset level, rfl⟩

theorem goOnWith_moves (ops : List HostOp) (s : State) : HostMoves s (s.goOnWith ops) :=
  .intro s.rdata _ rfl fun _ => rfl

theorem hostOp_eq_ticks (op : HostOp) (s : State) :
    ∃ s' u n, HostMoves s s' ∧ Arrives s' u ∧ hostOp op s = ticks n u := by
  cases op with
  | wr addr v => exact access_eq_ticks (.write addr v) s
  | rd addr => exact access_eq_ticks (.read addr) s
  | wait =>
    simp only [hostOp, hostWait]
    split
    · exact ⟨_, _, _, (hostRead_moves 0x10 s).trans (goOnWith_moves _ _), .written .nothing, rfl⟩
    · exact ⟨_, _, _, hostRead_moves 0x10 s, .written .nothing, rfl⟩
  | drawChar x y g fg bg scale =>
    simp only [hostOp, hostDrawChar]
    split
    · exact ⟨s, s, _, .refl s, .written .nothing, rfl⟩
    · exact ⟨_, _, _, (hostRead_moves 0x1C s).trans (goOnWith_moves _ _), .written .nothing, rfl⟩
  | countPixel =>
    have hcount : HostMoves s { s with inputs := { s.inputs with outOfBounds := s.inputs.outOfBounds + 1 } } :=
      .intro s.rdata _ rfl fun _ => rfl
    exact ⟨_, _, _, hcount, .written .nothing, rfl⟩

/-- A step is a move of the host, what reaches the block, and then ticks. -/
theorem step_eq_ticks (s : State) : ∃ s' u n, HostMoves s s' ∧ Arrives s' u ∧ step s = ticks n u := by
  cases hm : s.inputs.moves with
  | cons m rest =>
    have hmove : HostMoves s (s.afterMove rest m.gap) := .intro s.rdata _ rfl fun _ => rfl
    obtain ⟨s', u, n, hs, hu, h⟩ := access_eq_ticks m.access (s.afterMove rest m.gap)
    exact ⟨s', u, n, hmove.trans hs, hu, (step_of_move hm).trans h⟩
  | nil =>
    cases hp : s.inputs.program with
    | nil =>
      have hone : ticks 1 s = tick s := by
        rw [ticks_succ]
        cases tick s <;> rfl
      exact ⟨s, s, 1, .refl s, .written .nothing, (step_of_quiet hm hp).trans hone.symm⟩
    | cons l rest =>
      have hline : HostMoves s (s.afterLine rest l.gap) := .intro s.rdata _ rfl fun _ => rfl
      obtain ⟨s', u, n, hs, hu, h⟩ := hostOp_eq_ticks l.op (s.afterLine rest l.gap)
      exact ⟨s', u, n, hline.trans hs, hu, (step_of_line hm hp).trans h⟩

/-- Settles O49: what reaches the block keeps the invariant, and the ticks from there all have a next state. -/
theorem safeStatesAlwaysStep : Obligations.SafeStatesAlwaysStep := by
  intro s hs
  obtain ⟨s', u, n, hmove, harrive, hstep⟩ := step_eq_ticks s
  rw [hstep]
  exact ticks_progress n (arrives_inv (hostMoves_inv hs hmove) harrive)

end Sys2Proof.Machine
end

section
/-! The fields of a word (O1, O2): what each format's word holds in its fields, and that a word with clean
reserved bits is put together from them again. -/

namespace Sys2Proof.Machine

open Sys2Proof

/-! ### Fields of any word -/

/-- Two neighbouring fields are one field. -/
theorem field_append_field {w : Word} {hi lo n m : Nat} (h : hi = lo + n) :
    field w hi m ++ field w lo n = field w lo (m + n) :=
  BitVec.extractLsb'_append_extractLsb'_eq_extractLsb' h

theorem field_and (v w : Word) (lo len : Nat) : field (v &&& w) lo len = field v lo len &&& field w lo len :=
  BitVec.extractLsb'_and

/-- A field of reserved bits of a word whose reserved bits are 0. -/
theorem field_eq_zero {w mask : Word} {lo len : Nat} (hw : w &&& mask = 0)
    (hmask : field mask lo len = BitVec.allOnes len) : field w lo len = 0#len := by
  have hand := field_and w mask lo len
  rw [hw, hmask, BitVec.and_allOnes] at hand
  exact hand.symm.trans BitVec.extractLsb'_zero

/-- A bit is a field of width 1. -/
theorem ofBool_bit (w : Word) (k : Nat) : BitVec.ofBool (bit w k) = field w k 1 := by
  refine BitVec.eq_of_getLsbD_eq fun j hj => ?_
  obtain rfl : j = 0 := by omega
  rw [field, BitVec.getLsbD_extractLsb']
  cases h : bit w k <;> simpa [bit] using h

/-! ### The codes of operands -/

@[simp] theorem stageOfBits_stageBits (stage : Stage) : stageOfBits (stageBits stage) = stage := by
  cases stage <;> rfl

@[simp] theorem srcOfBits_srcBits (src : Src) : srcOfBits (srcBits src) = src := by
  cases src <;> rfl

@[simp] theorem stageBits_stageOfBits : ∀ b : BitVec 2, stageBits (stageOfBits b) = b := by decide

@[simp] theorem srcBits_srcOfBits : ∀ b : BitVec 2, srcBits (srcOfBits b) = b := by decide

/-! ### What a format's word holds in its fields (R112 to R119) -/

@[simp] theorem wordC_byte (op : BitVec 5) (b : Byte) : field (wordC op b) 16 8 = b := by
  iterate 2 refine (BitVec.extractLsb'_append_eq_of_le (by decide)).trans ?_
  exact BitVec.extractLsb'_append_eq_right

@[simp] theorem wordR_stage (op : BitVec 5) (stage : Stage) (src : Src) (fill : Byte) :
    field (wordR op stage src fill) 5 2 = stageBits stage :=
  (BitVec.extractLsb'_append_eq_of_le (by decide)).trans BitVec.extractLsb'_append_eq_right

@[simp] theorem wordR_src (op : BitVec 5) (stage : Stage) (src : Src) (fill : Byte) :
    field (wordR op stage src fill) 7 2 = srcBits src := by
  iterate 2 refine (BitVec.extractLsb'_append_eq_of_le (by decide)).trans ?_
  exact BitVec.extractLsb'_append_eq_right

@[simp] theorem wordR_fill (op : BitVec 5) (stage : Stage) (src : Src) (fill : Byte) :
    field (wordR op stage src fill) 16 8 = fill := by
  iterate 4 refine (BitVec.extractLsb'_append_eq_of_le (by decide)).trans ?_
  exact BitVec.extractLsb'_append_eq_right

@[simp] theorem wordS_newSrc (op : BitVec 5) (newSrc oldSrc : Src) (hasOld : Bool) (fill : Byte) :
    field (wordS op newSrc oldSrc hasOld fill) 7 2 = srcBits newSrc := by
  iterate 2 refine (BitVec.extractLsb'_append_eq_of_le (by decide)).trans ?_
  exact BitVec.extractLsb'_append_eq_right

@[simp] theorem wordS_oldSrc (op : BitVec 5) (newSrc oldSrc : Src) (hasOld : Bool) (fill : Byte) :
    field (wordS op newSrc oldSrc hasOld fill) 9 2 = srcBits oldSrc := by
  iterate 3 refine (BitVec.extractLsb'_append_eq_of_le (by decide)).trans ?_
  exact BitVec.extractLsb'_append_eq_right

@[simp] theorem wordS_hasOld (op : BitVec 5) (newSrc oldSrc : Src) (hasOld : Bool) (fill : Byte) :
    bit (wordS op newSrc oldSrc hasOld fill) 11 = hasOld := by
  iterate 4 refine (getLsbD_append_high _ _ (by decide)).trans ?_
  exact getLsbD_append_ofBool _ _

@[simp] theorem wordS_fill (op : BitVec 5) (newSrc oldSrc : Src) (hasOld : Bool) (fill : Byte) :
    field (wordS op newSrc oldSrc hasOld fill) 16 8 = fill := by
  iterate 6 refine (BitVec.extractLsb'_append_eq_of_le (by decide)).trans ?_
  exact BitVec.extractLsb'_append_eq_right

@[simp] theorem wordG_index (op : BitVec 5) (index : BitVec 16) : field (wordG op index) 16 16 = index :=
  (BitVec.extractLsb'_append_eq_of_le (by decide)).trans BitVec.extractLsb'_append_eq_left

@[simp] theorem wordP_black (op : BitVec 5) (black : Bool) (x y : BitVec 12) :
    bit (wordP op black x y) 5 = black :=
  (getLsbD_append_high _ _ (by decide)).trans (getLsbD_append_ofBool _ _)

@[simp] theorem wordP_x (op : BitVec 5) (black : Bool) (x y : BitVec 12) :
    field (wordP op black x y) 8 12 = x := by
  iterate 3 refine (BitVec.extractLsb'_append_eq_of_le (by decide)).trans ?_
  exact BitVec.extractLsb'_append_eq_right

@[simp] theorem wordP_y (op : BitVec 5) (black : Bool) (x y : BitVec 12) :
    field (wordP op black x y) 20 12 = y := by
  iterate 3 refine (BitVec.extractLsb'_append_eq_of_le (by decide)).trans ?_
  exact BitVec.extractLsb'_append_eq_left

@[simp] theorem wordD_clearFirst (op : BitVec 5) (clearFirst doPwrOn doPwrOff : Bool) :
    bit (wordD op clearFirst doPwrOn doPwrOff) 5 = clearFirst :=
  (getLsbD_append_high _ _ (by decide)).trans (getLsbD_append_ofBool _ _)

@[simp] theorem wordD_doPwrOn (op : BitVec 5) (clearFirst doPwrOn doPwrOff : Bool) :
    bit (wordD op clearFirst doPwrOn doPwrOff) 6 = doPwrOn := by
  iterate 2 refine (getLsbD_append_high _ _ (by decide)).trans ?_
  exact getLsbD_append_ofBool _ _

@[simp] theorem wordD_doPwrOff (op : BitVec 5) (clearFirst doPwrOn doPwrOff : Bool) :
    bit (wordD op clearFirst doPwrOn doPwrOff) 7 = doPwrOff := by
  iterate 3 refine (getLsbD_append_high _ _ (by decide)).trans ?_
  exact getLsbD_append_ofBool _ _

/-! ### A clean word is put together from its fields -/

section
variable {w : Word} {op : BitVec 5} (hop : field w 0 5 = op)
include hop

theorem wordN_eq (hm : w &&& 0xFFFFFFE0 = 0) : wordN op = w := by
  calc wordN op
    _ = field w 5 27 ++ field w 0 5 := by rw [field_eq_zero hm rfl, hop]; rfl
    _ = field w 0 32 := field_append_field rfl
    _ = w := BitVec.extractLsb'_eq_self

theorem wordC_eq (hm : w &&& 0xFF00FFE0 = 0) : wordC op (field w 16 8) = w := by
  calc wordC op (field w 16 8)
    _ = field w 24 8 ++ field w 16 8 ++ field w 5 11 ++ field w 0 5 := by
      rw [field_eq_zero (lo := 24) hm rfl, field_eq_zero (lo := 5) hm rfl, hop]; rfl
    _ = field w 0 32 := by
      repeat rw [field_append_field]
      all_goals rfl
    _ = w := BitVec.extractLsb'_eq_self

theorem wordR_eq (hm : w &&& 0xFF00FE00 = 0) :
    wordR op (stageOfBits (field w 5 2)) (srcOfBits (field w 7 2)) (field w 16 8) = w := by
  calc wordR op (stageOfBits (field w 5 2)) (srcOfBits (field w 7 2)) (field w 16 8)
    _ = field w 24 8 ++ field w 16 8 ++ field w 9 7 ++ field w 7 2 ++ field w 5 2 ++ field w 0 5 := by
      rw [field_eq_zero (lo := 24) hm rfl, field_eq_zero (lo := 9) hm rfl, hop, wordR, stageBits_stageOfBits,
        srcBits_srcOfBits]
    _ = field w 0 32 := by
      repeat rw [field_append_field]
      all_goals rfl
    _ = w := BitVec.extractLsb'_eq_self

theorem wordS_eq (hm : w &&& 0xFF00F060 = 0) :
    wordS op (srcOfBits (field w 7 2)) (srcOfBits (field w 9 2)) (bit w 11) (field w 16 8) = w := by
  calc wordS op (srcOfBits (field w 7 2)) (srcOfBits (field w 9 2)) (bit w 11) (field w 16 8)
    _ = field w 24 8 ++ field w 16 8 ++ field w 12 4 ++ field w 11 1 ++ field w 9 2 ++ field w 7 2
          ++ field w 5 2 ++ field w 0 5 := by
      rw [field_eq_zero (lo := 24) hm rfl, field_eq_zero (lo := 12) hm rfl, field_eq_zero (lo := 5) hm rfl, hop,
        wordS, srcBits_srcOfBits, srcBits_srcOfBits, ofBool_bit]
    _ = field w 0 32 := by
      repeat rw [field_append_field]
      all_goals rfl
    _ = w := BitVec.extractLsb'_eq_self

theorem wordG_eq (hm : w &&& 0x0000FFE0 = 0) : wordG op (field w 16 16) = w := by
  calc wordG op (field w 16 16)
    _ = field w 16 16 ++ field w 5 11 ++ field w 0 5 := by rw [field_eq_zero (lo := 5) hm rfl, hop]; rfl
    _ = field w 0 32 := by
      repeat rw [field_append_field]
      all_goals rfl
    _ = w := BitVec.extractLsb'_eq_self

theorem wordP_eq (hm : w &&& 0x000000C0 = 0) : wordP op (bit w 5) (field w 8 12) (field w 20 12) = w := by
  calc wordP op (bit w 5) (field w 8 12) (field w 20 12)
    _ = field w 20 12 ++ field w 8 12 ++ field w 6 2 ++ field w 5 1 ++ field w 0 5 := by
      rw [field_eq_zero (lo := 6) hm rfl, hop, wordP, ofBool_bit]
    _ = field w 0 32 := by
      repeat rw [field_append_field]
      all_goals rfl
    _ = w := BitVec.extractLsb'_eq_self

theorem wordD_eq (hm : w &&& 0xFFFFFF00 = 0) : wordD op (bit w 5) (bit w 6) (bit w 7) = w := by
  calc wordD op (bit w 5) (bit w 6) (bit w 7)
    _ = field w 8 24 ++ field w 7 1 ++ field w 6 1 ++ field w 5 1 ++ field w 0 5 := by
      rw [field_eq_zero (lo := 8) hm rfl, hop, wordD, ofBool_bit, ofBool_bit, ofBool_bit]
    _ = field w 0 32 := by
      repeat rw [field_append_field]
      all_goals rfl
    _ = w := BitVec.extractLsb'_eq_self

end

end Sys2Proof.Machine
end

section
/-! The decoder and the encoder (O1, O2, O3): which words decode, and that the two are inverse to each other. -/

namespace Sys2Proof.Machine

open Sys2Proof Sys2Proof.Laws

/-! ### The decoder, said once -/

/-- An opcode without a format is one of the reserved ones (R124). -/
theorem formatOf_eq_none_iff (op : BitVec 5) : formatOf op = none ↔ 0x0D ≤ op.toNat := by
  revert op
  decide

theorem opcode_lt_of_format {op : BitVec 5} {f : Format} (hf : formatOf op = some f) : op.toNat < 0x0D := by
  by_contra h
  exact Option.some_ne_none f (hf.symm.trans ((formatOf_eq_none_iff op).mpr (by omega)))

/-- What a word decodes as: its format is that of its opcode, its reserved bits are 0, and its fields are a
well-formed command. -/
theorem decode_eq_command_iff (w : Word) (i : Instr) :
    decode w = .command i ↔
      ∃ f, formatOf (field w 0 5) = some f ∧ w &&& reservedMask f = 0 ∧ readFields w = i ∧ WellFormed i = true := by
  unfold decode
  cases formatOf (field w 0 5) with
  | none => simp
  | some f =>
    simp only [Option.some.injEq, exists_eq_left', ne_eq, ite_not]
    split_ifs with hm hw
    · constructor
      · rintro ⟨⟩
        exact ⟨hm, rfl, hw⟩
      · rintro ⟨-, rfl, -⟩
        rfl
    · refine iff_of_false (by simp) ?_
      rintro ⟨-, rfl, h⟩
      exact hw h
    · exact iff_of_false (by simp) fun h => hm h.1

/-- The opcode of the command that a word of a format stands for. -/
theorem opcodeOf_readFields {w : Word} {f : Format} (hf : formatOf (field w 0 5) = some f) :
    opcodeOf (readFields w) = field w 0 5 := by
  have hop := opcode_lt_of_format hf
  apply BitVec.eq_of_toNat_eq
  unfold readFields
  split
  case h_13 =>
    have hlast : (field w 0 5).toNat = 0x0C := by lia
    exact hlast.symm
  all_goals exact Eq.symm ‹_›

/-! ### Encode, then decode -/

/-- The word of any command has its opcode, and only zeros in its reserved bits. -/
theorem encode_clean (i : Instr) : ReservedBits.Statement i := by
  cases i with
  | nop => exact ReservedBits.nop
  | pwrOn => exact ReservedBits.pwrOn
  | pwrOff => exact ReservedBits.pwrOff
  | setTemp temp => exact ReservedBits.setTemp temp
  | sampleTemp => exact ReservedBits.sampleTemp
  | refreshOnce stage src fill => exact ReservedBits.refreshOnce stage src fill
  | refreshRepeat stage src fill => exact ReservedBits.refreshRepeat stage src fill
  | drvClear fill => exact ReservedBits.drvClear fill
  | showImage newSrc oldSrc hasOld fill => exact ReservedBits.showImage newSrc oldSrc hasOld fill
  | selSeg index => exact ReservedBits.selSeg index
  | setPixel black x y => exact ReservedBits.setPixel black x y
  | display clearFirst doPwrOn doPwrOff => exact ReservedBits.display clearFirst doPwrOn doPwrOff
  | fbClear => exact ReservedBits.fbClear

/-- The fields of a command's word are the command, well formed or not. -/
theorem readFields_encode (i : Instr) : readFields (encode i) = i := by
  have hop : field (encode i) 0 5 = opcodeOf i := (encode_clean i).1
  unfold readFields
  rw [hop]
  cases i <;> simp [opcodeOf, encode]

/-- Settles O1: the word's reserved bits are clean, and its fields give every operand back. -/
theorem decodeOfEncodeIsTheCommand : Obligations.DecodeOfEncodeIsTheCommand := by
  intro i hw
  obtain ⟨hop, f, hf, hm⟩ := encode_clean i
  exact (decode_eq_command_iff _ i).mpr ⟨f, (congrArg formatOf hop).trans hf, hm, readFields_encode i, hw⟩

/-! ### Decode, then encode -/

/-- A clean word is the word of the command that its fields are. -/
theorem encode_readFields {w : Word} {f : Format} (hf : formatOf (field w 0 5) = some f)
    (hm : w &&& reservedMask f = 0) : encode (readFields w) = w := by
  have hmask : ∀ {op f'}, field w 0 5 = op → formatOf op = some f' → w &&& reservedMask f' = 0 := by
    rintro _ f' rfl hf'
    rwa [← Option.some.inj (hf.symm.trans hf')]
  have hop := (opcodeOf_readFields hf).symm
  revert hop
  unfold readFields
  split
  all_goals intro hop
  case h_1 | h_2 | h_3 | h_5 | h_13 => exact wordN_eq hop (hmask hop rfl)
  case h_4 | h_8 => exact wordC_eq hop (hmask hop rfl)
  case h_6 | h_7 => exact wordR_eq hop (hmask hop rfl)
  case h_9 => exact wordS_eq hop (hmask hop rfl)
  case h_10 => exact wordG_eq hop (hmask hop rfl)
  case h_11 => exact wordP_eq hop (hmask hop rfl)
  case h_12 => exact wordD_eq hop (hmask hop rfl)

/-- Settles O2: the word is clean, so its fields and its reserved zeros put it together again. -/
theorem encodeOfDecodeIsTheWord : Obligations.EncodeOfDecodeIsTheWord := by
  intro w i h
  obtain ⟨f, hf, hm, rfl, hw⟩ := (decode_eq_command_iff w i).mp h
  exact ⟨encode_readFields hf hm, hw⟩

/-! ### Match and mask -/

/-- The fields of a word with the opcode of `SHOW_IMAGE` (R115). -/
theorem readFields_showImage {w : Word} (hop : field w 0 5 = 0x08) :
    readFields w =
      .showImage (srcOfBits (field w 7 2)) (srcOfBits (field w 9 2)) (bit w 11) (field w 16 8) := by
  rw [readFields, hop]
  rfl

/-- Every command but `SHOW_IMAGE` is well formed. -/
theorem wellFormed_of_opcode {i : Instr} (h : opcodeOf i ≠ 0x08) : WellFormed i = true := by
  cases i with
  | showImage newSrc oldSrc hasOld fill => exact absurd rfl h
  | _ => rfl

/-- A word of a format is ill formed only in the `SHOW_IMAGE` form of R125. -/
theorem wellFormed_readFields_iff {w : Word} {f : Format} (hf : formatOf (field w 0 5) = some f) :
    WellFormed (readFields w) = true ↔ ¬(field w 0 5 = 0x08 ∧ bit w 11 = false ∧ field w 9 2 ≠ 0) := by
  by_cases hop : field w 0 5 = 0x08
  · have hsrc : ∀ b : BitVec 2, (srcOfBits b == Src.fixed) = decide (b = 0) := by decide
    rw [readFields_showImage hop, WellFormed, showImageFormOk, hsrc]
    cases bit w 11 <;> simp [hop]
  · refine iff_of_true (wellFormed_of_opcode ?_) fun h => hop h.1
    rwa [opcodeOf_readFields hf]

/-- The mask `0x1F` is the field OP. -/
theorem and_opcodeMask (w : Word) : w &&& 0x1F = (field w 0 5).setWidth 32 := by
  apply BitVec.eq_of_toNat_eq
  have hmod : w.toNat &&& 0x1F = w.toNat % 2 ^ 5 := Nat.and_two_pow_sub_one_eq_mod w.toNat 5
  rw [BitVec.toNat_setWidth_of_le (by decide)]
  simpa [field, BitVec.extractLsb'_toNat] using hmod

/-- The reserved bits of a format are outside OP. -/
theorem opcode_and_reservedMask (op : BitVec 5) (f : Format) : op.setWidth 32 &&& reservedMask f = 0 := by
  revert op
  cases f <;> decide

/-- Comparing a word under the mask of OP and of the reserved bits is comparing each of the two. -/
theorem and_mask_eq_iff (w : Word) (op : BitVec 5) (f : Format) :
    w &&& (reservedMask f ||| 0x1F) = op.setWidth 32 ↔ field w 0 5 = op ∧ w &&& reservedMask f = 0 := by
  constructor
  · intro h
    constructor
    · have hmask : field (reservedMask f ||| 0x1F) 0 5 = BitVec.allOnes 5 := by cases f <;> rfl
      have hop : field (op.setWidth 32) 0 5 = op :=
        (BitVec.extractLsb'_setWidth_of_le (by decide)).trans BitVec.extractLsb'_eq_self
      rw [← hop, ← h, field_and, hmask, BitVec.and_allOnes]
    · calc w &&& reservedMask f
        _ = w &&& (reservedMask f ||| 0x1F) &&& reservedMask f := by
          have hmask : (reservedMask f ||| 0x1F) &&& reservedMask f = reservedMask f := by cases f <;> rfl
          rw [BitVec.and_assoc, hmask]
        _ = 0 := by rw [h, opcode_and_reservedMask]
  · rintro ⟨rfl, hm⟩
    rw [BitVec.and_or_distrib_left, hm, and_opcodeMask]
    exact BitVec.zero_or

/-- Each row of the opcode map has a format, and its mask is that format's reserved bits with OP. -/
theorem commandTable_masks :
    ∀ row ∈ commandTable, ∃ f, formatOf row.1 = some f ∧ row.2 = reservedMask f ||| 0x1F := by
  simp only [commandTable, List.cons_append, List.nil_append, List.forall_mem_cons]
  refine ⟨⟨.n, rfl, rfl⟩, ⟨.n, rfl, rfl⟩, ⟨.n, rfl, rfl⟩, ⟨.t, rfl, rfl⟩, ⟨.n, rfl, rfl⟩, ⟨.r, rfl, rfl⟩,
    ⟨.r, rfl, rfl⟩, ⟨.c, rfl, rfl⟩, ⟨.s, rfl, rfl⟩, ⟨.g, rfl, rfl⟩, ⟨.p, rfl, rfl⟩, ⟨.d, rfl, rfl⟩,
    ⟨.n, rfl, rfl⟩, ?_⟩
  exact fun _ h => absurd h List.not_mem_nil

/-- A word decodes as a command of opcode `op` when it has that opcode, clean reserved bits, and not the form that
R125 refuses. -/
theorem decodes_with_opcode_iff {op : BitVec 5} {f : Format} (hf : formatOf op = some f) (w : Word) :
    (∃ i, decode w = .command i ∧ opcodeOf i = op) ↔
      (field w 0 5 = op ∧ w &&& reservedMask f = 0) ∧ ¬(op = 0x08 ∧ bit w 11 = false ∧ field w 9 2 ≠ 0) := by
  constructor
  · rintro ⟨i, hi, rfl⟩
    obtain ⟨f', hf', hm, rfl, hw⟩ := (decode_eq_command_iff w i).mp hi
    rw [opcodeOf_readFields hf'] at hf ⊢
    obtain rfl : f' = f := Option.some.inj (hf'.symm.trans hf)
    exact ⟨⟨rfl, hm⟩, (wellFormed_readFields_iff hf).mp hw⟩
  · rintro ⟨⟨rfl, hm⟩, hw⟩
    exact ⟨readFields w,
      (decode_eq_command_iff w _).mpr ⟨f, hf, hm, rfl, (wellFormed_readFields_iff hf).mpr hw⟩,
      opcodeOf_readFields hf⟩

/-- Settles O3: a row's mask compares OP and the reserved bits of its format, which is what the decoder looks at. -/
theorem wordsDecodeByMatchAndMask : Obligations.WordsDecodeByMatchAndMask := by
  refine ⟨?_, fun w hop i hi => ?_⟩
  · rintro ⟨op, mask⟩ hrow w
    obtain ⟨f, hf, hmask⟩ := commandTable_masks _ hrow
    obtain rfl : mask = reservedMask f ||| 0x1F := hmask
    rw [and_mask_eq_iff]
    exact decodes_with_opcode_iff hf w
  · obtain ⟨f, hf, -⟩ := (decode_eq_command_iff w i).mp hi
    exact absurd (opcode_lt_of_format hf) (Nat.not_lt.mpr hop)

end Sys2Proof.Machine
end

section
/-! Illegal words (O6): which words are illegal and why, and that one completes within the write. -/

namespace Sys2Proof.Machine

open Sys2Proof

theorem decode_reservedOpcode {w : Word} (h : formatOf (field w 0 5) = none) :
    decode w = .illegal .reservedOpcode := by
  rw [decode, h]

theorem decode_reservedBits {w : Word} {f : Format} (hf : formatOf (field w 0 5) = some f)
    (hm : w &&& reservedMask f ≠ 0) : decode w = .illegal .reservedBits := by
  rw [decode, hf]
  exact if_pos hm

theorem decode_reservedForm {w : Word} {f : Format} (hf : formatOf (field w 0 5) = some f)
    (hm : w &&& reservedMask f = 0) (hw : WellFormed (readFields w) = false) :
    decode w = .illegal .reservedForm := by
  rw [decode, hf]
  simp [hm, hw]

/-- A refused word leaves what launch and completion write, with no event between `Cmd` and `Done` (R124). -/
theorem refuse_eq_completed (w : Word) (s : State) : s.refuse w = State.completed w .illegalCmd [] s := by
  simp only [State.completed, List.append_nil]
  rfl

/-- An illegal word at `CMD` of an idle block (R124, R125). -/
theorem hostWrite_illegal {s : State} {w : Word} {e : DecodeError} (hd : decode w = .illegal e)
    (hr : s.inputs.rstN = true) (hb : s.busy = false) :
    hostWrite 0x00 w s = .next (State.completed w .illegalCmd [] s) := by
  rw [hostWrite_accepted hr, if_pos rfl, writeCmd, hd, ← refuse_eq_completed]
  exact runIllegal_idle hb w

/-- Settles O6: the decoder refuses the three kinds of word in turn, and a refused word or command is launched
and completed with no tick in between. -/
theorem illegalWordCompletesAtOnce : Obligations.IllegalWordCompletesAtOnce := by
  refine ⟨fun w => ⟨fun hop => ?_, fun f hf hm => ?_, fun hop hm hhas hold => ?_⟩,
    fun s w e g rest hd hr hmove hb => ?_, fun s newSrc oldSrc fill hb hold => ?_⟩
  · exact decode_reservedOpcode ((formatOf_eq_none_iff _).mpr hop)
  · exact decode_reservedBits hf hm
  · have hf : formatOf (field w 0 5) = some .s := congrArg formatOf hop
    refine decode_reservedForm hf hm (Bool.eq_false_iff.mpr fun hw => ?_)
    exact (wellFormed_readFields_iff hf).mp hw ⟨hop, hhas, hold⟩
  · exact (step_of_move hmove).trans (hostWrite_illegal (s := s.afterMove rest g) hd hr hb)
  · have hw : WellFormed (.showImage newSrc oldSrc false fill) = false := by
      simpa [WellFormed, showImageFormOk] using hold
    rw [exec_illFormed hw, runIllegal_idle hb, refuse_eq_completed]

end Sys2Proof.Machine
end

section
/-! `draw_char` and the host's program (O59): the calls that it expands to with equal colours, which of them are
issued, and what a step does at it. -/

namespace Sys2Proof.Machine

open Sys2Proof

/-! ### The calls of a glyph (R215) -/

theorem mem_paintBlock {px py : Int} {black : Bool} {scale : Nat} {call : HostCall} :
    call ∈ paintBlock px py black scale ↔
      ∃ di < scale, ∃ dj < scale, call = pixelCall (px + di) (py + dj) black := by
  simp [paintBlock, eq_comm]

/-- With equal colours only an "on" cell is painted (R217 (g)). -/
theorem mem_glyphCell_transparent {g : Glyph} {x y : Int} {c : Bool} {scale i j : Nat} {call : HostCall} :
    call ∈ glyphCell g x y c c scale i j ↔
      ∃ di < scale, ∃ dj < scale, g.on i j = true ∧
        call = pixelCall (x + (i * scale : Nat) + di) (y + (j * scale : Nat) + dj) c := by
  cases hon : g.on i j with
  | true => simp [glyphCell, hon, mem_paintBlock]
  | false => simp [glyphCell, hon]

/-- The glyph reaches neither beyond the columns nor out of the rows of the segment: no early reject applies
(R215). -/
def GlyphVisible (p : Params) (seg : Nat) (x y : Int) (g : Glyph) (scale : Nat) : Prop :=
  0 < x + (g.gw * scale : Nat) ∧ x < p.columns ∧ (seg * p.segHeight : Nat) < y + (g.gh * scale : Nat) ∧
    y < (seg * p.segHeight + p.segHeight : Nat)

theorem missesColumns_eq_false_iff {p : Params} {x : Int} {g : Glyph} {scale : Nat} :
    missesColumns p x g scale = false ↔ 0 < x + (g.gw * scale : Nat) ∧ x < p.columns := by
  simp only [missesColumns, decide_eq_false_iff_not]
  omega

/-- What `draw_char` expands to (R215): the cells of a visible glyph, and nothing of any other. -/
theorem mem_drawChar {p : Params} {seg : Nat} {x y : Int} {g : Glyph} {fg bg : Bool} {scale : Nat}
    {call : HostCall} :
    call ∈ drawChar p seg x y g fg bg scale ↔
      GlyphVisible p seg x y g scale ∧
        ∃ col < g.gw, ∃ row < g.gh, call ∈ glyphCell g x y fg bg scale col row := by
  unfold drawChar GlyphVisible
  split_ifs with hcol hrow
  · refine iff_of_false List.not_mem_nil ?_
    rintro ⟨⟨hleft, hright, -, -⟩, -⟩
    exact absurd (missesColumns_eq_false_iff.mpr ⟨hleft, hright⟩) (by simp [hcol])
  · refine iff_of_false List.not_mem_nil ?_
    rintro ⟨⟨-, -, htop, hbottom⟩, -⟩
    omega
  · have hv := missesColumns_eq_false_iff.mp (Bool.eq_false_iff.mpr hcol)
    simp only [List.mem_flatMap, List.mem_range]
    exact ⟨fun h => ⟨by omega, h⟩, fun h => h.2⟩

/-! ### Which pixels are issued (R215) -/

theorem signedOperand_of_fits {w : Nat} {v : Int} (h : -(2 : Int) ^ (w - 1) ≤ v ∧ v < (2 : Int) ^ (w - 1)) :
    signedOperand w v = some (BitVec.ofInt w v) := if_pos h

theorem signedOperand_of_outside {w : Nat} {v : Int}
    (h : ¬(-(2 : Int) ^ (w - 1) ≤ v ∧ v < (2 : Int) ^ (w - 1))) : signedOperand w v = none := if_neg h

/-- A pixel with both coordinates in -2048 to 2047 is a `SET_PIXEL` at them (R206). -/
theorem pixelCall_encodable {x y : Int} (h : -2048 ≤ x ∧ x ≤ 2047 ∧ -2048 ≤ y ∧ y ≤ 2047) (c : Bool) :
    pixelCall x y c = .command (.setPixel c (BitVec.ofInt 12 x) (BitVec.ofInt 12 y)) := by
  have hx : signedOperand 12 x = some (BitVec.ofInt 12 x) := signedOperand_of_fits (by omega)
  have hy : signedOperand 12 y = some (BitVec.ofInt 12 y) := signedOperand_of_fits (by omega)
  simp [pixelCall, assemble, hx, hy]

/-- Any other pixel cannot be encoded (R215). -/
theorem pixelCall_unencodable {x y : Int} (h : ¬(-2048 ≤ x ∧ x ≤ 2047 ∧ -2048 ≤ y ∧ y ≤ 2047)) (c : Bool) :
    pixelCall x y c = .unencodable x y c := by
  have hnone : signedOperand 12 x = none ∨ signedOperand 12 y = none := by
    by_cases hx : -2048 ≤ x ∧ x ≤ 2047
    · exact .inr (signedOperand_of_outside (by omega))
    · exact .inl (signedOperand_of_outside (by omega))
  obtain hx | hy := hnone
  · simp [pixelCall, assemble, hx]
  · simp [pixelCall, assemble, hy]

/-! ### Steps of the host's program -/

/-- The lines of the host's program for a call, at one pace (R130, R215). -/
def HostCall.lines (gap : Nat) : HostCall → List HostLine
  | .command i => [⟨.wr 0x00 (encode i), gap⟩, ⟨.wait, gap⟩]
  | .unencodable _ _ _ => [⟨.countPixel, gap⟩]

theorem paced_flatMap_ops (gap : Nat) (calls : List HostCall) :
    paced gap (calls.flatMap HostCall.ops) = calls.flatMap (HostCall.lines gap) := by
  refine List.map_flatMap.trans (congrArg (calls.flatMap ·) (funext fun call => ?_))
  cases call <;> rfl

/-- At a `draw_char` whose glyph reaches the columns the host reads `SEGMENT`, and goes on with the calls for the
segment shown there (R215). -/
theorem hostDrawChar_reads {x : Int} {g : Glyph} {scale : Nat} {s : State} (hr : s.inputs.rstN = true)
    (h : missesColumns s.params x g scale = false) (y : Int) (fg bg : Bool) :
    hostDrawChar x y g fg bg scale s =
      ticks s.inputs.gap
        ((s.readReg 0x1C).goOnWith
          ((drawChar s.params s.seg.toNat x y g fg bg scale).flatMap HostCall.ops)) := by
  have hseg : (s.readReg 0x1C).rdata.extractLsb' 0 16 = s.seg := (halves_fields _ _).1
  simp only [hostDrawChar, h, hostRead_accepted hr, hseg]
  rfl

/-- Settles O59: the calls are the cells' blocks, an operand's range decides which are issued, and a step at a
`draw_char` puts the lines of its calls in front of the program. -/
theorem transparentGlyphPaintsOnCellsOnly : Obligations.TransparentGlyphPaintsOnCellsOnly := by
  refine ⟨fun p seg x y g c scale call => ?_, fun x y c => ⟨fun h => ?_, fun h => ?_⟩,
    fun s x y g fg bg scale gap rest hr hm hp => ⟨fun h => ?_, fun h => ?_⟩, fun s gap rest hm hp => ?_⟩
  · simp only [mem_drawChar, mem_glyphCell_transparent, GlyphVisible]
  · exact ⟨_, _, pixelCall_encodable h c, BitVec.toInt_ofInt_eq_self (by decide) (by omega) (by omega),
      BitVec.toInt_ofInt_eq_self (by decide) (by omega) (by omega)⟩
  · rw [pixelCall_unencodable h]
    exact ⟨rfl, rfl⟩
  · rw [step_of_line hm hp]
    exact hostDrawChar_reject (s := s.afterLine rest gap) (decide_eq_true h) y fg bg
  · rw [step_of_line hm hp]
    refine (hostDrawChar_reads (s := s.afterLine rest gap) hr (missesColumns_eq_false_iff.mpr h) y fg bg).trans ?_
    rw [State.goOnWith, paced_flatMap_ops]
    rfl
  · exact step_of_line hm hp

end Sys2Proof.Machine
end

section
/-! Small facts of the stage driver's functions (O52, O54, O55, O58): one look of a busy poll, the lanes of a drive
byte, the bytes of a payload, and the temperature table as a step function. -/

namespace Sys2Proof.Machine

open Sys2Proof

/-! ### The busy poll (R155) -/

/-- A look of a poll that finds the line low (R155). -/
theorem doPolling_low (t0 : Word) (fatal : Bool) (s : State) :
    doPolling t0 fatal (s.feed { Answers.none with busyIn := [false] }) = s.emit (.busy .ok) := rfl

/-- A look of a poll that finds the line high, `d` milliseconds after the last look (R155). -/
theorem doPolling_high (t0 d : Word) (fatal : Bool) (s : State) :
    doPolling t0 fatal (s.feed { Answers.none with busyIn := [true], elapsed := [d] }) =
      if s.params.busyTimeoutMs.toNat ≤ (s.ms + d - t0).toNat then busyTimeout fatal { s with ms := s.ms + d }
      else State.push [.polling t0 fatal] { s with ms := s.ms + d } := rfl

/-- Settles O52: the line is low or high, the bound has passed or not, and the poll is fatal or not. -/
theorem busyPollIsBounded : Obligations.BusyPollIsBounded := by
  intro s t0 d fatal line rest hb ht
  refine (tick_head (s := s.feed _) hb ht).trans (congrArg Host.Outcome.next ?_)
  cases line with
  | false => exact doPolling_low t0 fatal (s.setTodo rest)
  | true =>
    refine (doPolling_high t0 d fatal (s.setTodo rest)).trans ?_
    by_cases hlt : (s.ms + d - t0).toNat < s.params.busyTimeoutMs.toNat
    · refine (if_neg (Nat.not_le.mpr hlt)).trans (Eq.trans ?_ (if_pos hlt).symm)
      exact congrArg (fun ms => State.setTodo ms { s with ms := s.ms + d }) ht.symm
    · refine (if_pos (Nat.le_of_not_lt hlt)).trans (Eq.trans ?_ (if_neg hlt).symm)
      cases fatal <;> rfl

/-! ### The row frame (R149, R150) -/

/-- Four 2-bit lanes of a byte, put side by side. -/
theorem append_lanes (a b c d : BitVec 2) :
    a ++ b ++ c ++ d =
      a.setWidth 8 <<< 6 ||| b.setWidth 8 <<< 4 ||| c.setWidth 8 <<< 2 ||| d.setWidth 8 := by
  refine BitVec.eq_of_getLsbD_eq fun k hk => ?_
  simp only [BitVec.getLsbD_append, BitVec.getLsbD_or, BitVec.getLsbD_shiftLeft, BitVec.getLsbD_setWidth]
  interval_cases k <;> simp

/-- Settles O54: `pack` puts its four codes side by side. -/
theorem packFillsItsLanes : Obligations.PackFillsItsLanes :=
  fun _ _ _ _ _ _ _ => append_lanes _ _ _ _

@[simp] theorem evenBytes_length (c : StageCode) (st : Stage) (src : List Byte) :
    (evenBytes c st src).length = src.length := by simp [evenBytes]

@[simp] theorem scanBytes_length (bps r : Nat) : (scanBytes bps r).length = bps := by simp [scanBytes]

@[simp] theorem oddBytes_length (c : StageCode) (st : Stage) (src : List Byte) :
    (oddBytes c st src).length = src.length := by simp [oddBytes]

theorem payload_length (p : Params) (st : Stage) (r : Nat) (src : List Byte) :
    (payload p st r src).length = 2 * src.length + p.bps := by
  simp only [payload, List.length_append, evenBytes_length, scanBytes_length, oddBytes_length]
  omega

theorem getElem?_eq_some_getD {l : List Byte} {j : Nat} (h : j < l.length) : l[j]? = some (l.getD j 0) := by
  simp [List.getD, h]

/-- Settles O55: the payload is its three parts laid end to end, each indexed on its own. -/
theorem payloadBytesAreAsIndexed : Obligations.PayloadBytesAreAsIndexed := by
  intro p st r src hlen
  refine ⟨hlen ▸ payload_length p st r src, fun j hj => ?_, fun k hk => ?_, fun j hj => ?_⟩
  · have hrev : p.bpr - 1 - j < src.length := by omega
    rw [payload, List.append_assoc, List.getElem?_append_left (by simpa [hlen]), evenBytes, List.getElem?_map,
      List.getElem?_reverse (by omega), hlen, getElem?_eq_some_getD hrev]
    rfl
  · rw [payload, List.append_assoc, List.getElem?_append_right (by simp [hlen]),
      List.getElem?_append_left (by simpa [hlen]), evenBytes_length, hlen, Nat.add_sub_cancel_left, scanBytes,
      List.getElem?_map, List.getElem?_range hk]
    rfl
  · have hstart : (evenBytes p.stageCode st src ++ scanBytes p.bps r).length = p.bpr + p.bps := by simp [hlen]
    rw [payload, List.getElem?_append_right (by omega), hstart, Nat.add_sub_cancel_left, oddBytes,
      List.getElem?_map, getElem?_eq_some_getD (by omega)]
    rfl

/-! ### The temperature table (R146) -/

/-- Entries whose thresholds t exceeds are passed over. -/
theorem lookupFactor_append {t : Int} {pre : List (Int × Nat)} (h : ∀ q ∈ pre, q.1 < t) (top : Nat)
    (rest : List (Int × Nat)) : lookupFactor t top (pre ++ rest) = lookupFactor t top rest := by
  induction pre with
  | nil => rfl
  | cons e pre ih =>
    obtain ⟨he, hpre⟩ := List.forall_mem_cons.mp h
    exact (if_neg (Int.not_le.mpr he)).trans (ih hpre)

/-- Settles O58: the lookup passes over exceeded thresholds and stops at the first other one, or at the end. -/
theorem factorIsAStepTable : Obligations.FactorIsAStepTable := by
  refine fun p t hc => ⟨fun pre e post he hpre ht => ?_, fun hall => ?_, tempFactor_25 hc⟩
  · rw [tempFactor, he, lookupFactor_append hpre]
    exact if_pos ht
  · have h := lookupFactor_append hall p.tempTable.top []
    rwa [List.append_nil] at h

end Sys2Proof.Machine
end

section
/-! Commands that are done within two ticks (O19, O20, O21, O38, O47): a failed check, no micro-operation or one,
and then completion. -/

namespace Sys2Proof.Machine

open Sys2Proof

/-! ### Ticks of a short command -/

/-- A launched command with nothing left to run completes at its first tick (R237). -/
theorem ticks_empty {s : State} {g : Nat} (hb : s.busy = true) (ht : s.seq.todo = []) (hg : 1 ≤ g) :
    ticks g s = .next s.complete := by
  obtain ⟨n, rfl⟩ := Nat.exists_eq_add_of_le' hg
  rw [ticks_succ, tick_done hb ht, andThen_next]
  exact ticks_idle (s := s.complete) rfl n

/-- A micro-operation leaves a running command running. -/
theorem runMicro_busy {m : Micro} {s t : State} (h : runMicro m s = .next t) : t.busy = s.busy :=
  (congrArg State.busy (runMicro_keeps h)).trans rfl

/-- A launched command with one micro-operation that leaves nothing to run completes at its second tick. -/
theorem ticks_single {s t : State} {m : Micro} {g : Nat} (hb : s.busy = true) (ht : s.seq.todo = [m])
    (hm : runMicro m (s.setTodo []) = .next t) (hempty : t.seq.todo = []) (hg : 2 ≤ g) :
    ticks g s = .next t.complete := by
  obtain ⟨n, rfl⟩ := Nat.exists_eq_add_of_le' (Nat.le_of_succ_le hg)
  rw [ticks_succ, tick_head hb ht, hm, andThen_next]
  exact ticks_empty ((runMicro_busy hm).trans hb) hempty (by omega)

/-- A launched command that completes without having acted. -/
theorem complete_launched (w : Word) (c : Code) (onTimeout : List Micro) (s : State) :
    ({ s.launch w with seq := ⟨[], c, onTimeout⟩ } : State).complete = State.completed w c [] s := by
  simp [State.complete, State.completed, State.launch, State.emit]

section
variable {i : Instr} {s : State} (hb : s.busy = false) (hw : WellFormed i = true)
include hb hw

/-- A command that fails a check completes with its code, and nothing else happens (R238, R239). -/
theorem exec_fail {c : Code} (hp : planOf i (s.launch (encode i)) = .fail c) (hg : 1 ≤ s.inputs.gap) :
    exec i s = .next (State.completed (encode i) c [] s) := by
  rw [exec_eq, startOf_launched hb hw, hp, follow_fail, launch_raiseError, ticks_empty rfl rfl hg]
  exact congrArg Host.Outcome.next (complete_launched ..)

/-- A command with nothing to do completes with `OK`. -/
theorem exec_nothing (hp : planOf i (s.launch (encode i)) = .run [] []) (hg : 1 ≤ s.inputs.gap) :
    exec i s = .next (State.completed (encode i) .ok [] s) := by
  rw [exec_eq, startOf_launched hb hw, hp, follow_run, ticks_empty rfl rfl hg]
  exact congrArg Host.Outcome.next (complete_launched ..)

/-- A command of one micro-operation, which leaves nothing to run: it acts and completes. -/
theorem exec_single {m : Micro} {t : State} (hp : planOf i (s.launch (encode i)) = .run [m] [])
    (hm : runMicro m (s.launch (encode i)) = .next t) (hempty : t.seq.todo = []) (hg : 2 ≤ s.inputs.gap) :
    exec i s = .next t.complete := by
  rw [exec_eq, startOf_launched hb hw, hp, follow_run]
  exact ticks_single rfl rfl hm hempty hg

end

/-- Settles O19: the plan of `NOP` is empty. -/
theorem nopCompletes : Obligations.NopCompletes :=
  fun _ hb hg => exec_nothing (i := .nop) hb rfl rfl hg

/-! ### The temperature commands (R144, R146, R168, R169) -/

theorem le_foldl_max (l : List (Int × Nat)) (n : Nat) :
    n ≤ l.foldl (fun m e => max m e.2) n ∧ ∀ e ∈ l, e.2 ≤ l.foldl (fun m e => max m e.2) n := by
  induction l generalizing n with
  | nil => simp
  | cons e l ih =>
    obtain ⟨hn, hl⟩ := ih (max n e.2)
    exact ⟨(Nat.le_max_left n e.2).trans hn, List.forall_mem_cons.mpr ⟨(Nat.le_max_right n e.2).trans hn, hl⟩⟩

theorem lookupFactor_mem (t : Int) (top : Nat) (l : List (Int × Nat)) :
    lookupFactor t top l = top ∨ ∃ e ∈ l, lookupFactor t top l = e.2 := by
  induction l with
  | nil => exact .inl rfl
  | cons e l ih =>
    unfold lookupFactor
    split
    · exact .inr ⟨e, List.mem_cons_self, rfl⟩
    · exact ih.imp_right fun ⟨x, hx, he⟩ => ⟨x, List.mem_cons_of_mem e hx, he⟩

theorem tempFactor_le_largestFactor (p : Params) (t : BitVec 8) : tempFactor p t ≤ largestFactor p.tempTable := by
  obtain ⟨htop, hall⟩ := le_foldl_max p.tempTable.entries p.tempTable.top
  obtain h | ⟨e, he, h⟩ := lookupFactor_mem t.toInt p.tempTable.top p.tempTable.entries
  · exact h.trans_le htop
  · exact h.trans_le (hall e he)

/-- With a valid configuration every factor fits its register (R39 (g)). -/
theorem factor_exact {p : Params} (hc : cfgOk p = true) (t : BitVec 8) :
    (BitVec.ofNat 16 (tempFactor p t)).toNat = tempFactor p t := by
  obtain ⟨-, -, -, -, -, -, htemp, -⟩ := configValid hc
  simp only [tempTableOk, Bool.and_eq_true, decide_eq_true_eq] at htemp
  have := tempFactor_le_largestFactor p t
  exact Nat.mod_eq_of_lt (by omega)

/-- With a valid configuration every duration fits its register (R39 (h)). -/
theorem duration_exact {p : Params} (hc : cfgOk p = true) (t : BitVec 8) :
    (BitVec.ofNat 32 (stageDuration p (tempFactor p t))).toNat = p.stageTimeMs.toNat * tempFactor p t / 10 := by
  obtain ⟨-, -, -, -, -, -, -, hdur, -⟩ := configValid hc
  have hmono : stageDuration p (tempFactor p t) ≤ stageDuration p (largestFactor p.tempTable) :=
    Nat.div_le_div_right (Nat.mul_le_mul_left _ (tempFactor_le_largestFactor p t))
  exact Nat.mod_eq_of_lt (by omega)

/-- A command that checks the configuration alone passes in a configured block. -/
theorem configured_run {s : State} (hc : cfgOk s.params = true) (todo onTimeout : List Micro) :
    guarded [configCheck s] todo onTimeout = .run todo onTimeout :=
  guarded_run (by simp [firstError, configCheck, hc])

/-- Settles O20: its one micro-operation loads the temperature, whose factor and duration do not wrap. -/
theorem setTempCompletes : Obligations.SetTempCompletes := by
  intro s temp hb hc hg
  refine ⟨BitVec.ofNat 16 (tempFactor s.params temp),
    BitVec.ofNat 32 (stageDuration s.params (tempFactor s.params temp)), ?_, factor_exact hc temp,
    duration_exact hc temp⟩
  rw [exec_single (i := .setTemp temp) hb rfl (configured_run (s := s.launch _) hc _ _) rfl rfl hg]
  simp [State.complete, State.completed, State.loadTemp, State.launch, State.emit, Seq.idle]

theorem doSampleTemp_fixed {s : State} (h : s.params.tempSrc = .fixed) :
    doSampleTemp s = s.loadTemp s.params.fixedTemp := by
  simp [doSampleTemp, h]

theorem doSampleTemp_sensor {s : State} (h : s.params.tempSrc = .sensor) (t : BitVec 8) :
    doSampleTemp (s.feed { Answers.none with tempIn := [t] }) = (s.emit (.tempSample t)).loadTemp t := by
  have hsrc : (s.feed { Answers.none with tempIn := [t] }).params.tempSrc = .sensor := h
  simp only [doSampleTemp, hsrc]
  rfl

/-- With a fixed temperature `SAMPLE_TEMP` does what `SET_TEMP` of it does (R169). -/
theorem exec_sampleTemp_fixed {s : State} (hb : s.busy = false) (hc : cfgOk s.params = true)
    (hg : 2 ≤ s.inputs.gap) (hsrc : s.params.tempSrc = .fixed) :
    exec .sampleTemp s = .next (State.completed 0x00000004 .ok [] (s.loadTemp s.params.fixedTemp)) := by
  rw [exec_single (i := .sampleTemp) hb rfl (configured_run (s := s.launch _) hc _ _)
    (congrArg Host.Outcome.next (doSampleTemp_fixed (s := s.launch _) hsrc)) rfl hg]
  simp [State.complete, State.completed, State.loadTemp, State.launch, State.emit, Seq.idle, encode, wordN]

/-- With a sensor `SAMPLE_TEMP` takes the one sample that stands first (R169, R254). -/
theorem exec_sampleTemp_sensor {s : State} (hb : s.busy = false) (hc : cfgOk s.params = true)
    (hg : 2 ≤ s.inputs.gap) (hsrc : s.params.tempSrc = .sensor) (t : BitVec 8) :
    exec .sampleTemp (s.feed { Answers.none with tempIn := [t] }) =
      .next (State.completed 0x00000004 .ok [.tempSample t] (s.loadTemp t)) := by
  rw [exec_single (i := .sampleTemp) (s := s.feed _) hb rfl (configured_run (s := (s.feed _).launch _) hc _ _)
    (congrArg Host.Outcome.next (doSampleTemp_sensor (s := s.launch _) hsrc t)) rfl hg]
  simp [State.complete, State.completed, State.loadTemp, State.launch, State.emit, Seq.idle, encode, wordN]

/-- Settles O21: the temperature is `FIXED_TEMP`, or the one sample of the sensor. -/
theorem sampleTempCompletes : Obligations.SampleTempCompletes := by
  intro s t hb hc hg
  cases hsrc : s.params.tempSrc with
  | fixed =>
    exact ⟨_, _, fun _ => ⟨exec_sampleTemp_fixed hb hc hg hsrc, factor_exact hc _, duration_exact hc _⟩,
      fun h => absurd h (by simp)⟩
  | sensor =>
    exact ⟨_, _, fun h => absurd h (by simp),
      fun _ => ⟨exec_sampleTemp_sensor hb hc hg hsrc t, factor_exact hc t, duration_exact hc t⟩⟩

end Sys2Proof.Machine
end

section
/-! The checks of the driver commands (O38), and the commands that touch no port (O47). -/

namespace Sys2Proof.Machine

open Sys2Proof

/-! ### Configuration, range, power state (R153, R154, R173, R238) -/

/-- When a source makes the range bad (R153). -/
theorem rangeOk_eq_false_iff (p : Params) (first count : Nat) (src : Src) :
    rangeOk p first count src = false ↔
      p.rows < first + count ∨ (src = .res ∧ p.segHeight < count) ∨
        (src = .old ∧ p.compMode = .alwaysClear) := by
  cases src with
  | fixed => simp [rangeOk]
  | reader => simp [rangeOk]
  | res =>
    simp [rangeOk]
    omega
  | old =>
    cases hmode : p.compMode with
    | alwaysClear => simp [rangeOk, hmode]
    | dualBuffer =>
      simp [rangeOk, hmode]
      omega

theorem firstError_append (a b : List (Bool × Code)) : firstError (a ++ b) = (firstError a).or (firstError b) := by
  induction a with
  | nil => rfl
  | cons c a ih =>
    obtain ⟨fails, code⟩ := c
    cases fails with
    | true => rfl
    | false => exact ih

/-- The checks of a driver command that reads the sources `srcs`. -/
def driverChecks (srcs : List Src) (s : State) : List (Bool × Code) :=
  configCheck s :: srcs.map (rangeCheck · s) ++ [pwrCheck .on s]

/-- The driver commands, each with the sources that its range is checked against. -/
def ChecksSources (i : Instr) (srcs : List Src) : Prop :=
  (∃ st src fill, (i = .refreshOnce st src fill ∨ i = .refreshRepeat st src fill) ∧ srcs = [src]) ∨
  (∃ fill, i = .drvClear fill ∧ srcs = [.fixed]) ∨
  (∃ newSrc fill, i = .showImage newSrc .fixed false fill ∧ srcs = [newSrc]) ∨
  (∃ newSrc oldSrc fill, i = .showImage newSrc oldSrc true fill ∧ srcs = [newSrc, oldSrc])

theorem ChecksSources.ne_nil {i : Instr} {srcs : List Src} (h : ChecksSources i srcs) : srcs ≠ [] := by
  obtain ⟨_, _, _, -, rfl⟩ | ⟨_, -, rfl⟩ | ⟨_, _, -, rfl⟩ | ⟨_, _, _, -, rfl⟩ := h <;> simp

theorem ChecksSources.wellFormed {i : Instr} {srcs : List Src} (h : ChecksSources i srcs) :
    WellFormed i = true := by
  obtain ⟨_, _, _, rfl | rfl, -⟩ | ⟨_, rfl, -⟩ | ⟨_, _, rfl, -⟩ | ⟨_, _, _, rfl, -⟩ := h <;> rfl

/-- A driver command is its checks and then its passes or stages. -/
theorem ChecksSources.planOf_eq {i : Instr} {srcs : List Src} (h : ChecksSources i srcs) (s : State) :
    ∃ todo, planOf i s = guarded (driverChecks srcs s) todo := by
  obtain ⟨_, _, _, rfl | rfl, rfl⟩ | ⟨_, rfl, rfl⟩ | ⟨_, _, rfl, rfl⟩ | ⟨_, _, _, rfl, rfl⟩ := h <;>
    exact ⟨_, rfl⟩

theorem firstError_rangeChecks {srcs : List Src} {s : State} :
    firstError (srcs.map (rangeCheck · s)) =
      if ∃ src ∈ srcs, rangeOk s.params s.firstRow s.rowCount src = false then some .invalidConfig else none := by
  induction srcs with
  | nil => simp [firstError]
  | cons src srcs ih =>
    have hcons : firstError ((src :: srcs).map (rangeCheck · s)) =
        if rangeOk s.params s.firstRow s.rowCount src = false then some .invalidConfig
        else firstError (srcs.map (rangeCheck · s)) := by
      simp [firstError, rangeCheck]
    rw [hcons, ih]
    by_cases h : rangeOk s.params s.firstRow s.rowCount src = false <;> simp [h]

/-- Which check of a driver command fails first. -/
theorem firstError_driverChecks (srcs : List Src) (s : State) :
    firstError (driverChecks srcs s) =
      if cfgOk s.params = false then some .invalidConfig
      else if ∃ src ∈ srcs, rangeOk s.params s.firstRow s.rowCount src = false then some .invalidConfig
      else if s.pwr = .on then none else some .illegalState := by
  have hpwr : firstError [pwrCheck .on s] = if s.pwr = .on then none else some .illegalState := by
    by_cases h : s.pwr = .on <;> simp [firstError, pwrCheck, h]
  cases hc : cfgOk s.params with
  | false => simp [driverChecks, firstError, configCheck, hc]
  | true =>
    have hcons : firstError (driverChecks srcs s) =
        firstError (srcs.map (rangeCheck · s) ++ [pwrCheck .on s]) := by
      simp [driverChecks, firstError, configCheck, hc]
    rw [hcons, firstError_append, firstError_rangeChecks, hpwr]
    by_cases hr : ∃ src ∈ srcs, rangeOk s.params s.firstRow s.rowCount src = false
    · simp only [if_pos hr]; rfl
    · simp only [if_neg hr]; rfl

/-- A driver command that fails a check completes with the code of the first that fails. -/
theorem ChecksSources.exec_fail {i : Instr} {srcs : List Src} {s : State} {c : Code} (h : ChecksSources i srcs)
    (hb : s.busy = false) (hg : 1 ≤ s.inputs.gap)
    (hc : firstError (driverChecks srcs (s.launch (encode i))) = some c) :
    exec i s = .next (State.completed (encode i) c [] s) := by
  obtain ⟨todo, hp⟩ := h.planOf_eq (s.launch (encode i))
  exact Machine.exec_fail hb h.wellFormed (hp.trans (by simp [guarded, hc])) hg

/-- Settles O38: the first failing check of `firstError_driverChecks` decides, and a range is bad exactly if one
of the sources makes it so. -/
theorem driverChecksComeInOrder : Obligations.DriverChecksComeInOrder := by
  intro s i srcs h hb hg rangeBad
  have h : ChecksSources i srcs := h
  have hbad : rangeBad ↔ ∃ src ∈ srcs, rangeOk s.params (rangeFirst s) (rangeCount s) src = false := by
    obtain ⟨src, hsrc⟩ := List.exists_mem_of_ne_nil srcs h.ne_nil
    simp only [rangeOk_eq_false_iff, rangeBad]
    constructor
    · rintro (hrows | ⟨hres, hcount⟩ | ⟨hold, hmode⟩)
      · exact ⟨src, hsrc, .inl hrows⟩
      · exact ⟨.res, hres, .inr (.inl ⟨rfl, hcount⟩)⟩
      · exact ⟨.old, hold, .inr (.inr ⟨rfl, hmode⟩)⟩
    · rintro ⟨src, hsrc, hrows | ⟨rfl, hcount⟩ | ⟨rfl, hmode⟩⟩
      · exact .inl hrows
      · exact .inr (.inl ⟨hsrc, hcount⟩)
      · exact .inr (.inr ⟨hsrc, hmode⟩)
  have hfirst : ∀ {c}, _ = some c → exec i s = .next (State.completed (encode i) c [] s) := fun hc =>
    h.exec_fail hb hg ((firstError_driverChecks srcs (s.launch (encode i))).trans hc)
  exact ⟨fun hc => hfirst (if_pos hc),
    fun hc hr => hfirst ((if_neg (by simpa using hc)).trans (if_pos (hbad.mp hr))),
    fun hc hr hp => hfirst ((if_neg (by simpa using hc)).trans ((if_neg (mt hbad.mpr hr)).trans (if_neg hp))),
    hbad⟩

/-! ### Commands without port traffic -/

/-- What the quiet commands leave alone: the pins and ports, the power state, the refresh counters, `OLD` and
the inputs. -/
structure PortSide where
  pins : Pins
  tx : Option Byte
  rd : Option (Word × BitVec 16)
  pwr : Pwr
  stage : Stage
  passes : Word
  acc : Word
  ms : Word
  old : List Host.Cell
  inputs : Inputs

def State.portSide (s : State) : PortSide where
  pins := s.pins
  tx := s.tx
  rd := s.rd
  pwr := s.pwr
  stage := s.stage
  passes := s.passes
  acc := s.acc
  ms := s.ms
  old := s.old
  inputs := s.inputs

/-- The micro-operations that write the temperature, the segment or `RES` and nothing else. -/
def Quiet : Micro → Prop
  | .loadTemp _ => True
  | .selectSegment _ => True
  | .paint _ _ _ => True
  | _ => False

theorem runMicro_quiet {m : Micro} {s t : State} (hm : Quiet m) (h : runMicro m s = .next t) :
    t.portSide = s.portSide ∧ t.seq = s.seq ∧ t.trace = s.trace := by
  cases m with
  | loadTemp x => cases h; exact ⟨rfl, rfl, rfl⟩
  | selectSegment i => cases h; exact ⟨rfl, rfl, rfl⟩
  | paint byteIx mask black => obtain ⟨-, rfl⟩ := paintRes_next h; exact ⟨rfl, rfl, rfl⟩
  | _ => exact hm.elim

/-- A command of quiet micro-operations that was launched in `s`, before or after its completion. -/
def QuietRun (w : Word) (s u : State) : Prop :=
  u.portSide = s.portSide ∧
  ((u.busy = true ∧ (∀ m ∈ u.seq.todo, Quiet m) ∧ u.trace = s.trace ++ [.cmd w]) ∨
    (u.busy = false ∧ u.trace = s.trace ++ [.cmd w, .done u.errcode]))

theorem tick_quietRun {w : Word} {s u v : State} (hu : QuietRun w s u) (h : tick u = .next v) :
    QuietRun w s v := by
  obtain ⟨hside, hrun⟩ := hu
  obtain ⟨-, rfl⟩ | ⟨hb, -, rfl⟩ | ⟨m, rest, hb, ht, h⟩ := tick_cases h
  · exact ⟨hside, hrun⟩
  · obtain ⟨-, -, htrace⟩ | ⟨hb', -⟩ := hrun
    · exact ⟨hside, .inr ⟨rfl, by simp [htrace]⟩⟩
    · simp [hb] at hb'
  · obtain ⟨-, hquiet, htrace⟩ | ⟨hb', -⟩ := hrun
    · rw [ht, List.forall_mem_cons] at hquiet
      obtain ⟨hside', hseq', htrace'⟩ := runMicro_quiet hquiet.1 h
      have htodo : ∀ x ∈ v.seq.todo, Quiet x := by rw [hseq']; exact hquiet.2
      exact ⟨hside'.trans hside, .inl ⟨(runMicro_busy h).trans hb, htodo, htrace'.trans htrace⟩⟩
    · simp [hb] at hb'

theorem planOf_quiet {i : Instr} {temp : BitVec 8} {index : BitVec 16} {black : Bool} {x y : BitVec 12}
    (hi : i ∈ [.nop, .setTemp temp, .selSeg index, .setPixel black x y]) {s : State}
    {todo onTimeout : List Micro} (h : planOf i s = .run todo onTimeout) : ∀ m ∈ todo, Quiet m := by
  simp only [List.mem_cons, List.not_mem_nil, or_false] at hi
  obtain rfl | rfl | rfl | rfl := hi
  · cases h; simp
  · obtain ⟨-, rfl, -⟩ := guarded_eq_run h; simp [Quiet]
  · obtain ⟨-, rfl, -⟩ := guarded_eq_run h; simp [Quiet]
  · obtain ⟨-, rfl, -⟩ := guarded_eq_run h
    unfold paintPlan
    split <;> simp [Quiet]

/-- Settles O47: such a command's plan is quiet, and so is each of its ticks. -/
theorem quietCommandsDriveNoPort : Obligations.QuietCommandsDriveNoPort := by
  intro i s t temp index black x y hi hb h
  have hw : WellFormed i = true := by
    simp only [List.mem_cons, List.not_mem_nil, or_false] at hi
    obtain rfl | rfl | rfl | rfl := hi <;> rfl
  have hstart : QuietRun (encode i) s (startOf i s) := by
    rw [startOf_launched hb hw]
    refine follow_keeps (fun c _ => ?_) fun todo onTimeout hp => ?_
    · exact ⟨rfl, .inl ⟨rfl, by simp [Seq.idle], rfl⟩⟩
    · exact ⟨rfl, .inl ⟨rfl, planOf_quiet hi hp, rfl⟩⟩
  rw [exec_eq] at h
  obtain ⟨hside, hrun⟩ := ticks_keep tick_quietRun hstart h
  simp only [State.portSide, PortSide.mk.injEq] at hside
  obtain ⟨hpins, htx, hrd, hpwr, hstage, hpasses, hacc, hms, hold, hinputs⟩ := hside
  exact ⟨hpins, htx, hrd, hpwr, hstage, hpasses, hacc, hms, hold, hinputs,
    hrun.imp (fun hr => hr.2.2) fun hr => hr.2⟩

end Sys2Proof.Machine
end

section
/-! The completion of the power and refresh commands with prompt collaborators (O26 to O28, O31 to O34, O41): the
procedures of Laws/Runs, launched and completed. -/

namespace Sys2Proof.Machine

open Sys2Proof

/-! ### Launched commands -/

section
variable {i : Instr} {a : Answers} {s u : State} {todo : List Micro} {evs : List Event} {pins : Pins}
  (hw : WellFormed i = true) (hs : s.busy = false)
  (hp : planOf i (s.launch (encode i)) = .run todo [])
include hw hs hp

/-- A command whose micro-operations run to the end, fed with the answers that they take, completes for every host
that waits long enough. -/
theorem exec_settles (h : Runs a ((s.started (encode i) []).mid todo [] s.pins) (u.mid [] evs pins))
    (hu : u.busy = true) :
    ∃ n, ∀ g ≥ n,
      exec i ((s.feed a).withGap g) = .next ((u.mid [] evs pins).complete.world (s.withGap g).inputs) := by
  simp only [exec_wellFormed hw]
  exact command_settles (fun _ => planOf_congr i rfl rfl rfl rfl) hs hp h hu

/-- A command without a catch that a fatal busy timeout ends. -/
theorem exec_timesOut (h : Runs a ((s.started (encode i) []).mid todo [] s.pins) (u.timedOut evs pins))
    (hu : u.busy = true) (hc : u.seq.onTimeout = []) :
    ∃ n, ∀ g ≥ n,
      exec i ((s.feed a).withGap g) = .next ((u.timedOut evs pins).complete.world (s.withGap g).inputs) := by
  simp only [exec_wellFormed hw]
  exact command_timesOut (fun _ => planOf_congr i rfl rfl rfl rfl) hs hp h hu hc

end

/-! ### Power (R161, R162, R166, R167) -/

theorem planPwrOn_run {s : State} (hc : cfgOk s.params = true) (hp : s.pwr = .off) :
    planPwrOn s = .run [.powerOn] [] :=
  guarded_run (by simp [firstError, configCheck, pwrCheck, hc, hp])

/-- Settles O26: `PowerOn()` runs to its end. -/
theorem pwrOnCompletes : Obligations.PwrOnCompletes := by
  rintro s ⟨⟨hb, htx, -⟩, hc⟩ hp hfit
  exact exec_settles (i := .pwrOn) rfl hb (planPwrOn_run (s := s.launch _) hc hp)
    (runs_powerOn (s := s.started _ []) hfit rfl htx) rfl

/-- `PowerOn()` up to a busy poll that times out (R155, R161). -/
theorem runs_powerOn_timeout {s : State} {rest : List Micro} {evs : List Event} {pins : Pins}
    {pre post : List PowerAction} (hseq : s.params.powerOnSeq = pre ++ .waitBusy :: post)
    (hfit : sleepsFit pre = true) (hb : s.busy = true) (htx : s.tx = none) :
    Runs ((powerAnswers pre).append (pollTimeout s.params)) (s.mid (.powerOn :: rest) evs pins)
      ({ s with ms := s.ms + totalElapsed (powerAnswers pre) + s.params.busyTimeoutMs }.timedOut
        (evs ++ pre.flatMap actionEvents ++ [Event.busy .timeout]) (pre.foldl actionPins pins)) := by
  have start : Runs Answers.none (s.mid (.powerOn :: rest) evs pins)
      (s.mid (pre.map (fun a => .perform a true) ++
        .perform .waitBusy true :: (post.map (fun a => .perform a true) ++ .setPwr .on :: rest)) evs pins) :=
    .tick hb rfl fun q => by
      simp [runMicro, doPowerOn, State.mid, State.world, State.feed, State.push, State.setTodo, Answers.none, hseq]
  have actions := start.then (runs_actions true pre hfit hb htx)
  have wait : Runs Answers.none
      (State.mid (.perform .waitBusy true :: (post.map (fun a => .perform a true) ++ .setPwr .on :: rest))
        (evs ++ pre.flatMap actionEvents) (pre.foldl actionPins pins)
        { s with ms := s.ms + totalElapsed (powerAnswers pre) })
      (State.mid (.pollStart true :: (post.map (fun a => .perform a true) ++ .setPwr .on :: rest))
        (evs ++ pre.flatMap actionEvents) (pre.foldl actionPins pins)
        { s with ms := s.ms + totalElapsed (powerAnswers pre) }) :=
    .tick hb rfl fun _ => rfl
  exact actions.trans (wait.then (runs_poll_timeout hb))

/-- Settles O27: `PowerOn()` ends at the poll that times out. -/
theorem pwrOnTimeoutLeavesFault : Obligations.PwrOnTimeoutLeavesFault := by
  rintro s pre post ⟨⟨hb, htx, -⟩, hc⟩ hp hseq hfit
  exact exec_timesOut (i := .pwrOn) rfl hb (planPwrOn_run (s := s.launch _) hc hp)
    (runs_powerOn_timeout (s := s.started _ []) hseq hfit rfl htx) rfl rfl

/-- Settles O28: `PowerOff()` runs to its end, or finds the power off and does nothing. -/
theorem pwrOffTearsDown : Obligations.PwrOffTearsDown := by
  rintro s ⟨⟨hb, htx, -⟩, hc⟩
  refine ⟨fun hp hfit => ?_, fun hp hg => ?_⟩
  · exact exec_settles (i := .pwrOff) rfl hb (configured_run (s := s.launch _) hc _ _)
      (runs_powerOff (s := s.started _ []) hp hfit rfl htx) rfl
  · have hnothing : runMicro .powerOff (s.launch (encode .pwrOff)) = .next (s.launch (encode .pwrOff)) :=
      congrArg Host.Outcome.next (if_pos hp)
    rw [exec_single (i := .pwrOff) hb rfl (configured_run (s := s.launch _) hc _ _) hnothing rfl hg]
    exact congrArg Host.Outcome.next (complete_launched ..)

/-! ### Refreshes (R156 to R158, R170 to R173) -/

/-- A driver command whose checks pass runs. -/
theorem driver_run {s : State} {src : Src} {w : Word} (hc : cfgOk s.params = true) (hp : s.pwr = .on)
    (hr : rangeOk s.params (rangeFirst s) (rangeCount s) src = true) (todo : List Micro) :
    guarded [configCheck (s.launch w), rangeCheck src (s.launch w), pwrCheck .on (s.launch w)] todo =
      .run todo [] :=
  guarded_run (driverChecks_none hc hr hp)

theorem readerAddr_toNat (p : Params) (base : Word) (k : Nat) :
    (readerAddr p base k).toNat = (base.toNat + k * p.bpr) % 2 ^ 32 := by
  simp [readerAddr, BitVec.toNat_add]

section
variable {s : State} {rest : List Micro} {evs : List Event} {pins : Pins} {st : Stage} {sd : SrcDesc}
  {first count : Nat} (hb : s.busy = true) (htx : s.tx = none) (hrd : s.rd = none)
include hb htx hrd

/-- The body of `REFRESH_ONCE` (R170). -/
theorem runs_refreshOnce {rowsRead : List (List Byte)} (hn : rowsRead.length = count)
    (hy : ∀ i (h : i < rowsRead.length), yields s sd i rowsRead[i]) :
    Runs (rowsAnswers s.params st sd first rowsRead)
      (s.mid (.setPasses :: .pass st sd first count :: rest) evs pins)
      ({ s with passes := 1, stage := st }.mid rest (evs ++ rowsEvents s.params st sd first 0 rowsRead)
        (rowsPins count pins)) :=
  (runs_setPasses hb).then (runs_pass (s := { s with passes := 1 }) hb htx hrd hn hy)

/-- The body of `REFRESH_ONCE` up to a row whose busy poll times out (R152, R159, R170). -/
theorem runs_refreshOnce_timeout {good : List (List Byte)} {bad : List Byte} (hlt : good.length < count)
    (hy : ∀ i (h : i < good.length), yields s sd i good[i]) (hbad : yields s sd good.length bad) :
    Runs ((rowsAnswers s.params st sd first good).append
        (rowAnswers s.params st sd (first + good.length) bad .timeout))
      (s.mid (.setPasses :: .pass st sd first count :: rest) evs pins)
      ({ s with passes := 1, stage := st, ms := s.ms + s.params.busyTimeoutMs }.timedOut
        (evs ++ rowsEvents s.params st sd first 0 good
          ++ rowEvents s.params st sd (first + good.length) good.length bad .timeout)
        (setLevel .cs true pins)) := by
  obtain ⟨m, hm⟩ := Nat.exists_eq_add_of_lt hlt
  exact (runs_setPasses hb).then (runs_pass_timeout (s := { s with passes := 1 }) hb htx hrd hm hy hbad)

end

/-- Settles O31: one pass over the rows that the checked source yields. -/
theorem refreshOnceCompletes : Obligations.RefreshOnceCompletes := by
  refine ⟨fun _ _ _ _ => rfl, readerAddr_toNat, ?_⟩
  rintro s st src fill rowsRead ⟨⟨hb, htx, hrd⟩, hc⟩ hp hr hrows
  obtain ⟨hlen, hy⟩ := yields_of_rangeOk hrows hr
  have hms : s.ms + totalElapsed (rowsAnswers s.params st ⟨src, fill, s.rdbase⟩ (rangeFirst s) rowsRead) =
      s.ms := by simp
  rw [hms]
  exact exec_settles (i := .refreshOnce st src fill) rfl hb (driver_run hc hp hr _)
    (runs_refreshOnce (s := s.started _ []) rfl htx hrd hlen hy) rfl

theorem rangeOk_mono {p : Params} {first m n : Nat} {src : Src} (h : rangeOk p first n src = true) (hmn : m ≤ n) :
    rangeOk p first m src = true := by
  rw [rangeOk_eq, Bool.and_eq_true, decide_eq_true_eq] at h ⊢
  exact ⟨by omega, srcFits_mono h.2 hmn⟩

theorem totalElapsed_rowAnswers_timeout (p : Params) (st : Stage) (sd : SrcDesc) (r : Nat) (src : List Byte) :
    totalElapsed (rowAnswers p st sd r src .timeout) = p.busyTimeoutMs := by
  simp [totalElapsed, rowAnswers]

/-- Settles O41: the rows before have been sent, and the poll of the next one times out. -/
theorem rowTimeoutEndsTheCommand : Obligations.RowTimeoutEndsTheCommand := by
  rintro s st src fill good bad ⟨⟨hb, htx, hrd⟩, hc⟩ hp hr hlt hrows p sd a
  have hms : totalElapsed a = p.busyTimeoutMs := by
    simp [a, totalElapsed_append, totalElapsed_rowAnswers_timeout]
  obtain ⟨-, hy⟩ := yields_of_rangeOk hrows (rangeOk_mono hr hlt)
  have hgood : ∀ i (h : i < good.length), yields s sd i good[i] := fun i h => by
    have := hy i (by simp; omega)
    rwa [List.getElem_append_left h] at this
  have hbad : yields s sd good.length bad := by simpa using hy good.length (by simp)
  rw [hms]
  exact exec_timesOut (i := .refreshOnce st src fill) rfl hb (driver_run hc hp hr _)
    (runs_refreshOnce_timeout (s := s.started _ []) rfl htx hrd hlt hgood hbad) rfl rfl

/-- Settles O32: one stage, whose passes' times add up to the duration. -/
theorem refreshRepeatRunsUntilDuration : Obligations.RefreshRepeatRunsUntilDuration := by
  rintro s st src fill before last ⟨⟨hb, htx, hrd⟩, hc⟩ hp hr hrows hlt hd
  exact exec_settles (i := .refreshRepeat st src fill) rfl hb (driver_run hc hp hr _)
    (runs_stage (s := s.started _ []) rfl htx hrd
      (fun q hq => yields_of_rangeOk (hrows q hq) hr) hlt hd) rfl

/-- Settles O33: the four stages of the fill. -/
theorem drvClearCompletes : Obligations.DrvClearCompletes := by
  rintro s fill d ⟨⟨hb, htx, hrd⟩, hc⟩ hp hr hd sd rowsRead f a
  have hr : rangeOk s.params (rangeFirst s) (rangeCount s) .fixed = true := by simpa [rangeOk] using hr
  have hy := yields_fillRows (s.started (encode (.drvClear fill)) []) (rangeCount s) fill 0
  exact exec_settles (i := .drvClear fill) rfl hb (driver_run hc hp hr _)
    (runs_sequence (s := s.started _ []) (rest := []) (f := f) rfl htx hrd hy hy hy hy hd) rfl

/-- The checks of `SHOW_IMAGE` pass (R153, R154, R173). -/
theorem showImage_run {s : State} {newSrc oldSrc : Src} {hasOld : Bool} {w : Word} (hc : cfgOk s.params = true)
    (hp : s.pwr = .on) (hr : rangeOk s.params (rangeFirst s) (rangeCount s) newSrc = true)
    (hr' : hasOld = true → rangeOk s.params (rangeFirst s) (rangeCount s) oldSrc = true) (todo : List Micro) :
    guarded [configCheck (s.launch w), rangeCheck newSrc (s.launch w),
        (hasOld && (rangeCheck oldSrc (s.launch w)).1, .invalidConfig), pwrCheck .on (s.launch w)] todo =
      .run todo [] := by
  refine guarded_run ?_
  have hnew : (rangeCheck newSrc (s.launch w)).1 = false := congrArg (!·) hr
  have hold : (hasOld && (rangeCheck oldSrc (s.launch w)).1) = false := by
    cases hasOld with
    | false => rfl
    | true => exact congrArg (!·) (hr' rfl)
  rw [hold]
  simp [firstError, configCheck, pwrCheck, hnew, hc, hp]

/-- Settles O34: the four stages, the first two from the old source. -/
theorem showImageCompletes : Obligations.ShowImageCompletes := by
  rintro s newSrc oldSrc hasOld fill f d ⟨⟨hb, htx, hrd⟩, hc⟩ hp hw hr hr' sdNew sdOld a hrows hd
  obtain ⟨hcomp, hwhite, hinv, hnorm⟩ := hrows
  have hold : rangeOk s.params (rangeFirst s) (rangeCount s) sdOld.src = true := by
    cases hasOld with
    | false => exact hr
    | true => exact hr' rfl
  have hplan := showImage_run (w := encode (.showImage newSrc oldSrc hasOld fill)) hc hp hr hr'
    (stageSequence sdOld sdNew (rangeFirst s) (rangeCount s))
  exact exec_settles (i := .showImage newSrc oldSrc hasOld fill) hw hb hplan
    (runs_sequence (s := s.started _ []) (rest := []) rfl htx hrd (yields_of_rangeOk hcomp hold)
      (yields_of_rangeOk hwhite hold) (yields_of_rangeOk hinv hr) (yields_of_rangeOk hnorm hr) hd) rfl

end Sys2Proof.Machine
end

section
/-! A running `PowerOff()` (O29): its position, its end, and the events that it may emit, whatever the
collaborators answer. -/

namespace Sys2Proof.Machine

open Sys2Proof

/-! ### The position of a power-off (R162) -/

/-- The micro-operations that the actions of a `PowerOff()` run as: their timeouts are ignored. -/
def OffStep : Micro → Prop
  | .perform _ fatal => fatal = false
  | .pollStart fatal => fatal = false
  | .polling _ fatal => fatal = false
  | .sleeping _ _ => True
  | .setPin _ _ => True
  | .send _ => True
  | _ => False

/-- The power states and positions of a `PowerOff()` that is to begin, runs, or is done. -/
inductive PowersOff : Pwr → List Micro → Prop where
  | begins (pwr : Pwr) : PowersOff pwr [.powerOff]
  | runs (pwr : Pwr) {ms : List Micro} (h : ∀ m ∈ ms, OffStep m) : PowersOff pwr (ms ++ [.setPwr .off])
  | done : PowersOff .off []

theorem Course.offStep {p : Params} {pwr : Pwr} {m : Micro} {new : List Micro} {evs : List Event}
    (h : Course p pwr m new evs) (hm : OffStep m) : ∀ x ∈ new, OffStep x := by
  cases m with
  | perform a fatal =>
    obtain rfl : fatal = false := hm
    cases a with
    | sleep n => obtain ⟨⟨t0, rfl⟩, -⟩ := h; simp [OffStep]
    | _ => obtain ⟨rfl, -⟩ := h; simp [OffStep]
  | pollStart fatal =>
    obtain rfl : fatal = false := hm
    obtain ⟨⟨t0, rfl⟩, -⟩ := h
    simp [OffStep]
  | polling t0 fatal =>
    obtain rfl : fatal = false := hm
    obtain ⟨rfl, -⟩ | ⟨rfl, -⟩ | ⟨-, rfl, -⟩ := h <;> simp [OffStep]
  | sleeping t0 n => obtain ⟨rfl | rfl, -⟩ := h <;> simp [OffStep]
  | setPin q v => obtain ⟨rfl, -⟩ := h; simp
  | send bytes =>
    cases bytes with
    | nil => obtain ⟨rfl, -⟩ := h; simp
    | cons b bs => obtain ⟨rfl, -⟩ | ⟨rfl, -⟩ := h <;> simp [OffStep]
  | _ => exact hm.elim

/-- An action's micro-operation writes `pwr` as little as the others of a power-off do. -/
theorem OffStep.pwrAfter {m : Micro} (h : OffStep m) (pwr : Pwr) : pwrAfter pwr m = pwr := by
  cases m with
  | setPwr v => exact h.elim
  | _ => rfl

/-- The head of a power-off's position: its beginning, an action, or its end. -/
theorem PowersOff.head_cases {pwr : Pwr} {m : Micro} {rest : List Micro} (h : PowersOff pwr (m :: rest)) :
    (m = .powerOff ∧ rest = []) ∨ (OffStep m ∧ ∃ ms, rest = ms ++ [.setPwr .off] ∧ ∀ x ∈ ms, OffStep x) ∨
      (m = .setPwr .off ∧ rest = []) := by
  generalize htodo : m :: rest = todo at h
  cases h with
  | begins => exact .inl (by simpa using htodo)
  | @runs _ ms hms =>
    cases ms with
    | nil => exact .inr (.inr (by simpa using htodo))
    | cons x ms =>
      obtain ⟨rfl, rfl⟩ := List.cons.inj htodo
      obtain ⟨hx, hms⟩ := List.forall_mem_cons.mp hms
      exact .inr (.inl ⟨hx, ms, rfl, hms⟩)
  | done => cases htodo

/-- A micro-operation of a power-off leaves a power-off to run, or done. -/
theorem Course.powersOff {p : Params} {pwr : Pwr} {m : Micro} {new rest : List Micro} {evs : List Event}
    (h : Course p pwr m new evs) (hp : PowersOff pwr (m :: rest)) :
    PowersOff (pwrAfter pwr m) (new ++ rest) := by
  obtain ⟨rfl, rfl⟩ | ⟨hm, ms, rfl, hms⟩ | ⟨rfl, rfl⟩ := hp.head_cases
  · obtain ⟨rfl, -⟩ := h
    by_cases hoff : pwr = .off
    · subst hoff
      exact .done
    · rw [if_neg hoff, List.append_nil]
      exact .runs pwr (by simp [OffStep])
  · rw [hm.pwrAfter, ← List.append_assoc]
    exact .runs pwr fun x hx => (List.mem_append.mp hx).elim (h.offStep hm x) (hms x)
  · obtain ⟨rfl, -⟩ := h
    exact .done

/-- No poll of a power-off is fatal. -/
theorem PowersOff.not_fatal {pwr : Pwr} {t0 : Word} {rest : List Micro} :
    ¬PowersOff pwr (.polling t0 true :: rest) := fun h => by
  obtain ⟨h, -⟩ | ⟨h, -⟩ | ⟨h, -⟩ := h.head_cases <;> cases h

/-- Only the head of a power-off's position may be its beginning. -/
theorem PowersOff.powerOff_not_mem_tail {pwr : Pwr} {m : Micro} {rest : List Micro}
    (h : PowersOff pwr (m :: rest)) : .powerOff ∉ rest := by
  obtain ⟨-, rfl⟩ | ⟨-, ms, rfl, hms⟩ | ⟨-, rfl⟩ := h.head_cases
  · simp
  · exact fun hmem => (List.mem_append.mp hmem).elim (hms _) (by simp)
  · simp

/-- With nothing left to run the power is off. -/
theorem PowersOff.pwr_eq {pwr : Pwr} (h : PowersOff pwr []) : pwr = .off := by
  generalize htodo : [] = todo at h
  cases h with
  | begins => cases htodo
  | runs => simp at htodo
  | done => rfl

/-- A `PWR_OFF` that was launched with the sticky flag `err`, before or after its completion. -/
def TearsDown (err : Bool) (s : State) : Prop :=
  s.err = err ∧
  ((s.busy = true ∧ s.seq.code = .ok ∧ PowersOff s.pwr s.seq.todo) ∨
    (s.busy = false ∧ s.errcode = .ok ∧ s.pwr = .off))

theorem tick_tearsDown {err : Bool} {s t : State} (hs : TearsDown err s) (h : tick s = .next t) :
    TearsDown err t := by
  obtain ⟨herr, hs⟩ := hs
  obtain ⟨-, rfl⟩ | ⟨hb, ht, rfl⟩ | ⟨m, rest, hb, ht, h⟩ := tick_cases h
  · exact ⟨herr, hs⟩
  · obtain ⟨-, hcode, hoff⟩ | ⟨hb', -⟩ := hs
    · rw [ht] at hoff
      exact ⟨by simp [herr, hcode], .inr ⟨rfl, hcode, hoff.pwr_eq⟩⟩
    · simp [hb] at hb'
  · obtain ⟨-, hcode, hoff⟩ | ⟨hb', -⟩ := hs
    · rw [ht] at hoff
      have herr' : t.err = err := ((congrArg State.err (runMicro_keeps h)).trans rfl).trans herr
      obtain ⟨new, evs, hc, hseq, -, hpwr⟩ | ⟨t0, rfl, -⟩ := runMicro_course h
      · refine ⟨herr', .inl ⟨(runMicro_busy h).trans hb, by rw [hseq]; exact hcode, ?_⟩⟩
        rw [hseq, hpwr]
        exact hc.powersOff hoff
      · exact absurd hoff PowersOff.not_fatal
    · simp [hb] at hb'

/-- Settles O29: every tick of a `PWR_OFF` leaves a power-off to run, or done, and raises no error. -/
theorem pwrOffNeverFails : Obligations.PwrOffNeverFails := by
  intro s t hb hc h hidle
  have hstart : TearsDown s.err (startOf .pwrOff s) := by
    have hplan : planOf .pwrOff (s.launch (encode .pwrOff)) = .run [.powerOff] [] :=
      configured_run (s := s.launch _) hc _ _
    rw [startOf_launched hb rfl, hplan]
    exact ⟨rfl, .inl ⟨rfl, rfl, .begins _⟩⟩
  rw [exec_eq] at h
  obtain ⟨herr, ⟨hb', -⟩ | ⟨-, hcode, hpwr⟩⟩ := ticks_keep tick_tearsDown hstart h
  · simp [hidle] at hb'
  · exact ⟨hcode, herr, hpwr⟩

/-! ### The events of a power-off (R160, R162) -/

/-- The events that a micro-operation of a power-off emits from its first tick to its last. -/
def MicroTrace (p : Params) (m : Micro) (evs : List Event) : Prop :=
  match m with
  | .powerOff => powerOffTrace p.powerOffSeq evs
  | .perform a _ => powerOffTrace [a] evs
  | .setPin q v => evs = [.pin q v]
  | .send bytes => evs = bytes.map .tx
  | .pollStart _ => ∃ r, evs = [.busy r]
  | .polling _ _ => ∃ r, evs = [.busy r]
  | _ => evs = []

/-- The events that a position of a power-off emits to its end. -/
def ListTrace (p : Params) : List Micro → List Event → Prop
  | [], evs => evs = []
  | m :: rest, evs => ∃ a b, evs = a ++ b ∧ MicroTrace p m a ∧ ListTrace p rest b

theorem listTrace_append {p : Params} {ms ms' : List Micro} {evs : List Event} (h : ListTrace p (ms ++ ms') evs) :
    ∃ a b, evs = a ++ b ∧ ListTrace p ms a ∧ ListTrace p ms' b := by
  induction ms generalizing evs with
  | nil => exact ⟨[], evs, rfl, rfl, h⟩
  | cons m ms ih =>
    obtain ⟨a, b, rfl, hm, h⟩ := h
    obtain ⟨c, d, rfl, hms, h⟩ := ih h
    exact ⟨a ++ c, d, by simp, ⟨a, c, rfl, hm, hms⟩, h⟩

theorem listTrace_single {p : Params} {m : Micro} {evs : List Event} :
    ListTrace p [m] evs ↔ MicroTrace p m evs := by
  simp [ListTrace]

theorem powerOffTrace_cons {a : PowerAction} {as : List PowerAction} {evs tail : List Event}
    (h : powerOffTrace [a] evs) (ht : powerOffTrace as tail) : powerOffTrace (a :: as) (evs ++ tail) := by
  cases a with
  | waitBusy => obtain ⟨r, _, rfl, rfl⟩ := h; exact ⟨r, tail, rfl, ht⟩
  | _ => obtain ⟨_, rfl, rfl⟩ := h; exact ⟨tail, by simp, ht⟩

theorem listTrace_powerOff {p : Params} {as : List PowerAction} {evs : List Event}
    (h : ListTrace p (as.map (fun a => .perform a false) ++ [.setPwr .off]) evs) : powerOffTrace as evs := by
  induction as generalizing evs with
  | nil => exact listTrace_single.mp h
  | cons a as ih =>
    obtain ⟨x, y, rfl, ha, h⟩ := h
    exact powerOffTrace_cons ha (ih h)

/-- What a micro-operation of a power-off emits now, and what it leaves emits later, is what it may emit. -/
theorem Course.microTrace {p : Params} {pwr : Pwr} {m : Micro} {new rest : List Micro} {evs more : List Event}
    (h : Course p pwr m new evs) (hm : PowersOff pwr (m :: rest)) (hpwr : m = .powerOff → pwr ≠ .off)
    (ht : ListTrace p new more) : MicroTrace p m (evs ++ more) := by
  obtain ⟨rfl, -⟩ | ⟨hm, -⟩ | ⟨rfl, -⟩ := hm.head_cases
  · obtain ⟨rfl, rfl⟩ := h
    rw [if_neg (hpwr rfl)] at ht
    exact listTrace_powerOff ht
  · cases m with
    | perform a fatal =>
      cases a with
      | pin q v => obtain ⟨rfl, rfl⟩ := h; obtain rfl := ht; exact ⟨[], rfl, rfl⟩
      | sleep n =>
        obtain ⟨⟨t0, rfl⟩, rfl⟩ := h
        obtain rfl := listTrace_single.mp ht
        exact ⟨[], rfl, rfl⟩
      | xfer bs =>
        obtain ⟨rfl, rfl⟩ := h
        obtain ⟨_, _, rfl, rfl, _, _, rfl, rfl, ht⟩ := ht
        obtain rfl := listTrace_single.mp ht
        exact ⟨[], by simp [actionEvents], rfl⟩
      | waitBusy =>
        obtain ⟨rfl, rfl⟩ := h
        obtain ⟨r, rfl⟩ := listTrace_single.mp ht
        exact ⟨r, [], rfl, rfl⟩
    | sleeping t0 n =>
      obtain ⟨rfl | rfl, rfl⟩ := h
      · exact ht
      · exact listTrace_single.mp ht
    | setPin q v => obtain ⟨rfl, rfl⟩ := h; obtain rfl := ht; rfl
    | send bytes =>
      cases bytes with
      | nil => obtain ⟨rfl, rfl⟩ := h; exact ht
      | cons b bs =>
        obtain ⟨rfl, rfl⟩ | ⟨rfl, rfl⟩ := h
        · obtain rfl := listTrace_single.mp ht; rfl
        · exact listTrace_single.mp ht
    | pollStart fatal =>
      obtain ⟨⟨t0, rfl⟩, rfl⟩ := h
      exact listTrace_single.mp ht
    | polling t0 fatal =>
      obtain ⟨rfl, rfl⟩ | ⟨rfl, rfl⟩ | ⟨-, rfl, rfl⟩ := h
      · obtain rfl := ht; exact ⟨_, rfl⟩
      · exact listTrace_single.mp ht
      · obtain rfl := ht; exact ⟨_, rfl⟩
    | _ => exact hm.elim
  · obtain ⟨rfl, rfl⟩ := h
    exact ht

end Sys2Proof.Machine
end

section
/-! Nothing follows a fatal busy timeout but the power-off that `DISPLAY` catches it with (O60): what a running
command may still do, before and after a timeout. -/

namespace Sys2Proof.Machine

open Sys2Proof

/-! ### Which micro-operations can fail, and which ignore a timeout -/

/-- The micro-operations that may come to a fatal busy poll (R152, R159, R161). -/
def CanFail : Micro → Prop
  | .powerOn => True
  | .perform _ fatal => fatal = true
  | .pollStart fatal => fatal = true
  | .polling _ fatal => fatal = true
  | .stage _ _ _ _ => True
  | .passStart _ _ _ _ _ _ => True
  | .passEnd _ _ _ _ _ _ _ => True
  | .pass _ _ _ _ => True
  | .rows _ _ _ _ _ => True
  | .row _ _ _ _ => True
  | .request _ _ _ => True
  | .collect _ _ _ _ => True
  | _ => False

/-- The micro-operations that may come to a busy poll whose timeout is ignored (R162). -/
def Ignores : Micro → Prop
  | .powerOff => True
  | .perform _ fatal => fatal = false
  | .pollStart fatal => fatal = false
  | .polling _ fatal => fatal = false
  | _ => False

theorem Ignores.not_canFail {m : Micro} (h : Ignores m) : ¬CanFail m := by
  cases m with
  | perform a fatal => exact fun hf : fatal = true => by cases h.symm.trans hf
  | pollStart fatal => exact fun hf : fatal = true => by cases h.symm.trans hf
  | polling t0 fatal => exact fun hf : fatal = true => by cases h.symm.trans hf
  | powerOff => exact id
  | _ => exact h.elim

/-- A micro-operation passes on which of the two kinds of poll it may come to. -/
theorem Course.polls {p : Params} {pwr : Pwr} {m : Micro} {new : List Micro} {evs : List Event}
    (h : Course p pwr m new evs) : ∀ x ∈ new, (CanFail x → CanFail m) ∧ (Ignores x → Ignores m) := by
  cases m with
  | powerOn => obtain ⟨rfl, -⟩ := h; simp [CanFail, Ignores, or_imp, forall_and]
  | powerOff => obtain ⟨rfl, -⟩ := h; split <;> simp [CanFail, Ignores, or_imp, forall_and]
  | perform a fatal =>
    cases a with
    | sleep n => obtain ⟨⟨t0, rfl⟩, -⟩ := h; simp [CanFail, Ignores]
    | _ => obtain ⟨rfl, -⟩ := h; simp [CanFail, Ignores]
  | sleeping t0 n => obtain ⟨rfl | rfl, -⟩ := h <;> simp
  | send bytes =>
    cases bytes with
    | nil => obtain ⟨rfl, -⟩ := h; simp
    | cons b bs => obtain ⟨rfl, -⟩ | ⟨rfl, -⟩ := h <;> simp [CanFail, Ignores]
  | pollStart fatal => obtain ⟨⟨t0, rfl⟩, -⟩ := h; simp [CanFail, Ignores]
  | polling t0 fatal => obtain ⟨rfl, -⟩ | ⟨rfl, -⟩ | ⟨-, rfl, -⟩ := h <;> simp
  | stage st sd first count => obtain ⟨⟨d, rfl⟩, -⟩ := h; simp [CanFail, Ignores]
  | passStart st sd first count d n => obtain ⟨⟨t0, rfl⟩, -⟩ := h; simp [CanFail, Ignores]
  | passEnd st sd first count d n t0 => obtain ⟨rfl | rfl, -⟩ := h <;> simp [CanFail, Ignores]
  | rows st sd r k left => cases left <;> (obtain ⟨rfl, -⟩ := h; simp [CanFail, Ignores])
  | row st sd r k => obtain ⟨⟨src, rfl⟩ | rfl, -⟩ := h <;> simp [CanFail, Ignores]
  | request st r addr => obtain ⟨rfl, -⟩ | ⟨rfl, -⟩ := h <;> simp [CanFail, Ignores]
  | collect st r got left =>
    cases left with
    | zero => obtain ⟨rfl, -⟩ := h; simp [CanFail, Ignores]
    | succ n => obtain ⟨⟨b, rfl⟩ | rfl, -⟩ := h <;> simp [CanFail, Ignores]
  | _ => obtain ⟨rfl, -⟩ := h; simp [CanFail, Ignores]

/-- A timeout that ends no command is one that a poll ignores. -/
theorem Course.ignores_of_timeout {p : Params} {pwr : Pwr} {m : Micro} {new : List Micro} {evs : List Event}
    (h : Course p pwr m new evs) (ht : .busy .timeout ∈ evs) : Ignores m := by
  cases m with
  | perform a fatal => cases a <;> (obtain ⟨-, rfl⟩ := h; simp at ht)
  | send bytes =>
    cases bytes with
    | nil => obtain ⟨-, rfl⟩ := h; simp at ht
    | cons b bs => obtain ⟨-, rfl⟩ | ⟨-, rfl⟩ := h <;> simp at ht
  | polling t0 fatal =>
    obtain ⟨-, rfl⟩ | ⟨-, rfl⟩ | ⟨hfatal, -⟩ := h
    · simp at ht
    · simp at ht
    · exact hfatal
  | rows st sd r k left => cases left <;> (obtain ⟨-, rfl⟩ := h; simp at ht)
  | request st r addr => obtain ⟨-, rfl⟩ | ⟨-, rfl⟩ := h <;> simp at ht
  | collect st r got left => cases left <;> (obtain ⟨-, rfl⟩ := h; simp at ht)
  | sampleTemp => obtain ⟨-, rfl | ⟨t, rfl⟩⟩ := h <;> simp at ht
  | _ => obtain ⟨-, rfl⟩ := h; simp at ht

/-- Timeouts are ignored only once nothing can fail any more. -/
def IgnoresLast (ms : List Micro) : Prop := ms.Pairwise fun m x => Ignores m → ¬CanFail x

/-- Micro-operations that ignore no timeout may stand in front. -/
theorem ignoresLast_append {ms rest : List Micro} (h : ∀ m ∈ ms, ¬Ignores m) (hrest : IgnoresLast rest) :
    IgnoresLast (ms ++ rest) := by
  induction ms with
  | nil => exact hrest
  | cons m ms ih =>
    obtain ⟨hm, hms⟩ := List.forall_mem_cons.mp h
    exact List.pairwise_cons.mpr ⟨fun _ _ hi => absurd hi hm, ih hms⟩

/-! ### The plans -/

/-- What runs after a `DEVICE_TIMEOUT` of a command (R207). -/
def catchOf : Instr → List Micro
  | .display _ _ true => [.powerOff]
  | _ => []

theorem displayStages_not_ignores (clearFirst : Bool) (s : State) :
    ∀ m ∈ displayStages clearFirst s, ¬Ignores m := by
  unfold displayStages
  split
  · cases clearFirst <;> simp [stageSequence, Ignores]
  · simp [stageSequence, Ignores]

/-- A plan that runs ignores timeouts only at its end, and catches them as `catchOf` says. -/
theorem planOf_ignoresLast {i : Instr} {s : State} {todo onTimeout : List Micro}
    (h : planOf i s = .run todo onTimeout) : IgnoresLast todo ∧ onTimeout = catchOf i := by
  cases i with
  | nop => cases h; exact ⟨.nil, rfl⟩
  | pwrOn => obtain ⟨-, rfl, rfl⟩ := guarded_eq_run h; exact ⟨List.pairwise_singleton .., rfl⟩
  | pwrOff => obtain ⟨-, rfl, rfl⟩ := guarded_eq_run h; exact ⟨List.pairwise_singleton .., rfl⟩
  | setTemp temp => obtain ⟨-, rfl, rfl⟩ := guarded_eq_run h; exact ⟨List.pairwise_singleton .., rfl⟩
  | sampleTemp => obtain ⟨-, rfl, rfl⟩ := guarded_eq_run h; exact ⟨List.pairwise_singleton .., rfl⟩
  | selSeg index => obtain ⟨-, rfl, rfl⟩ := guarded_eq_run h; exact ⟨List.pairwise_singleton .., rfl⟩
  | refreshRepeat stage src fill =>
    obtain ⟨-, rfl, rfl⟩ := guarded_eq_run h
    exact ⟨List.pairwise_singleton .., rfl⟩
  | refreshOnce stage src fill =>
    obtain ⟨-, rfl, rfl⟩ := guarded_eq_run h
    exact ⟨by simp [IgnoresLast, Ignores], rfl⟩
  | drvClear fill =>
    obtain ⟨-, rfl, rfl⟩ := guarded_eq_run h
    exact ⟨by simp [IgnoresLast, stageSequence, Ignores], rfl⟩
  | showImage newSrc oldSrc hasOld fill =>
    obtain ⟨-, rfl, rfl⟩ := guarded_eq_run h
    exact ⟨by simp [IgnoresLast, stageSequence, Ignores], rfl⟩
  | setPixel black x y =>
    obtain ⟨-, rfl, rfl⟩ := guarded_eq_run h
    refine ⟨?_, rfl⟩
    unfold paintPlan
    split <;> simp [IgnoresLast]
  | display clearFirst doPwrOn doPwrOff =>
    obtain ⟨-, rfl, rfl⟩ := guarded_eq_run h
    have hoff : IgnoresLast (if doPwrOff then [.powerOff] else []) := by cases doPwrOff <;> simp [IgnoresLast]
    refine ⟨ignoresLast_append (fun m hm => ?_) hoff, by cases doPwrOff <;> rfl⟩
    obtain hm | hm := List.mem_append.mp hm
    · simp only [List.mem_ite_nil_right, List.mem_singleton] at hm
      rw [hm.2]
      exact id
    · exact displayStages_not_ignores clearFirst s m hm
  | fbClear =>
    obtain ⟨-, rfl, rfl⟩ := guarded_eq_run h
    refine ⟨?_, rfl⟩
    split <;> simp [IgnoresLast, stageSequence, Ignores]

theorem code_of_guarded_fail {checks : List (Bool × Code)} {todo onTimeout : List Micro} {c : Code}
    (h : guarded checks todo onTimeout = .fail c) : c ∈ checks.map Prod.snd := by
  obtain ⟨c', hf, hg⟩ | ⟨-, hg⟩ := guarded_cases checks todo onTimeout <;> rw [hg] at h <;> cases h
  exact List.mem_map_of_mem (firstError_mem hf)

/-- No check fails with `DEVICE_TIMEOUT` (R238). -/
theorem planOf_fail {i : Instr} {s : State} {c : Code} (h : planOf i s = .fail c) : c ≠ .deviceTimeout := by
  rintro rfl
  cases i with
  | nop => cases h
  | _ =>
    have := code_of_guarded_fail h
    simp [configCheck, rangeCheck, pwrCheck] at this

/-! ### A command before and after a timeout -/

/-- The events that a catch adds (R207): none, or those of the power-off. -/
def CatchTrace (p : Params) (onTimeout : List Micro) (tail : List Event) : Prop :=
  if onTimeout = [] then tail = [] else powerOffTrace p.powerOffSeq tail

/-- What is left of a catch: nothing, or a power-off that has not found the power off at its beginning. -/
def Catching (onTimeout : List Micro) (pwr : Pwr) (todo : List Micro) : Prop :=
  if onTimeout = [] then todo = [] ∧ pwr = .fault
  else PowersOff pwr todo ∧ (.powerOff ∈ todo → pwr ≠ .off)

/-- A command that was launched after the events `start`, with its catch: no timeout yet; or nothing can fail any
more; or a fatal timeout, with the events `tail` after it so far and what its catch may still emit; or completed. -/
inductive Story (p : Params) (onTimeout : List Micro) (start : List Event) (s : State) : Prop where
  | running (hb : s.busy = true) (hcode : s.seq.code ≠ .deviceTimeout) (hcatch : s.seq.onTimeout = onTimeout)
    (hlast : IgnoresLast s.seq.todo) (evs : List Event) (htrace : s.trace = start ++ evs)
    (hevs : .busy .timeout ∉ evs)
  | harmless (hb : s.busy = true) (hcode : s.seq.code ≠ .deviceTimeout) (hsafe : ∀ m ∈ s.seq.todo, ¬CanFail m)
  | timedOut (hb : s.busy = true) (hcode : s.seq.code = .deviceTimeout)
    (hcatch : Catching onTimeout s.pwr s.seq.todo) (evs tail : List Event)
    (htrace : s.trace = start ++ evs ++ [.busy .timeout] ++ tail) (hevs : .busy .timeout ∉ evs)
    (htail : ∀ more, ListTrace p s.seq.todo more → CatchTrace p onTimeout (tail ++ more))
  | completed (hb : s.busy = false) (hcode : s.errcode ≠ .deviceTimeout)
  | failed (hb : s.busy = false) (evs tail : List Event)
    (htrace : s.trace = start ++ evs ++ [.busy .timeout] ++ tail ++ [.done .deviceTimeout])
    (hevs : .busy .timeout ∉ evs) (htail : CatchTrace p onTimeout tail)

theorem complete_story {p : Params} {onTimeout : List Micro} {start : List Event} {s : State}
    (hs : Story p onTimeout start s) (hb : s.busy = true) (ht : s.seq.todo = []) :
    Story p onTimeout start s.complete := by
  cases hs with
  | running _ hcode => exact .completed rfl hcode
  | harmless _ hcode => exact .completed rfl hcode
  | timedOut _ hcode hcatch evs tail htrace hevs htail =>
    have htail : CatchTrace p onTimeout (tail ++ []) := htail [] (by rw [ht]; rfl)
    rw [List.append_nil] at htail
    exact .failed rfl evs tail (by rw [State.complete_trace, htrace, hcode]) hevs htail
  | completed hb' => simp [hb] at hb'
  | failed hb' => simp [hb] at hb'

/-- A fatal timeout begins the catch. -/
theorem story_of_timeout {p : Params} {i : Instr} {start evs : List Event} {s : State} (hb : s.busy = true)
    (hseq : s.seq = ⟨catchOf i, .deviceTimeout, []⟩) (hpwr : s.pwr = .fault)
    (htrace : s.trace = start ++ evs ++ [.busy .timeout]) (hevs : .busy .timeout ∉ evs) :
    Story p (catchOf i) start s := by
  have hcases : catchOf i = [] ∨ catchOf i = [.powerOff] := by
    unfold catchOf
    split
    · exact .inr rfl
    · exact .inl rfl
  refine .timedOut hb (by rw [hseq]) ?_ evs [] (by simpa using htrace) hevs ?_ <;> rw [hseq]
  · obtain h | h := hcases <;> rw [h, hpwr]
    · exact ⟨rfl, rfl⟩
    · exact ⟨.begins _, by simp⟩
  · obtain h | h := hcases <;> rw [h] <;> intro more hmore
    · exact hmore
    · exact listTrace_single.mp hmore

section
variable {p : Params} {onTimeout : List Micro} {start : List Event} {m : Micro} {rest : List Micro} {s t : State}
  (hb : s.busy = true) (ht : s.seq.todo = m :: rest) (h : runMicro m (s.setTodo rest) = .next t)
include hb ht h

/-- Where nothing can fail, nothing can fail later. -/
theorem runMicro_harmless (hcode : s.seq.code ≠ .deviceTimeout) (hsafe : ∀ x ∈ s.seq.todo, ¬CanFail x) :
    Story p onTimeout start t := by
  rw [ht, List.forall_mem_cons] at hsafe
  obtain ⟨new, evs, hc, hseq, -, -⟩ | ⟨t0, rfl, -⟩ := runMicro_course h
  · refine .harmless ((runMicro_busy h).trans hb) (by rw [hseq]; exact hcode) fun x hx => ?_
    rw [hseq] at hx
    exact (List.mem_append.mp hx).elim (fun hn hf => hsafe.1 ((hc.polls x hn).1 hf)) (hsafe.2 x)
  · exact absurd rfl hsafe.1

/-- Before any timeout: once a timeout may be ignored nothing can fail, and a fatal one begins the catch. -/
theorem runMicro_running {i : Instr} (hcode : s.seq.code ≠ .deviceTimeout) (hcatch : s.seq.onTimeout = catchOf i)
    (hlast : IgnoresLast s.seq.todo) {evs : List Event} (htrace : s.trace = start ++ evs)
    (hevs : .busy .timeout ∉ evs) : Story p (catchOf i) start t := by
  have hpair := hlast
  rw [ht] at hpair
  obtain ⟨hm, hrest⟩ := List.pairwise_cons.mp hpair
  by_cases hi : Ignores m
  · refine runMicro_harmless hb ht h hcode ?_
    rw [ht]
    exact List.forall_mem_cons.mpr ⟨hi.not_canFail, fun x hx => hm x hx hi⟩
  · have hbusy : t.busy = true := (runMicro_busy h).trans hb
    obtain ⟨new, evs', hc, hseq, htr, -⟩ | ⟨t0, rfl, hseq, htr, hpwr⟩ := runMicro_course h
    · refine .running hbusy (by rw [hseq]; exact hcode) (by rw [hseq]; exact hcatch) ?_ (evs ++ evs') ?_ ?_
      · rw [hseq]
        exact ignoresLast_append (fun x hx hx' => hi ((hc.polls x hx).2 hx')) hrest
      · rw [htr, State.setTodo_trace, htrace, List.append_assoc]
      · exact fun hmem => (List.mem_append.mp hmem).elim hevs fun h' => hi (hc.ignores_of_timeout h')
    · refine story_of_timeout hbusy (by rw [hseq, State.setTodo_seq, hcatch]) hpwr ?_ hevs
      rw [htr, State.setTodo_trace, htrace]

/-- In the catch: its micro-operations are those of a power-off, and emit what a power-off may. -/
theorem runMicro_timedOut (hcode : s.seq.code = .deviceTimeout) (hcatch : Catching onTimeout s.pwr s.seq.todo)
    {evs tail : List Event} (htrace : s.trace = start ++ evs ++ [.busy .timeout] ++ tail)
    (hevs : .busy .timeout ∉ evs)
    (htail : ∀ more, ListTrace s.params s.seq.todo more → CatchTrace s.params onTimeout (tail ++ more)) :
    Story s.params onTimeout start t := by
  rw [ht] at hcatch htail
  by_cases hnil : onTimeout = []
  · rw [Catching, if_pos hnil] at hcatch
    cases hcatch.1
  · rw [Catching, if_neg hnil] at hcatch
    obtain ⟨hoff, hpwr⟩ := hcatch
    obtain ⟨new, evs', hc, hseq, htr, hpwr'⟩ | ⟨t0, rfl, -⟩ := runMicro_course h
    · refine .timedOut ((runMicro_busy h).trans hb) (by rw [hseq]; exact hcode) ?_ evs (tail ++ evs') ?_ hevs
        fun more hmore => ?_
      · rw [Catching, if_neg hnil, hseq, hpwr']
        have hnew : .powerOff ∉ new := fun hn => by simpa [Inner] using (hc.brings _ hn).inner
        have hnot : .powerOff ∉ new ++ rest := by simp [hnew, hoff.powerOff_not_mem_tail]
        exact ⟨hc.powersOff hoff, fun hmem => absurd hmem hnot⟩
      · rw [htr, State.setTodo_trace, htrace, List.append_assoc _ tail]
      · rw [hseq] at hmore
        obtain ⟨x, y, rfl, hn, hr⟩ := listTrace_append hmore
        have := htail (evs' ++ x ++ y) ⟨evs' ++ x, y, rfl, hc.microTrace hoff (fun he => hpwr (by simp [he])) hn, hr⟩
        simpa only [List.append_assoc] using this
    · exact absurd hoff PowersOff.not_fatal

end

theorem tick_story {i : Instr} {start : List Event} {s t : State} (hs : Story s.params (catchOf i) start s)
    (h : tick s = .next t) : Story s.params (catchOf i) start t := by
  obtain ⟨-, rfl⟩ | ⟨hb, ht, rfl⟩ | ⟨m, rest, hb, ht, h⟩ := tick_cases h
  · exact hs
  · exact complete_story hs hb ht
  · cases hs with
    | running _ hcode hcatch hlast evs htrace hevs =>
      exact runMicro_running hb ht h hcode hcatch hlast htrace hevs
    | harmless _ hcode hsafe => exact runMicro_harmless hb ht h hcode hsafe
    | timedOut _ hcode hcatch evs tail htrace hevs htail =>
      exact runMicro_timedOut hb ht h hcode hcatch htrace hevs htail
    | completed hb' => simp [hb] at hb'
    | failed hb' => simp [hb] at hb'

/-- Every command begins before any timeout, or has failed a check, or was illegal. -/
theorem startOf_story (i : Instr) {s : State} (hb : s.busy = false) :
    Story s.params (catchOf i) (s.trace ++ [.cmd (encode i)]) (startOf i s) := by
  refine startOf_keeps (fun hb' => by simp [hb] at hb') (fun _ _ => ?_) fun _ =>
    .completed rfl (by simp [State.refuse])
  refine follow_keeps (fun c hp => ?_) fun todo onTimeout hp => ?_
  · exact .harmless rfl (planOf_fail hp) (by simp [Seq.idle])
  · obtain ⟨hlast, hcatch⟩ := planOf_ignoresLast hp
    exact .running rfl (by simp) hcatch hlast [] (by simp) (by simp)

/-- Settles O60: a completed command with `DEVICE_TIMEOUT` is the one of `Story` that failed. -/
theorem nothingIsSentAfterATimeout : Obligations.NothingIsSentAfterATimeout := by
  intro s t i hb h hidle hcode
  rw [exec_eq] at h
  have keep : ∀ {u v : State},
      u.params = s.params ∧ Story s.params (catchOf i) (s.trace ++ [.cmd (encode i)]) u → tick u = .next v →
        v.params = s.params ∧ Story s.params (catchOf i) (s.trace ++ [.cmd (encode i)]) v := by
    rintro u v ⟨hp, hu⟩ huv
    exact ⟨(congrArg HostSide.params (tick_hostSide huv)).trans hp, hp ▸ tick_story (hp.symm ▸ hu) huv⟩
  obtain ⟨-, hs⟩ := ticks_keep keep
    ⟨congrArg HostSide.params (startOf_hostSide i s), startOf_story i hb⟩ h
  cases hs with
  | running hb' => simp [hidle] at hb'
  | harmless hb' => simp [hidle] at hb'
  | timedOut hb' => simp [hidle] at hb'
  | completed _ hcode' => exact absurd hcode hcode'
  | failed _ evs tail htrace hevs htail =>
    refine ⟨evs, tail, htrace, hevs, ?_⟩
    cases i with
    | display clearFirst doPwrOn doPwrOff => cases doPwrOff <;> exact htail
    | _ => exact htail

end Sys2Proof.Machine
end

section
/-! The pixel and segment commands (O22 to O25) and the frame of the buffers (O46). -/

namespace Sys2Proof.Machine

open Sys2Proof

/-- A launched command that has nothing to run, and has met no error, completes with `OK`. -/
theorem complete_launch (w : Word) (s : State) : (s.launch w).complete = State.completed w .ok [] s :=
  complete_launched w .ok [] s

/-! ### `SEL_SEG` (R205) -/

/-- With a valid configuration `SEG_COUNT` is `ROWS div H` (R44). -/
theorem segCount_eq_div {p : Params} (hc : cfgOk p = true) : segCount p = p.rows / p.segHeight :=
  if_neg (segHeight_pos hc).ne'

theorem planSelSeg_run {s : State} {index : BitVec 16} (hc : cfgOk s.params = true)
    (h : index.toNat < segCount s.params) : planSelSeg index s = .run [.selectSegment index] [] :=
  guarded_run (by simp [firstError, configCheck, hc, h])

theorem planSelSeg_fail {s : State} {index : BitVec 16} (hc : cfgOk s.params = true)
    (h : segCount s.params ≤ index.toNat) : planSelSeg index s = .fail .invalidConfig := by
  simp [planSelSeg, guarded, firstError, configCheck, hc, h]

/-- Settles O22: the one micro-operation writes `seg` and an empty `RES`, or the check of the index fails. -/
theorem selSegSelectsAndClears : Obligations.SelSegSelectsAndClears := by
  intro s index hb hc hg
  rw [← segCount_eq_div hc]
  refine ⟨fun h => ?_, fun h => ?_⟩
  · have hplan := planSelSeg_run (s := s.launch (encode (.selSeg index))) hc h
    refine ⟨State.completed _ .ok [] { s with seg := index, res := [] }, ?_, rfl, fun _ => rfl⟩
    rw [exec_single (i := .selSeg index) hb rfl hplan rfl rfl hg]
    exact congrArg Host.Outcome.next (complete_launch _ { s with seg := index, res := [] })
  · exact exec_fail (i := .selSeg index) hb rfl (planSelSeg_fail (s := s.launch _) hc h) (by omega)

/-! ### One pixel (R92 to R94, R206) -/

theorem translate_outOfBounds {p : Params} {seg : Nat} {x y : Int}
    (h : x < 0 ∨ (p.columns : Int) ≤ x ∨ y < 0 ∨ (p.rows : Int) ≤ y) : translate p seg x y = .outOfBounds :=
  if_pos h

theorem translate_clipped {p : Params} {seg : Nat} {x y : Int}
    (hcanvas : ¬(x < 0 ∨ (p.columns : Int) ≤ x ∨ y < 0 ∨ (p.rows : Int) ≤ y))
    (h : y < (seg * p.segHeight : Nat) ∨ (seg * p.segHeight + p.segHeight : Nat) ≤ y) :
    translate p seg x y = .clipped :=
  (if_neg hcanvas).trans (if_pos h)

/-- The plan of `SET_PIXEL` by the place of its pixel. -/
theorem planSetPixel_eq {s : State} {black : Bool} {x y : BitVec 12} (hc : cfgOk s.params = true) :
    planSetPixel black x y s =
      match pixelOf x y s with
      | .outOfBounds => .fail .outOfBoundsPixel
      | .clipped => .run [] []
      | .at byteIx mask => .run [.paint byteIx mask black] [] := by
  cases h : pixelOf x y s <;> simp [planSetPixel, guarded, firstError, configCheck, paintPlan, hc, h]

theorem getLsbD_paintByte (mask b : Byte) (black : Bool) {i : Nat} (hi : i < 8) :
    (paintByte mask black b).getLsbD i = if mask.getLsbD i then black else b.getLsbD i := by
  cases black with
  | true => rw [paintByte, if_pos rfl, BitVec.getLsbD_or]; cases mask.getLsbD i <;> simp
  | false =>
    rw [paintByte, if_neg Bool.false_ne_true, BitVec.getLsbD_and, BitVec.getLsbD_not]
    cases mask.getLsbD i <;> simp [hi]

theorem getLsbD_oneBit : ∀ k < 8, ∀ i < 8, (1#8 <<< k).getLsbD i = decide (i = k) := by decide

/-- The last colour painted on a bit counts (R217 (a), (b)). -/
theorem paintByte_paintByte (mask b : Byte) (first last : Bool) :
    paintByte mask last (paintByte mask first b) = paintByte mask last b := by
  refine BitVec.eq_of_getLsbD_eq fun i hi => ?_
  simp only [getLsbD_paintByte _ _ _ hi]
  split <;> rfl

/-- The last colour drawn on a pixel counts. -/
theorem memRead_drawPixel_drawPixel (p : Params) (seg : Nat) (m : List Host.Cell) (x y : Int)
    (first last : Bool) (j : Nat) :
    memRead (drawPixel p seg (drawPixel p seg m (x, y, first)) (x, y, last)) j =
      memRead (drawPixel p seg m (x, y, last)) j := by
  by_cases hat : ∃ mask, translate p seg x y = .at j mask
  · obtain ⟨mask, hat⟩ := hat
    simp only [memRead_drawPixel_at (call := (x, y, _)) hat, paintByte_paintByte]
  · rw [not_exists] at hat
    simp only [memRead_drawPixel_elsewhere (call := (x, y, _)) hat]

/-- Settles O25: the second colour counts, whatever the first was. -/
theorem setPixelIsIdempotent : Obligations.SetPixelIsIdempotent := fun p seg m x y black j =>
  ⟨memRead_drawPixel_drawPixel p seg m x y black black j, memRead_drawPixel_drawPixel p seg m x y true false j⟩

/-- An in-segment `SET_PIXEL` does to `RES` what `drawPixel` does, and nothing else. -/
theorem exec_setPixel_at {s : State} {black : Bool} {x y : BitVec 12} {byteIx : Nat} {mask : Byte}
    (hb : s.busy = false) (hc : cfgOk s.params = true) (hg : 2 ≤ s.inputs.gap)
    (hat : translate s.params s.seg.toNat x.toInt y.toInt = .at byteIx mask) :
    exec (.setPixel black x y) s =
      .next (State.completed (encode (.setPixel black x y)) .ok []
        { s with res := drawPixel s.params s.seg.toNat s.res (x.toInt, y.toInt, black) }) := by
  have hplan : planSetPixel black x y (s.launch (encode (.setPixel black x y))) =
      .run [.paint byteIx mask black] [] := by
    rw [planSetPixel_eq (s := s.launch _) hc, show pixelOf x y (s.launch _) = .at byteIx mask from hat]
  have hpaint : runMicro (.paint byteIx mask black) (s.launch (encode (.setPixel black x y))) =
      .next (State.launch (encode (.setPixel black x y))
        { s with res := drawPixel s.params s.seg.toNat s.res (x.toInt, y.toInt, black) }) := by
    rw [drawPixel, hat]
    exact if_pos (translate_at_lt hc hat)
  rw [exec_single (i := .setPixel black x y) hb rfl hplan hpaint rfl hg, complete_launch]

/-- Bit by bit, painting the mask of column `i` sets its bit to the colour. -/
theorem getLsbD_paintByte_oneBit (b : Byte) (black : Bool) (i : Nat) {bitIx : Nat} (h : bitIx < 8) :
    (paintByte (1#8 <<< (i % 8)) black b).getLsbD bitIx = if bitIx = i % 8 then black else b.getLsbD bitIx := by
  rw [getLsbD_paintByte _ _ _ h, getLsbD_oneBit _ (Nat.mod_lt i (by decide)) _ h]
  simp only [decide_eq_true_eq]

/-- A coordinate that is not negative is its unsigned value (R122). -/
theorem toInt_toNat_of_nonneg {w : Nat} {x : BitVec w} (h : 0 ≤ x.toInt) : x.toInt.toNat = x.toNat := by
  rw [BitVec.toInt_eq_toNat_cond] at h ⊢
  split at h <;> split <;> omega

/-- Settles O23: the pixel has the place of R94, and painting the one bit of its mask leaves the others. -/
theorem setPixelPaintsOneBit : Obligations.SetPixelPaintsOneBit := by
  intro s black x y hb hc hx hcol hy hrow hlo hhi hg
  have hat : translate s.params s.seg.toNat x.toInt y.toInt =
      .at (x.toNat / 8 + (y.toNat - s.seg.toNat * s.params.segHeight) * s.params.bpr) (1#8 <<< (x.toNat % 8)) := by
    rw [← toInt_toNat_of_nonneg hx, ← toInt_toNat_of_nonneg hy]
    exact (pixelAt_of_bounds hx hcol hy hrow hlo hhi).translate_eq
  refine ⟨_, exec_setPixel_at hb hc hg hat, rfl, fun j bitIx hbit => ?_, fun _ => rfl⟩
  change (memRead (drawPixel _ _ _ _) j).getLsbD bitIx = _
  by_cases hj : j = x.toNat / 8 + (y.toNat - s.seg.toNat * s.params.segHeight) * s.params.bpr
  · subst hj
    rw [memRead_drawPixel_at (call := (x.toInt, y.toInt, black)) hat, getLsbD_paintByte_oneBit _ _ _ hbit]
    simp only [true_and]
  · rw [if_neg fun h => hj h.1, memRead_drawPixel_elsewhere fun mask h => ?_]
    exact hj (Place.at.inj (h.symm.trans hat)).1

/-- Settles O24: the check of the canvas fails, or the plan of a clipped pixel is empty, and neither is a place
that `drawPixel` paints. -/
theorem setPixelOutsideTheSegmentPaintsNothing : Obligations.SetPixelOutsideTheSegmentPaintsNothing := by
  intro s black x y hb hc hg
  refine ⟨fun h => ?_, fun hx hcol hy hrow h => ?_, fun h j => memRead_drawPixel_elsewhere (fun mask hat => ?_) _⟩
  · refine exec_fail (i := .setPixel black x y) hb rfl ?_ hg
    refine (planSetPixel_eq (s := s.launch _) hc).trans ?_
    rw [show pixelOf x y (s.launch _) = .outOfBounds from translate_outOfBounds h]
  · have hin : ¬(x.toInt < 0 ∨ (s.params.columns : Int) ≤ x.toInt ∨ y.toInt < 0 ∨
        (s.params.rows : Int) ≤ y.toInt) := by omega
    refine exec_nothing (i := .setPixel black x y) hb rfl ?_ hg
    refine (planSetPixel_eq (s := s.launch _) hc).trans ?_
    rw [show pixelOf x y (s.launch _) = .clipped from translate_clipped hin h]
  · obtain ⟨i, k, ⟨hx, hy, hcol, hrow, hcanvas⟩, -⟩ := translate_eq_at_iff.mp hat
    dsimp only at hx hy
    omega

/-! ### Who writes the buffers (R202) -/

/-- The micro-operations that write `RES`. -/
def WritesRes : Micro → Prop
  | .selectSegment _ => True
  | .paint _ _ _ => True
  | .clearRes => True
  | _ => False

/-- The micro-operations that write `OLD`. -/
def WritesOld : Micro → Prop
  | .clearOld => True
  | .copyOld => True
  | _ => False

/-- No other micro-operation writes a buffer. -/
theorem Effect.buffers {m : Micro} {s t : State} (h : Effect m s t) :
    (¬WritesRes m → t.outer.res = s.outer.res) ∧ (¬WritesOld m → t.outer.old = s.outer.old) := by
  have both {o : Outer} (h : t.outer = o) (hres : o.res = s.outer.res) (hold : o.old = s.outer.old) :
      (¬WritesRes m → t.outer.res = s.outer.res) ∧ (¬WritesOld m → t.outer.old = s.outer.old) :=
    ⟨fun _ => (congrArg Outer.res h).trans hres, fun _ => (congrArg Outer.old h).trans hold⟩
  cases m with
  | selectSegment i => exact ⟨fun hm => absurd trivial hm, fun _ => (congrArg Outer.old h).trans rfl⟩
  | paint byteIx mask black => exact ⟨fun hm => absurd trivial hm, fun _ => (congrArg Outer.old h.2).trans rfl⟩
  | clearRes => exact ⟨fun hm => absurd trivial hm, fun _ => (congrArg Outer.old h).trans rfl⟩
  | clearOld => exact ⟨fun _ => (congrArg Outer.res h).trans rfl, fun hm => absurd trivial hm⟩
  | copyOld => exact ⟨fun _ => (congrArg Outer.res h).trans rfl, fun hm => absurd trivial hm⟩
  | sampleTemp => obtain ⟨x, h⟩ := h; exact both h rfl rfl
  | perform a fatal => cases a <;> exact both h rfl rfl
  | send bytes =>
    cases bytes with
    | nil => exact both h rfl rfl
    | cons b bs => exact h.elim (both · rfl rfl) fun h => both h.1 rfl rfl
  | request st r addr => exact h.elim (both · rfl rfl) fun h => both h.1 rfl rfl
  | _ => exact both h rfl rfl

theorem WritesRes.command {i : Instr} {m : Micro} (hw : WritesRes m) (h : Inner m = true ∨ Places i m) :
    (∃ black x y, i = .setPixel black x y) ∨ (∃ index, i = .selSeg index) ∨ i = .fbClear := by
  cases m with
  | selectSegment index => exact .inr (.inl ⟨index, h.resolve_left (by simp [Inner])⟩)
  | paint byteIx mask black => exact .inl (h.resolve_left (by simp [Inner]))
  | clearRes => exact .inr (.inr (h.resolve_left (by simp [Inner])))
  | _ => exact hw.elim

theorem WritesOld.command {i : Instr} {m : Micro} (hw : WritesOld m) (h : Inner m = true ∨ Places i m) :
    (∃ cf on off, i = .display cf on off) ∨ i = .fbClear := by
  cases m with
  | clearOld => exact .inr (h.resolve_left (by simp [Inner]))
  | copyOld => exact .inl (h.resolve_left (by simp [Inner]))
  | _ => exact hw.elim

/-- Settles O46: five micro-operations write a buffer, and only the plans of the listed commands hold one. -/
theorem onlyListedCommandsWriteTheBuffers : Obligations.OnlyListedCommandsWriteTheBuffers := by
  intro i s t hb h
  refine ⟨fun hpixel hseg hclear => ?_, fun hdisplay hclear => ?_⟩
  · have hres : t.res = s.res := exec_keeps_outer Outer.res hb (fun m u v hm he => he.buffers.1 fun hw => by
      obtain ⟨black, x, y, rfl⟩ | ⟨index, rfl⟩ | rfl := hw.command hm
      · exact hpixel _ _ _ rfl
      · exact hseg _ rfl
      · exact hclear rfl) h
    exact ⟨hres, fun j => by rw [hres]⟩
  · have hold : t.old = s.old := exec_keeps_outer Outer.old hb (fun m u v hm he => he.buffers.2 fun hw => by
      obtain ⟨cf, on, off, rfl⟩ | rfl := hw.command hm
      · exact hdisplay _ _ _ rfl
      · exact hclear rfl) h
    exact ⟨hold, fun j => by rw [hold]⟩

end Sys2Proof.Machine
end

section
/-! The completion of `DISPLAY` and `FB_CLEAR` with prompt collaborators (O35 to O37): the stages of Laws/Runs,
inside the power bracket that the flags of `DISPLAY` ask for. -/

namespace Sys2Proof.Machine

open Sys2Proof

/-! ### The power bracket of `DISPLAY` (R207) -/

section
variable {s : State} {rest : List Micro} {evs : List Event} {pins : Pins} (hb : s.busy = true) (htx : s.tx = none)
include hb htx

/-- The power-on, if asked for, from the power state that `DISPLAY` needs. -/
theorem runs_powerOn_if (on : Bool) (hpwr : s.pwr = if on then .off else .on)
    (hfit : sleepsFit s.params.powerOnSeq = true) :
    let a := if on then powerAnswers s.params.powerOnSeq else Answers.none
    Runs a (s.mid ((if on then [.powerOn] else []) ++ rest) evs pins)
      ({ s with pwr := .on, ms := s.ms + totalElapsed a }.mid rest
        (evs ++ if on then s.params.powerOnSeq.flatMap actionEvents else [])
        ((if on then s.params.powerOnSeq else []).foldl actionPins pins)) := by
  cases on with
  | true => exact runs_powerOn hfit hb htx
  | false =>
    have hon : s.pwr = .on := hpwr
    simpa [← hon] using Runs.refl (s.mid rest evs pins)

/-- The power-off, if asked for, at the end of the command. -/
theorem runs_powerOff_if (off : Bool) (hpwr : s.pwr = .on) (hfit : sleepsFit s.params.powerOffSeq = true) :
    let a := if off then powerAnswers s.params.powerOffSeq else Answers.none
    Runs a (s.mid (if off then [.powerOff] else []) evs pins)
      ({ s with pwr := if off then .off else .on, ms := s.ms + totalElapsed a }.mid []
        (evs ++ if off then s.params.powerOffSeq.flatMap actionEvents else [])
        ((if off then s.params.powerOffSeq else []).foldl actionPins pins)) := by
  cases off with
  | true => exact runs_powerOff (by simp [hpwr]) hfit hb htx
  | false => simpa [← hpwr] using Runs.refl (s.mid [] evs pins)

end

/-! ### The stages between the power actions -/

/-- `s` at another point of its command, as far as the counter and the registers of a refresh tell. -/
def State.atPass (stage : Stage) (passes acc ms : Word) (s : State) : State :=
  { s with stage := stage, passes := passes, acc := acc, ms := ms }

/-- Wherever the counter and the registers of a refresh stand, the micro-operations `body` take the answers `a` from
`s` on, emit `shown`, leave `old` in `OLD`, and end with a stage of one pass of `d` milliseconds. -/
def Refreshes (s : State) (body : List Micro) (a : Answers) (shown : List Event) (old : List Host.Cell)
    (d : Word) : Prop :=
  ∀ (stage : Stage) (passes acc ms : Word) (rest : List Micro) (evs : List Event) (pins : Pins),
    Runs a ((s.atPass stage passes acc ms).mid (body ++ rest) evs pins)
      (({ s with old := old }.atPass .normal 1 d (ms + totalElapsed a)).mid rest (evs ++ shown)
        (setLevel .cs true pins))

section
variable {s : State} {body body' : List Micro} {a a' : Answers} {shown shown' : List Event} {old : List Host.Cell}
  {d : Word}

/-- A four-stage sequence over at least one row (R158). -/
theorem refreshes_sequence {sdOld sdNew : SrcDesc} {first count : Nat} {rowsOld rowsNew : List (List Byte)}
    (hb : s.busy = true) (htx : s.tx = none) (hrd : s.rd = none) (hcount : 1 ≤ count)
    (hold : rowsOld.length = count ∧ ∀ i (h : i < rowsOld.length), yields s sdOld i rowsOld[i])
    (hnew : rowsNew.length = count ∧ ∀ i (h : i < rowsNew.length), yields s sdNew i rowsNew[i])
    (hd : s.duration.toNat ≤ d.toNat) :
    Refreshes s (stageSequence sdOld sdNew first count)
      (sequenceAnswers s.params sdOld sdNew first ⟨rowsOld, rowsOld, rowsNew, rowsNew⟩ d)
      (sequenceEvents s.params sdOld sdNew first ⟨rowsOld, rowsOld, rowsNew, rowsNew⟩) s.old d := by
  intro stage passes acc ms rest evs pins
  rw [← rowsPins_pos hcount pins]
  exact runs_sequence (s := s.atPass stage passes acc ms) hb htx hrd hold hold hnew hnew hd

/-- Two refreshes in a row, the first of which leaves `OLD` alone. -/
theorem Refreshes.append (h : Refreshes s body a shown s.old d) (h' : Refreshes s body' a' shown' old d) :
    Refreshes s (body ++ body') (a.append a') (shown ++ shown') old d := by
  intro stage passes acc ms rest evs pins
  have hrun := (h stage passes acc ms (body' ++ rest) evs pins).trans (h' .normal 1 d _ rest _ _)
  rw [setLevel_setLevel, BitVec.add_assoc, ← totalElapsed_append, List.append_assoc evs] at hrun
  rw [List.append_assoc]
  exact hrun

/-- A refresh, and then `OLD <- RES` (R209). -/
theorem Refreshes.copyOld (hb : s.busy = true) (h : Refreshes s body a shown s.old d) :
    Refreshes s (body ++ [.copyOld]) a shown s.res d := by
  intro stage passes acc ms rest evs pins
  have hrun := (h stage passes acc ms (.copyOld :: rest) evs pins).trans (runs_copyOld hb)
  rw [Answers.append_none] at hrun
  rw [List.append_assoc]
  exact hrun

end

/-- The checks of `DISPLAY` pass in the power state that `DO_PWR_ON` asks for. -/
theorem planDisplay_run {s : State} {cf on off : Bool} (hc : cfgOk s.params = true)
    (hpwr : s.pwr = if on then .off else .on) :
    planDisplay cf on off s =
      .run ((if on then [.powerOn] else []) ++ displayStages cf s ++ (if off then [.powerOff] else []))
        (if off then [.powerOff] else []) :=
  guarded_run (by simp [firstError, configCheck, pwrCheck, hc, hpwr])

/-- A running `DISPLAY` between its power-on and its power-off. -/
def State.displaying (cf on off : Bool) (s : State) : State :=
  { s.started (encode (.display cf on off)) (if off then [.powerOff] else []) with pwr := .on }

/-- `DISPLAY` completes with `OK` when its stages run to their end between the power actions. -/
theorem display_settles {s : State} {cf on off : Bool} {b : Answers} {shown : List Event} {old : List Host.Cell}
    {d : Word} (hready : Ready s) (hpwr : s.pwr = if on then .off else .on)
    (hfitOn : sleepsFit s.params.powerOnSeq = true) (hfitOff : sleepsFit s.params.powerOffSeq = true)
    (hbody : Refreshes (s.displaying cf on off) (displayStages cf s) b shown old d) :
    let p := s.params
    let a := (if on then powerAnswers p.powerOnSeq else Answers.none).append
      (b.append (if off then powerAnswers p.powerOffSeq else Answers.none))
    ∃ n, ∀ g ≥ n,
      exec (.display cf on off) ((s.feed a).withGap g) =
        .next (State.completed (encode (.display cf on off)) .ok
          ((if on then p.powerOnSeq.flatMap actionEvents else []) ++ shown
            ++ (if off then p.powerOffSeq.flatMap actionEvents else []))
          { s.withGap g with
            pwr := if off then .off else .on
            old := old
            stage := .normal
            passes := 1
            acc := d
            pins :=
              (if off then p.powerOffSeq else []).foldl actionPins
                (setLevel .cs true ((if on then p.powerOnSeq else []).foldl actionPins s.pins))
            ms := s.ms + totalElapsed a }) := by
  intro p a
  obtain ⟨⟨hb, htx, -⟩, hc⟩ := hready
  have hplan := planDisplay_run (s := s.launch (encode (.display cf on off))) (cf := cf) (off := off) hc hpwr
  rw [List.append_assoc] at hplan
  have hms : s.ms + totalElapsed a =
      s.ms + totalElapsed (if on then powerAnswers p.powerOnSeq else Answers.none) + totalElapsed b
        + totalElapsed (if off then powerAnswers p.powerOffSeq else Answers.none) := by
    simp only [a, totalElapsed_append, BitVec.add_assoc]
  have hstart := runs_powerOn_if (s := s.started (encode (.display cf on off)) (if off then [.powerOff] else []))
    (rest := displayStages cf s ++ if off then [.powerOff] else []) (evs := []) (pins := s.pins) rfl htx on hpwr
    hfitOn
  have hstages := hbody s.stage s.passes s.acc
    (s.ms + totalElapsed (if on then powerAnswers p.powerOnSeq else Answers.none))
  have hrun := hstart.trans <| (hstages _ _ _).trans <|
    runs_powerOff_if (s := ({ s.displaying cf on off with old := old }.atPass .normal 1 d _)) rfl htx off rfl hfitOff
  rw [hms]
  exact command_settles (fun _ => planOf_congr (.display cf on off) rfl rfl rfl rfl) hb hplan hrun rfl

/-- The stages of `DISPLAY` in `ALWAYS_CLEAR` (R207). -/
theorem displayStages_alwaysClear {s : State} (hmode : s.params.compMode = .alwaysClear) (cf : Bool) :
    displayStages cf s =
      if cf then
        stageSequence (fixedSource 0) (fixedSource 0) (s.seg.toNat * s.params.segHeight) s.params.segHeight
          ++ stageSequence (fixedSource 0) resSource (s.seg.toNat * s.params.segHeight) s.params.segHeight
      else stageSequence resSource resSource (s.seg.toNat * s.params.segHeight) s.params.segHeight := by
  simp only [displayStages, hmode]

/-- The stages of `DISPLAY` in `DUAL_BUFFER` (R207, R209). -/
theorem displayStages_dualBuffer {s : State} (hmode : s.params.compMode = .dualBuffer) (cf : Bool) :
    displayStages cf s = stageSequence oldSource resSource 0 s.params.rows ++ [.copyOld] := by
  simp only [displayStages, hmode]

/-- The stages of `DISPLAY` in `ALWAYS_CLEAR`: the clear, if asked for, and then the image (R207). -/
theorem refreshes_segment {s : State} {cf : Bool} {d : Word} (hb : s.busy = true) (htx : s.tx = none)
    (hrd : s.rd = none) (hheight : 1 ≤ s.params.segHeight) (hd : s.duration.toNat ≤ d.toNat)
    (hmode : s.params.compMode = .alwaysClear) :
    let p := s.params
    let lo := s.seg.toNat * p.segHeight
    let z := fillRows p p.segHeight 0
    let img := resRows s
    let clear : FourPasses := ⟨z, z, z, z⟩
    let image : FourPasses := if cf then ⟨z, z, img, img⟩ else ⟨img, img, img, img⟩
    let erase := if cf then fixedSource 0 else resSource
    Refreshes s (displayStages cf s)
      ((if cf then sequenceAnswers p (fixedSource 0) (fixedSource 0) lo clear d else Answers.none).append
        (sequenceAnswers p erase resSource lo image d))
      ((if cf then sequenceEvents p (fixedSource 0) (fixedSource 0) lo clear else [])
        ++ sequenceEvents p erase resSource lo image) s.old d := by
  intro p lo z img clear image erase
  have hz := yields_fillRows s p.segHeight 0 0
  have himg := yields_resRows s 0 0
  rw [displayStages_alwaysClear hmode]
  cases cf with
  | false =>
    simp only [Bool.false_eq_true, if_false]
    rw [Answers.none_append, List.nil_append]
    exact refreshes_sequence hb htx hrd hheight himg himg hd
  | true =>
    simp only [if_true]
    exact (refreshes_sequence hb htx hrd hheight hz hz hd).append (refreshes_sequence hb htx hrd hheight hz himg hd)

/-- Settles O35: the clear, if asked for, and then the image, inside the power bracket. -/
theorem displayShowsTheSegment : Obligations.DisplayShowsTheSegment := by
  intro s cf on off d hready hmode hpwr hfitOn hfitOff hd p lo fix0 resd z img clear image erase a
  have hbody : Refreshes (s.displaying cf on off) (displayStages cf s)
      ((if cf then sequenceAnswers p fix0 fix0 lo clear d else Answers.none).append
        (sequenceAnswers p erase resd lo image d))
      ((if cf then sequenceEvents p fix0 fix0 lo clear else []) ++ sequenceEvents p erase resd lo image) s.old d := by
    obtain ⟨⟨-, htx, hrd⟩, hc⟩ := hready
    exact refreshes_segment (s := s.displaying cf on off) rfl htx hrd (segHeight_pos hc) hd hmode
  have ha : a = (if on then powerAnswers p.powerOnSeq else Answers.none).append
      (((if cf then sequenceAnswers p fix0 fix0 lo clear d else Answers.none).append
        (sequenceAnswers p erase resd lo image d)).append
      (if off then powerAnswers p.powerOffSeq else Answers.none)) := by
    simp only [a, Answers.join, Answers.append_none, Answers.append_assoc]
  have h := display_settles hready hpwr hfitOn hfitOff hbody
  rw [ha, List.append_assoc (if on then _ else _)]
  exact h

/-- Settles O36: the transition from `OLD` to `RES` and the copy, inside the power bracket. -/
theorem displayCompensatesFromOld : Obligations.DisplayCompensatesFromOld := by
  intro s cf on off d hready hmode hpwr hfitOn hfitOff hd p oldd resd f a
  have hbody : Refreshes (s.displaying cf on off) (displayStages cf s) (sequenceAnswers p oldd resd 0 f d)
      (sequenceEvents p oldd resd 0 f) s.res d := by
    obtain ⟨⟨-, htx, hrd⟩, hc⟩ := hready
    have hold := yields_oldRows (s.displaying cf on off) 0 0 hmode
    have himg := yields_resRows (s.displaying cf on off) 0 0
    have hheight : p.segHeight = p.rows := segHeight_of_dualBuffer hc hmode
    rw [displayStages_dualBuffer hmode]
    have hsequence := refreshes_sequence (s := s.displaying cf on off) (first := 0) rfl htx hrd
      (hheight ▸ segHeight_pos hc) hold (hheight ▸ himg) hd
    exact hsequence.copyOld rfl
  have ha : a = (if on then powerAnswers p.powerOnSeq else Answers.none).append
      ((sequenceAnswers p oldd resd 0 f d).append
      (if off then powerAnswers p.powerOffSeq else Answers.none)) := by
    simp only [a, Answers.join, Answers.append_none]
  rw [ha]
  exact display_settles hready hpwr hfitOn hfitOff hbody

/-! ### `FB_CLEAR` (R208) -/

/-- The checks of `FB_CLEAR` pass, and `OLD` is whitened where it exists. -/
theorem planFbClear_run {s : State} (hc : cfgOk s.params = true) (hpwr : s.pwr = .on) :
    planFbClear s =
      .run (stageSequence (fixedSource 0) (fixedSource 0) 0 s.params.rows
        ++ .clearRes :: if s.params.compMode = CompMode.dualBuffer then [.clearOld] else []) [] := by
  have hchecks : firstError [configCheck s, pwrCheck .on s] = none := by
    simp [firstError, configCheck, pwrCheck, hc, hpwr]
  cases hmode : s.params.compMode <;> simp [planFbClear, guarded_run hchecks, hmode]

/-- After the stages of `FB_CLEAR` every byte of the buffers becomes `0x00`. -/
theorem runs_whiten {s : State} {evs : List Event} {pins : Pins} (hb : s.busy = true) :
    Runs Answers.none
      (s.mid (.clearRes :: if s.params.compMode = CompMode.dualBuffer then [.clearOld] else []) evs pins)
      ({ s with res := [], old := if s.params.compMode = CompMode.dualBuffer then [] else s.old }.mid []
        evs pins) := by
  have hres := runs_clearRes (rest := if s.params.compMode = CompMode.dualBuffer then [.clearOld] else [])
    (evs := evs) (pins := pins) hb
  by_cases hmode : s.params.compMode = .dualBuffer
  · simp only [if_pos hmode] at hres ⊢
    exact hres.then (runs_clearOld hb)
  · simp only [if_neg hmode] at hres ⊢
    exact hres

/-- Settles O37: the four stages of the fill over all rows, and then the buffers are whitened. -/
theorem fbClearErasesThePanel : Obligations.FbClearErasesThePanel := by
  rintro s d ⟨⟨hb, htx, hrd⟩, hc⟩ hpwr hd p fix0 z f a
  obtain ⟨-, -, ⟨hrows, -⟩, -⟩ := configValid hc
  have hz := yields_fillRows (s.started (encode .fbClear) []) p.rows 0 0
  have hstages := refreshes_sequence (s := s.started (encode .fbClear) []) (first := 0) rfl htx hrd hrows hz hz hd
  have hrun := (hstages s.stage s.passes s.acc s.ms _ [] s.pins).trans (runs_whiten rfl)
  rw [Answers.append_none] at hrun
  obtain ⟨n, hn⟩ := exec_settles (i := .fbClear) rfl hb (planFbClear_run (s := s.launch _) hc hpwr) hrun rfl
  refine ⟨n, fun g hg => ⟨_, hn g hg, rfl, fun _ => rfl, ?_⟩⟩
  by_cases hmode : p.compMode = .dualBuffer
  · rw [if_pos hmode]
    exact fun j => congrArg (memRead · j) (if_pos hmode)
  · rw [if_neg hmode]
    exact if_neg hmode

end Sys2Proof.Machine
end

section
/-! Refused commands (O39, O40): a power state that a command does not run in, and a configuration that is not
valid. -/

namespace Sys2Proof.Machine

open Sys2Proof

/-! ### The checks of power state and configuration (R154, R232, R235, R238) -/

/-- The commands that check the power state next to the configuration, each with the state that it runs in. -/
def RunsIn (i : Instr) (needed : Pwr) : Prop :=
  (i = .pwrOn ∧ needed = .off) ∨ (i = .fbClear ∧ needed = .on) ∨
    (∃ cf on off, i = .display cf on off ∧ needed = if on then .off else .on)

theorem RunsIn.wellFormed {i : Instr} {needed : Pwr} (h : RunsIn i needed) : WellFormed i = true := by
  obtain ⟨rfl, -⟩ | ⟨rfl, -⟩ | ⟨_, _, _, rfl, -⟩ := h <;> rfl

theorem RunsIn.planOf_eq {i : Instr} {needed : Pwr} (h : RunsIn i needed) (s : State) :
    ∃ todo onTimeout, planOf i s = guarded [configCheck s, pwrCheck needed s] todo onTimeout := by
  obtain ⟨rfl, rfl⟩ | ⟨rfl, rfl⟩ | ⟨_, _, _, rfl, rfl⟩ := h <;> exact ⟨_, _, rfl⟩

theorem guarded_fail {checks : List (Bool × Code)} {todo onTimeout : List Micro} {c : Code}
    (h : firstError checks = some c) : guarded checks todo onTimeout = .fail c := by
  simp [guarded, h]

/-- In a configured block such a command fails in every other power state. -/
theorem RunsIn.exec_fail {i : Instr} {needed : Pwr} {s : State} (h : RunsIn i needed) (hb : s.busy = false)
    (hc : cfgOk s.params = true) (hg : 1 ≤ s.inputs.gap) (hp : s.pwr ≠ needed) :
    exec i s = .next (State.completed (encode i) .illegalState [] s) := by
  obtain ⟨todo, onTimeout, hplan⟩ := h.planOf_eq (s.launch (encode i))
  have hfirst : firstError [configCheck (s.launch (encode i)), pwrCheck needed (s.launch (encode i))] =
      some .illegalState := by
    simp [firstError, configCheck, pwrCheck, hc, hp]
  exact Machine.exec_fail hb h.wellFormed (hplan.trans (guarded_fail hfirst)) hg

/-- Settles O39: the configuration passes and the power state does not. -/
theorem wrongPowerStateIsRefused : Obligations.WrongPowerStateIsRefused := by
  rintro s i hb hc hg (⟨hi, hp⟩ | ⟨hi, hp⟩ | ⟨cf, on, off, hi, hp⟩)
  · exact RunsIn.exec_fail (.inl ⟨hi, rfl⟩) hb hc hg hp
  · exact RunsIn.exec_fail (.inr (.inl ⟨hi, rfl⟩)) hb hc hg hp
  · exact RunsIn.exec_fail (.inr (.inr ⟨cf, on, off, hi, rfl⟩)) hb hc hg hp

/-- Every command but `NOP` checks the configuration first (R238 step 3, R273). -/
theorem planOf_checks_config {i : Instr} (hi : i ≠ .nop) (s : State) :
    ∃ checks todo onTimeout, planOf i s = guarded (configCheck s :: checks) todo onTimeout := by
  cases i with
  | nop => exact absurd rfl hi
  | _ => exact ⟨_, _, _, rfl⟩

/-- Settles O40: the first check fails. -/
theorem misconfiguredBlockRefusesCommands : Obligations.MisconfiguredBlockRefusesCommands := by
  intro s i hc hw hi hb hg
  obtain ⟨checks, todo, onTimeout, hplan⟩ := planOf_checks_config hi (s.launch (encode i))
  have hfirst : firstError (configCheck (s.launch (encode i)) :: checks) = some .invalidConfig := by
    simp [firstError, configCheck, hc]
  exact exec_fail hb hw (hplan.trans (guarded_fail hfirst)) hg

end Sys2Proof.Machine
end

section
/-! What a command leaves when it completes with an error (O42), whatever the collaborators answer: the last tick
is a completion, and up to a fatal timeout no buffer has been written. -/

namespace Sys2Proof.Machine

open Sys2Proof

/-! ### Completion is the last thing that ticks do -/

/-- Ticks that end a running command come to a running state with nothing left to run, and complete it (R237). -/
theorem ticks_complete {n : Nat} {s t : State} (hb : s.busy = true) (h : ticks n s = .next t)
    (hidle : t.busy = false) :
    ∃ k u, ticks k s = .next u ∧ u.busy = true ∧ u.seq.todo = [] ∧ t = u.complete := by
  induction n generalizing s with
  | zero =>
    cases h
    simp [hb] at hidle
  | succ n ih =>
    obtain ⟨v, hv, h⟩ := andThen_eq_next.mp (ticks_succ n s ▸ h)
    obtain ⟨hb', -⟩ | ⟨-, ht, rfl⟩ | ⟨m, rest, -, -, hm⟩ := tick_cases hv
    · simp [hb] at hb'
    · rw [ticks_idle (s := s.complete) rfl] at h
      cases h
      exact ⟨0, s, rfl, hb, ht, rfl⟩
    · obtain ⟨k, u, hu, hrest⟩ := ih ((runMicro_busy hm).trans hb) h
      exact ⟨k + 1, u, by rw [ticks_succ, hv, andThen_next, hu], hrest⟩

/-- A command that passed its checks raises no error but `DEVICE_TIMEOUT` (R236, R239). -/
theorem tick_code {s t : State} (hs : s.seq.code = .ok ∨ s.seq.code = .deviceTimeout) (h : tick s = .next t) :
    t.seq.code = .ok ∨ t.seq.code = .deviceTimeout := by
  obtain ⟨-, rfl⟩ | ⟨-, -, rfl⟩ | ⟨m, rest, -, -, hm⟩ := tick_cases h
  · exact hs
  · exact .inl rfl
  · obtain ⟨new, evs, -, hseq, -⟩ | ⟨t0, -, hseq, -⟩ := runMicro_course hm
    · rw [hseq]
      exact hs
    · rw [hseq]
      exact .inr rfl

/-- The story of a command goes on through any number of ticks. -/
theorem ticks_story {i : Instr} {n : Nat} {s t : State} (hb : s.busy = false)
    (h : ticks n (startOf i s) = .next t) :
    Story s.params (catchOf i) (s.trace ++ [.cmd (encode i)]) t := by
  refine (ticks_keep
    (P := fun u => u.params = s.params ∧ Story s.params (catchOf i) (s.trace ++ [.cmd (encode i)]) u) ?_
    ⟨congrArg HostSide.params (startOf_hostSide i s), startOf_story i hb⟩ h).2
  rintro u v ⟨hp, hu⟩ huv
  exact ⟨(congrArg HostSide.params (tick_hostSide huv)).trans hp, hp ▸ tick_story (hp.symm ▸ hu) huv⟩

/-! ### The power state after a timeout (R159, R207) -/

/-- The power state that a command leaves after a `DEVICE_TIMEOUT` (R239). -/
def pwrAfterTimeout : Instr → Pwr
  | .display _ _ true => .off
  | _ => .fault

/-- With nothing left of a catch, the power state is the one that R239 lists. -/
theorem Catching.pwr_eq {i : Instr} {pwr : Pwr} (h : Catching (catchOf i) pwr []) : pwr = pwrAfterTimeout i := by
  cases i with
  | display clearFirst doPwrOn doPwrOff =>
    cases doPwrOff with
    | true => exact PowersOff.pwr_eq h.1
    | false => exact h.2
  | _ => exact h.2

/-- A command that is about to complete with `DEVICE_TIMEOUT` has run its catch to the end. -/
theorem Story.pwr_eq {p : Params} {i : Instr} {start : List Event} {s : State} (h : Story p (catchOf i) start s)
    (hb : s.busy = true) (ht : s.seq.todo = []) (hcode : s.seq.code = .deviceTimeout) :
    s.pwr = pwrAfterTimeout i := by
  cases h with
  | running _ hcode' => exact absurd hcode hcode'
  | harmless _ hcode' => exact absurd hcode hcode'
  | timedOut _ _ hcatch =>
    rw [ht] at hcatch
    exact hcatch.pwr_eq
  | completed hb' => simp [hb] at hb'
  | failed hb' => simp [hb] at hb'

/-! ### The buffers up to a timeout (R202, R239) -/

/-- The micro-operations that write `RES` or `OLD`. -/
def WritesBuffer (m : Micro) : Prop := WritesRes m ∨ WritesOld m

/-- A micro-operation that writes a buffer cannot fail. -/
theorem WritesBuffer.not_canFail {m : Micro} (h : WritesBuffer m) : ¬CanFail m := by
  cases m with
  | selectSegment i => exact id
  | paint byteIx mask black => exact id
  | clearRes => exact id
  | clearOld => exact id
  | copyOld => exact id
  | _ => exact (h.elim id id).elim

/-- The commands that write a buffer (R202). -/
theorem WritesBuffer.command {i : Instr} {m : Micro} (hw : WritesBuffer m) (h : Inner m = true ∨ Places i m) :
    (∃ black x y, i = .setPixel black x y) ∨ (∃ index, i = .selSeg index) ∨
      (∃ cf on off, i = .display cf on off) ∨ i = .fbClear := by
  obtain hw | hw := hw
  · obtain hi | hi | hi := hw.command h
    · exact .inl hi
    · exact .inr (.inl hi)
    · exact .inr (.inr (.inr hi))
  · exact .inr (.inr (hw.command h))

/-- Nothing that an action, a pass, or the plan of a `NOP` may hold writes a buffer. -/
theorem not_writesBuffer {m : Micro} (h : Inner m = true ∨ Places .nop m) : ¬WritesBuffer m := fun hw => by
  obtain ⟨_, _, _, hi⟩ | ⟨_, hi⟩ | ⟨_, _, _, hi⟩ | hi := hw.command h <;> cases hi

/-- `RES` and `OLD`. -/
def State.buffers (s : State) : List Host.Cell × List Host.Cell := (s.res, s.old)

theorem runMicro_buffers {m : Micro} {s t : State} (h : runMicro m s = .next t) (hm : ¬WritesBuffer m) :
    t.buffers = s.buffers := by
  obtain ⟨hres, hold⟩ := (runMicro_effect h).buffers
  exact Prod.ext (hres fun hw => hm (.inl hw)) (hold fun hw => hm (.inr hw))

/-- A position whose buffer writes all come after what can fail. -/
def WritesLast (todo : List Micro) : Prop :=
  ∃ front back, todo = front ++ back ∧ (∀ m ∈ front, ¬WritesBuffer m) ∧ ∀ m ∈ back, ¬CanFail m

/-- The buffers of a command: not written yet, before any timeout; kept, with nothing left that writes them; or
nothing can fail any more. -/
inductive Held (buffers : List Host.Cell × List Host.Cell) (s : State) : Prop where
  | unwritten (hcode : s.seq.code ≠ .deviceTimeout) (hbuffers : s.buffers = buffers)
    (hlast : WritesLast s.seq.todo) (hcatch : ∀ m ∈ s.seq.onTimeout, ¬WritesBuffer m)
  | kept (hbuffers : s.buffers = buffers) (hnone : Confined (fun m => ¬WritesBuffer m) s)
  | safe (hcode : s.seq.code ≠ .deviceTimeout) (hsafe : ∀ m ∈ s.seq.todo, ¬CanFail m)

section
variable {buffers : List Host.Cell × List Host.Cell} {m : Micro} {rest : List Micro} {s t : State}
  (ht : s.seq.todo = m :: rest) (h : runMicro m (s.setTodo rest) = .next t)
include ht h

/-- Where nothing can fail, nothing can fail later. -/
theorem runMicro_safe (hcode : s.seq.code ≠ .deviceTimeout) (hsafe : ∀ x ∈ s.seq.todo, ¬CanFail x) :
    Held buffers t := by
  rw [ht, List.forall_mem_cons] at hsafe
  obtain ⟨new, evs, hc, hseq, -⟩ | ⟨t0, rfl, -⟩ := runMicro_course h
  · refine .safe (by rw [hseq]; exact hcode) fun x hx => ?_
    rw [hseq] at hx
    exact (List.mem_append.mp hx).elim (fun hn hf => hsafe.1 ((hc.polls x hn).1 hf)) (hsafe.2 x)
  · exact absurd rfl hsafe.1

/-- Before any buffer is written: a write comes when nothing can fail, and after a fatal timeout none comes. -/
theorem runMicro_unwritten (hcode : s.seq.code ≠ .deviceTimeout) (hbuffers : s.buffers = buffers)
    (hlast : WritesLast s.seq.todo) (hcatch : ∀ x ∈ s.seq.onTimeout, ¬WritesBuffer x) : Held buffers t := by
  obtain ⟨front, back, htodo, hfront, hback⟩ := hlast
  cases front with
  | nil => exact runMicro_safe ht h hcode (htodo ▸ hback)
  | cons x front =>
    obtain ⟨rfl, rfl⟩ := List.cons.inj (ht.symm.trans htodo)
    obtain ⟨hm, hfront⟩ := List.forall_mem_cons.mp hfront
    have hkept : t.buffers = buffers := (runMicro_buffers h hm).trans hbuffers
    obtain ⟨new, evs, hc, hseq, -⟩ | ⟨t0, -, hseq, -⟩ := runMicro_course h
    · refine .unwritten (by rw [hseq]; exact hcode) hkept ?_ (by rw [hseq]; exact hcatch)
      rw [hseq]
      have hnew : ∀ y ∈ new, ¬WritesBuffer y := fun y hy => not_writesBuffer (.inl (hc.brings y hy).inner)
      exact ⟨new ++ front, back, (List.append_assoc ..).symm, List.forall_mem_append.mpr ⟨hnew, hfront⟩, hback⟩
    · refine .kept hkept fun y hy => ?_
      rw [hseq] at hy
      exact hcatch y (hy.resolve_right List.not_mem_nil)

end

theorem tick_held {buffers : List Host.Cell × List Host.Cell} {s t : State} (hs : Held buffers s)
    (h : tick s = .next t) : Held buffers t := by
  obtain ⟨-, rfl⟩ | ⟨-, -, rfl⟩ | ⟨m, rest, -, ht, hm⟩ := tick_cases h
  · exact hs
  · exact .safe (by simp [Seq.idle]) (by simp [Seq.idle])
  · cases hs with
    | unwritten hcode hbuffers hlast hcatch => exact runMicro_unwritten ht hm hcode hbuffers hlast hcatch
    | kept hbuffers hnone =>
      have hhead : ¬WritesBuffer m := hnone m (.inl (by simp [ht]))
      exact .kept ((runMicro_buffers hm hhead).trans hbuffers)
        (tick_confined (fun _ hi => not_writesBuffer (.inl hi)) h hnone)
    | safe hcode hsafe => exact runMicro_safe ht hm hcode hsafe

/-- A command with `DEVICE_TIMEOUT` has written no buffer. -/
theorem Held.buffers_eq {buffers : List Host.Cell × List Host.Cell} {s : State} (h : Held buffers s)
    (hcode : s.seq.code = .deviceTimeout) : s.buffers = buffers := by
  cases h with
  | unwritten hcode' => exact absurd hcode hcode'
  | kept hbuffers => exact hbuffers
  | safe hcode' => exact absurd hcode hcode'

/-! ### The plans write the buffers last -/

theorem stageSequence_not_writesBuffer {sdOld sdNew : SrcDesc} {first count : Nat} {m : Micro}
    (h : m ∈ stageSequence sdOld sdNew first count) : ¬WritesBuffer m :=
  not_writesBuffer (.inr (stageSequence_places .nop h))

/-- `DISPLAY` writes `OLD` after its last row (R209). -/
theorem displayStages_writesLast (clearFirst : Bool) (s : State) : WritesLast (displayStages clearFirst s) := by
  unfold displayStages
  split
  · refine ⟨_, [], (List.append_nil _).symm, fun m hm => ?_, by simp⟩
    dsimp only at hm
    split at hm
    · exact (List.mem_append.mp hm).elim stageSequence_not_writesBuffer stageSequence_not_writesBuffer
    · exact stageSequence_not_writesBuffer hm
  · exact ⟨_, _, rfl, fun _ => stageSequence_not_writesBuffer, by simp [CanFail]⟩

/-- `FB_CLEAR` writes the buffers after its last row (R208). -/
theorem planFbClear_writesLast {s : State} {todo onTimeout : List Micro}
    (h : planFbClear s = .run todo onTimeout) : WritesLast todo := by
  obtain ⟨-, rfl, -⟩ := guarded_eq_run h
  refine ⟨_, _, List.append_assoc .., fun _ => stageSequence_not_writesBuffer, ?_⟩
  split <;> simp [CanFail]

theorem planDisplay_writesLast {clearFirst doPwrOn doPwrOff : Bool} {s : State} {todo onTimeout : List Micro}
    (h : planDisplay clearFirst doPwrOn doPwrOff s = .run todo onTimeout) : WritesLast todo := by
  obtain ⟨-, rfl, -⟩ := guarded_eq_run h
  obtain ⟨front, back, hstages, hfront, hback⟩ := displayStages_writesLast clearFirst s
  refine ⟨(if doPwrOn then [.powerOn] else []) ++ front, back ++ (if doPwrOff then [.powerOff] else []),
    by rw [hstages]; simp only [List.append_assoc], List.forall_mem_append.mpr ⟨?_, hfront⟩,
    List.forall_mem_append.mpr ⟨hback, ?_⟩⟩
  · cases doPwrOn with
    | true => exact List.forall_mem_singleton.mpr (not_writesBuffer (.inr trivial))
    | false => exact fun _ h => absurd h List.not_mem_nil
  · cases doPwrOff with
    | true => exact List.forall_mem_singleton.mpr id
    | false => exact fun _ h => absurd h List.not_mem_nil

/-- Every plan that runs writes the buffers last, if it does. -/
theorem planOf_writesLast {i : Instr} {s : State} {todo onTimeout : List Micro}
    (h : planOf i s = .run todo onTimeout) : WritesLast todo := by
  by_cases hw : ∃ m ∈ todo, WritesBuffer m
  · obtain ⟨m, hm, hw⟩ := hw
    obtain ⟨black, x, y, rfl⟩ | ⟨index, rfl⟩ | ⟨cf, on, off, rfl⟩ | rfl :=
      hw.command (.inr (planOf_places h m (.inl hm)))
    · obtain ⟨-, rfl, -⟩ := guarded_eq_run h
      refine ⟨[], _, rfl, by simp, ?_⟩
      split <;> simp [CanFail]
    · obtain ⟨-, rfl, -⟩ := guarded_eq_run h
      exact ⟨[], _, rfl, by simp, by simp [CanFail]⟩
    · exact planDisplay_writesLast h
    · exact planFbClear_writesLast h
  · exact ⟨todo, [], (List.append_nil _).symm, fun m hm hm' => hw ⟨m, hm, hm'⟩, by simp⟩

theorem catchOf_not_writesBuffer {i : Instr} {m : Micro} (h : m ∈ catchOf i) : ¬WritesBuffer m := by
  unfold catchOf at h
  split at h
  · exact List.mem_singleton.mp h ▸ not_writesBuffer (.inr trivial)
  · cases h

/-! ### Errors of every command (R239) -/

/-- A command that failed a check, and has completed, has done nothing else. -/
theorem exec_failed {i : Instr} {s t : State} {c : Code} (hb : s.busy = false) (hw : WellFormed i = true)
    (hp : planOf i (s.launch (encode i)) = .fail c) (h : exec i s = .next t) (hidle : t.busy = false) :
    t = State.completed (encode i) c [] s := by
  cases hg : s.inputs.gap with
  | zero =>
    rw [exec_eq, startOf_launched hb hw, hp, hg] at h
    cases h
    cases hidle
  | succ n => exact (Host.Outcome.next.inj ((exec_fail hb hw hp (by omega)).symm.trans h)).symm

/-- A command that passed its checks, and has completed, did so with `OK` or with `DEVICE_TIMEOUT`; in the second
case the power state is the one that R239 lists, and the buffers are as before. -/
theorem exec_ran {i : Instr} {s t : State} {todo onTimeout : List Micro} (hb : s.busy = false)
    (hw : WellFormed i = true) (hp : planOf i (s.launch (encode i)) = .run todo onTimeout)
    (h : exec i s = .next t) (hidle : t.busy = false) :
    t.errcode = .ok ∨
      (t.errcode = .deviceTimeout ∧ t.pwr = pwrAfterTimeout i ∧ t.res = s.res ∧ t.old = s.old) := by
  have hstart : startOf i s = { s.launch (encode i) with seq := ⟨todo, .ok, onTimeout⟩ } := by
    rw [startOf_launched hb hw, hp, follow_run]
  have hheld : Held s.buffers (startOf i s) := by
    obtain ⟨-, rfl⟩ := planOf_ignoresLast hp
    rw [hstart]
    exact .unwritten (by simp) rfl (planOf_writesLast hp) fun _ => catchOf_not_writesBuffer
  rw [exec_eq] at h
  obtain ⟨k, u, hu, hbusy, htodo, rfl⟩ := ticks_complete (by rw [hstart]; rfl) h hidle
  refine (ticks_keep tick_code (by rw [hstart]; exact .inl rfl) hu).imp_right fun hcode => ⟨hcode, ?_⟩
  obtain ⟨hres, hold⟩ := Prod.mk.inj ((ticks_keep tick_held hheld hu).buffers_eq hcode)
  exact ⟨(ticks_story hb hu).pwr_eq hbusy htodo hcode, hres, hold⟩

/-- What a command `i`, launched in `s`, leaves as `t` when it has completed with an error (R239). -/
def LeavesOnError (i : Instr) (s t : State) : Prop :=
  (t.errcode = .deviceTimeout → t.pwr = pwrAfterTimeout i ∧ t.res = s.res ∧ t.old = s.old) ∧
  (t.errcode ≠ .ok → t.errcode ≠ .deviceTimeout → t = State.completed (encode i) t.errcode [] s)

theorem completed_leavesOnError {i : Instr} {s : State} {c : Code} (hc : c ≠ .deviceTimeout) :
    LeavesOnError i s (State.completed (encode i) c [] s) :=
  ⟨fun hcode => absurd hcode hc, fun _ _ => rfl⟩

/-- A completed command was refused, failed a check, or ran, and then only a timeout is an error. -/
theorem exec_leavesOnError {i : Instr} {s t : State} (hb : s.busy = false) (h : exec i s = .next t)
    (hidle : t.busy = false) : LeavesOnError i s t := by
  cases hw : WellFormed i with
  | false =>
    rw [exec_illFormed hw, runIllegal_idle hb, refuse_eq_completed] at h
    cases h
    exact completed_leavesOnError (by decide)
  | true =>
    cases hp : planOf i (s.launch (encode i)) with
    | fail c =>
      rw [exec_failed hb hw hp h hidle]
      exact completed_leavesOnError (planOf_fail hp)
    | run todo onTimeout =>
      obtain hcode | ⟨hcode, hleft⟩ := exec_ran hb hw hp h hidle
      · exact ⟨fun hcode' => absurd (hcode.symm.trans hcode') (by decide), fun hcode' => absurd hcode hcode'⟩
      · exact ⟨fun _ => hleft, fun _ hcode' => absurd hcode hcode'⟩

/-- Settles O42: `LeavesOnError` says it, with `pwrAfterTimeout` for the power state. -/
theorem errorsLeaveTheListedState : Obligations.ErrorsLeaveTheListedState :=
  fun _ _ _ hb h hidle => exec_leavesOnError hb h hidle

end Sys2Proof.Machine
end

section
/-! Ports that wait (O53): a tick whose sample finds the transport or the reader not ready. -/

namespace Sys2Proof.Machine

open Sys2Proof

/-- A byte that the transport does not take stays on the port, and the sending goes on (R251). -/
theorem doSend_stalled (b : Byte) (bs : List Byte) (s : State) :
    doSend (b :: bs) (s.feed { Answers.none with txReady := [false] }) =
      State.push [.send (b :: bs)] { s with tx := some b } := rfl

/-- A request that the reader does not take stays on the port, and the requesting goes on (R253). -/
theorem doRequest_stalled (st : Stage) (r : Nat) (addr : Word) (s : State) :
    doRequest st r addr (s.feed { Answers.none with rdReqReady := [false] }) =
      State.push [.request st r addr] { s with rd := some (addr, BitVec.ofNat 16 s.params.bpr) } := rfl

/-- Taking the head off a position and putting it back changes nothing. -/
theorem push_setTodo {s : State} {m : Micro} {rest : List Micro} (h : s.seq.todo = m :: rest) :
    (s.setTodo rest).push [m] = s := by
  simp [State.push, State.setTodo, ← h]

/-- Settles O53: the micro-operation at the head puts itself back. -/
theorem stalledPortsHoldTheirData : Obligations.StalledPortsHoldTheirData := by
  intro s b bs st r addr rest hb
  refine ⟨fun ht => ?_, fun ht => ?_⟩
  · refine (tick_head (s := s.feed _) hb ht).trans (congrArg Host.Outcome.next ?_)
    exact (doSend_stalled b bs (s.setTodo rest)).trans (push_setTodo (s := { s with tx := some b }) ht)
  · refine (tick_head (s := s.feed _) hb ht).trans (congrArg Host.Outcome.next ?_)
    exact (doRequest_stalled st r addr (s.setTodo rest)).trans (push_setTodo (s := { s with rd := some _ }) ht)

end Sys2Proof.Machine
end

section
/-! Hazards (O7, O14): updates of the state that no tick looks at or undoes (`Aside`), so that ticks commute with
them. And reset (O17). -/

namespace Sys2Proof.Machine

open Sys2Proof

/-! ### Updates that the sequencer does not see (R62, R276, R277) -/

/-- The update `f` writes fields that a running command neither reads nor writes: it keeps `busy` and the
parameters, and can be made before or after the work of a micro-operation and a completion. -/
structure Aside (f : State → State) : Prop where
  busy : ∀ s, (f s).busy = s.busy
  params : ∀ s, (f s).params = s.params
  workOf : ∀ s t, f (s.workOf t) = (f s).workOf t
  complete : ∀ s, f s.complete = (f s).complete

theorem Aside.eq_workOf {f : State → State} (hf : Aside f) (s : State) : f s = (f s).workOf s :=
  hf.workOf s s

theorem Aside.seq_eq {f : State → State} (hf : Aside f) (s : State) : (f s).seq = s.seq :=
  (congrArg State.seq (hf.eq_workOf s)).trans rfl

theorem Aside.setTodo_eq {f : State → State} (hf : Aside f) (s : State) (ms : List Micro) :
    (f s).setTodo ms = (f s).workOf (s.setTodo ms) :=
  congrArg (State.setTodo ms) (hf.eq_workOf s)

/-- A micro-operation after such an update: it works as without, and the update stays. -/
theorem Aside.runMicro_comm {f : State → State} (hf : Aside f) (m : Micro) (s : State) (rest : List Micro) :
    runMicro m ((f s).setTodo rest) = mapNext f (runMicro m (s.setTodo rest)) := by
  have hwork : ∀ t, runMicro m (s.setTodo rest) = .next t → (f s).workOf t = f t := fun t ht => by
    have hkeep : t = s.workOf t := (runMicro_keeps ht).trans rfl
    exact (hf.workOf s t).symm.trans (congrArg f hkeep.symm)
  rw [hf.setTodo_eq, runMicro_of_workOf (s := s.setTodo rest) (hf.params s)]
  cases hrun : runMicro m (s.setTodo rest) with
  | next t => exact congrArg Host.Outcome.next (hwork t hrun)
  | fault r => rfl
  | refused r => rfl

theorem Aside.tick_comm {f : State → State} (hf : Aside f) (s : State) : tick (f s) = mapNext f (tick s) := by
  cases hb : s.busy with
  | false => rw [tick_idle hb, tick_idle ((hf.busy s).trans hb)]; rfl
  | true =>
    have hb' : (f s).busy = true := (hf.busy s).trans hb
    have hseq := congrArg Seq.todo (hf.seq_eq s)
    cases ht : s.seq.todo with
    | nil =>
      rw [tick_done hb ht, tick_done hb' (hseq.trans ht), ← hf.complete]
      rfl
    | cons m rest => rw [tick_head hb ht, tick_head hb' (hseq.trans ht), hf.runMicro_comm]

/-- Ticks commute with an update that the sequencer does not see. -/
theorem Aside.ticks_comm {f : State → State} (hf : Aside f) (n : Nat) (s : State) :
    ticks n (f s) = mapNext f (ticks n s) := by
  induction n generalizing s with
  | zero => rfl
  | succ n ih =>
    rw [ticks_succ, ticks_succ, hf.tick_comm, mapNext, mapNext, andThen_assoc, andThen_assoc]
    exact congrArg (andThen (tick s)) (funext ih)

theorem aside_dropCommand : Aside State.dropCommand where
  busy _ := rfl
  params _ := rfl
  workOf _ _ := rfl
  complete _ := rfl

theorem aside_withHostRegs (range rdbase rdold : Word) : Aside (State.withHostRegs range rdbase rdold) where
  busy _ := rfl
  params _ := rfl
  workOf _ _ := rfl
  complete _ := rfl

/-! ### A `CMD` write while a command runs (R276) -/

/-- While a command runs, any word at `CMD`, legal or not, is dropped. -/
theorem writeCmd_busy {s : State} (hb : s.busy = true) (w : Word) :
    writeCmd w s = ticks s.inputs.gap s.dropCommand := by
  unfold writeCmd
  split
  · rw [exec_eq, startOf_busy hb]
  · exact runIllegal_busy hb w

/-- Settles O7: the write is dropped, and to set `OVERRUN` before the ticks or after them is the same. -/
theorem commandWhileBusyIsDropped : Obligations.CommandWhileBusyIsDropped := by
  intro s w g rest hr hm hb
  have hstep : step s = ticks g (s.afterMove rest g).dropCommand := by
    rw [step_of_move hm]
    exact (hostWrite_accepted (s := s.afterMove rest g) hr 0x00 w).trans
      (writeCmd_busy (s := s.afterMove rest g) hb w)
  refine ⟨hstep, fun t ht => ?_⟩
  rw [hstep, aside_dropCommand.ticks_comm] at ht
  obtain ⟨u, hu, hdrop⟩ := andThen_eq_next.mp ht
  exact ⟨u, hu, (Host.Outcome.next.inj hdrop).symm⟩

/-! ### The latched copies (R57, R277) -/

/-- Only a launch writes the latched copies. -/
theorem tick_lat {s t : State} (h : tick s = .next t) : t.lat = s.lat := by
  obtain ⟨-, rfl⟩ | ⟨-, -, rfl⟩ | ⟨m, rest, -, -, h⟩ := tick_cases h
  · rfl
  · rfl
  · exact (congrArg State.lat (runMicro_keeps h)).trans rfl

/-- In an idle block every word is launched, also one that is then refused. -/
theorem startOf_lat (i : Instr) {s : State} (hb : s.busy = false) :
    (startOf i s).lat = (s.launch (encode i)).lat :=
  startOf_keeps (P := fun u => u.lat = (s.launch (encode i)).lat) (fun h => by simp [hb] at h)
    (fun _ _ => follow_keeps (P := fun u => u.lat = (s.launch (encode i)).lat) (fun _ _ => rfl) fun _ _ _ => rfl)
    fun _ => rfl

/-- Settles O14: the launch latches, no tick writes the copies again, and no tick looks at the registers. -/
theorem runningCommandUsesLatchedArguments : Obligations.RunningCommandUsesLatchedArguments := by
  refine ⟨fun i s t hb h => ?_, fun n s t range rdbase rdold h => ?_⟩
  · rw [exec_eq] at h
    exact ticks_keep (P := fun u => u.lat = (s.launch (encode i)).lat) (fun hs ht => (tick_lat ht).trans hs)
      (startOf_lat i hb) h
  · rw [(aside_withHostRegs range rdbase rdold).ticks_comm, h]
    rfl

/-! ### Reset (R270, R271) -/

/-- A change of `rst_n` that leaves the block idle. -/
theorem access_rstN_idle {s : State} {level : Bool} (hb : (s.driveRst level).busy = false) :
    access (.rstN level) s = .next (s.driveRst level) :=
  ticks_idle hb _

/-- A write to an idle block in reset. -/
theorem access_write_in_reset {s : State} (hr : s.inputs.rstN = false) (hb : s.busy = false) (a : BitVec 8)
    (v : Word) : access (.write a v) s = .next s :=
  (hostWrite_in_reset hr a v).trans (ticks_idle hb _)

/-- A read of an idle block in reset. -/
theorem access_read_in_reset {s : State} (hr : s.inputs.rstN = false) (hb : s.busy = false) (a : BitVec 8) :
    access (.read a) s = .next s := by
  rw [access, hostRead_in_reset hr, ticks_idle hb]

/-- Settles O17: `rst_n` leaves an idle block at either level, and in reset an access is only the ticks after
it. -/
theorem resetAbandonsTheCommand : Obligations.ResetAbandonsTheCommand := by
  refine ⟨fun s g rest hm => ?_, fun s a v g hr hb => ⟨fun rest hm => ?_, fun rest hm hp => ?_⟩,
    fun s g rest hm hb => ?_⟩
  · rw [step_of_move hm]
    exact access_rstN_idle (s := s.afterMove rest g) rfl
  · rcases hm with hm | hm
    · rw [step_of_move hm]
      exact access_write_in_reset (s := s.afterMove rest g) hr hb a v
    · rw [step_of_move hm]
      exact access_read_in_reset (s := s.afterMove rest g) hr hb a
  · rcases hp with hp | hp
    · rw [step_of_line hm hp]
      exact access_write_in_reset (s := s.afterLine rest g) hr hb a v
    · rw [step_of_line hm hp]
      exact access_read_in_reset (s := s.afterLine rest g) hr hb a
  · rw [step_of_move hm]
    exact access_rstN_idle (s := s.afterMove rest g) (level := true) hb

end Sys2Proof.Machine
end

section
/-! The listed words (O4), read backwards: each is the word of its command, and a command's word decodes to
it (O1). -/

namespace Sys2Proof.Machine

open Sys2Proof

/-- The decoder on a word that is known as the word of a command. -/
theorem decode_of_encode_eq {i : Instr} {w : Word} (hw : WellFormed i = true) (h : encode i = w) :
    decode w = .command i :=
  h ▸ decodeOfEncodeIsTheCommand i hw

/-- Settles O4: every listed word is the word of its command, all of which are well formed. -/
theorem specWordsDecodeAsListed : Obligations.SpecWordsDecodeAsListed := by
  refine ⟨?_, ?_, ?_, ?_, ?_, ?_, ?_, ?_⟩ <;> exact decode_of_encode_eq (by decide) (by decide)

end Sys2Proof.Machine
end
